-- ==== Sys2Proof/Word.lean ====
section
/-! DEFINITION. The machine word and the two word widths (rules R3, R8). -/

namespace Sys2Proof

/-- The container of every register and RAM word. At `W = 64` it is the word of rule R3 itself; at `W = 32` it
holds the 32-bit word in its low half, the upper half being 0 (the model's choice, log 4; that every step keeps
the upper half 0 is a statement of this model). -/
abbrev Word := BitVec 64

/-- The two legal values of the parameter `W` (rule R3). -/
inductive Width where
  | w32
  | w64
deriving DecidableEq, Repr

/-- `W` as a number of bits (rule R3). -/
def Width.bits : Width → Nat
  | .w32 => 32
  | .w64 => 64

end Sys2Proof
end

