-- ==== Sys2Proof/Config.lean ====
section
/-! DEFINITION. The implementation parameters (rules R3 to R5) and the free values of the spec (`any_W()`, rule R10;
RAM contents after reset, rule R250). -/

namespace Sys2Proof

/-- The parameters of rules R3 and R5. `legal` is the column "legal values" of rule R5, so that an illegal
configuration cannot be written down. -/
structure Config where
  /-- The word width `W`. -/
  width : Width
  /-- `LMAX`, the number of modulus slots. -/
  lmax : Nat
  /-- `LOGNMAX`, log2 of the largest degree. -/
  lognmax : Nat
  /-- `NBUF`, the number of polynomial buffers. -/
  nbuf : Nat
  /-- The legal values of rule R5. -/
  legal : 1 ≤ lmax ∧ lmax ≤ 64 ∧ lmax * 2 ^ lognmax ≤ 2 ^ 24 ∧ 1 ≤ nbuf ∧ nbuf ≤ 16
deriving DecidableEq, Repr

/-- The defaults of rules R3 and R5: `W = 64`, `LMAX = 32`, `LOGNMAX = 16`, `NBUF = 4`. -/
def Config.standard : Config :=
  { width := .w64, lmax := 32, lognmax := 16, nbuf := 4, legal := by decide }

/-- `W` (rule R3). -/
abbrev Config.W (c : Config) : Nat := c.width.bits

/-- The radix `R = 2^W` (rule R3). -/
abbrev Config.R (c : Config) : Nat := 2 ^ c.W

/-- `QMAX = 2^(W-2)` (rule R4). -/
abbrev Config.qmax (c : Config) : Nat := 2 ^ (c.W - 2)

/-- `NMAX = 2^LOGNMAX` (rule R5). -/
abbrev Config.nmax (c : Config) : Nat := 2 ^ c.lognmax

/-- The n-th free value `any_W()` of rule R10 ("any W-bit value, chosen freely at each occurrence, under no law"):
an uninterpreted sequence, of which nothing can be proved. A use takes its low `W` bits. Log 3. -/
opaque Config.anyWord : Nat → Word

/-- The contents of a RAM word that nothing has written since a reset (rule R250: "any value, per word"), as an
uninterpreted function of the reset it dates from and the word's host-port address. A use takes its low `W` bits.
Log 2. -/
opaque Config.ramWord : Nat → Nat → Word

/-- The values rule R98 leaves open in the host's own expressions: `a − b` with `a < b` (argument `a b`), and a host
variable nothing has bound (argument `0 x`). Uninterpreted. Log 13. -/
opaque Config.hostOpen : Nat → Nat → Nat

end Sys2Proof
end

