-- ==== Sys2Proof/Machine/Arith.lean ====
section
/-! DEFINITION. The arithmetic of the unit on unbounded naturals (rules R8, R11, R12, R121, R133, R134, R171). -/

namespace Sys2Proof.Machine

/-- A natural as a word of the machine: its low `W` bits (rule R8: a register holds a number below `2^W`). -/
def mkWord (c : Config) (n : Nat) : Word := BitVec.ofNat 64 (n % c.R)

/-- `bitlen(q)` (rule R11): the least `k` with `q < 2^k`. -/
def bitlen (q : Nat) : Nat := if q = 0 then 0 else Nat.log2 q + 1

/-- `ispow2(q)` (rule R11). -/
def ispow2 (q : Nat) : Bool := q != 0 && 2 ^ Nat.log2 q == q

/-- `brv_k(i)` (rule R11): the low `k` bits of `i` in reverse order. -/
def brv : Nat → Nat → Nat
  | 0, _ => 0
  | k + 1, i => i % 2 * 2 ^ k + brv k (i / 2)

/-- Square and multiply over the low `k` bits of the exponent. -/
def modPowBits (m : Nat) : Nat → Nat → Nat → Nat
  | 0, _, _ => 1 % m
  | k + 1, base, e =>
    let r := modPowBits m k (base * base % m) (e / 2)
    if e % 2 = 1 then base * r % m else r

/-- `base^e mod m` (rules R131, R175), computed by square and multiply so that it can be run. -/
def modPow (base e m : Nat) : Nat := modPowBits m (bitlen e) base e

/-- The extended Euclidean algorithm on naturals: `r0 ≡ t0 · a` and `r1 ≡ t1 · a (mod m)` throughout. -/
def invLoop (m : Nat) : Nat → Nat → Nat → Nat → Nat → Nat
  | 0, _, _, t0, _ => t0
  | k + 1, r0, r1, t0, t1 =>
    if r1 = 0 then t0 else invLoop m k r1 (r0 % r1) t1 ((t0 + (m - r0 / r1 * t1 % m)) % m)

/-- `inv_m(a)` (rule R11): the `u` in `[0, m)` with `a · u mod m = 1`, when `gcd(a, m) = 1`. -/
def invMod (a m : Nat) : Nat := invLoop m (a % m + 1) m (a % m) 0 (1 % m)

/-- No `d` of `[d, …)` with `d² ≤ q` divides `q`. -/
def noDivisorFrom (q : Nat) : Nat → Nat → Bool
  | 0, _ => true
  | k + 1, d => if q < d * d then true else q % d != 0 && noDivisorFrom q k (d + 1)

/-- `isPrime(q)` (rules R11, R182), exact: trial division up to the square root. -/
def isPrime (q : Nat) : Bool := decide (2 ≤ q) && noDivisorFrom q q 2

/-- For every divisor pair `(d, n/d)` of `n` from `d` on, no proper one is an exponent that takes `g` to 1 mod `q`. -/
def noProperOrderFrom (g q n : Nat) : Nat → Nat → Bool
  | 0, _ => true
  | k + 1, d =>
    if n < d * d then true
    else
      (n % d != 0
        || ((d == n || modPow g d q != 1) && (n / d == n || modPow g (n / d) q != 1)))
      && noProperOrderFrom g q n k (d + 1)

/-- The multiplicative order of `g` mod `q` is `q - 1` (rule R11, `isGen` for a prime `q`): `g^(q-1)` is 1 and `g^d`
is not, for every proper divisor `d` of `q - 1`. -/
def hasFullOrder (g q : Nat) : Bool :=
  modPow g (q - 1) q == 1 && noProperOrderFrom g q (q - 1) (q - 1) 1

/-- The first `g` of `[g, …)` that generates, looking at `k` candidates; 0 if there is none among them. -/
def findGenerator (q : Nat) : Nat → Nat → Nat
  | 0, _ => 0
  | k + 1, g => if hasFullOrder g q then g else findGenerator q k (g + 1)

/-- The smallest primitive root of a prime `q` (rule R174): `min { g ≥ 2 : isGen(g, q) }`. -/
def smallestGenerator (q : Nat) : Nat := findGenerator q q 2

/-- The Montgomery form `mont_q(a) = a · R mod q` (rule R12). -/
def montForm (c : Config) (q a : Nat) : Nat := a * c.R % q

/-- The Montgomery constant `(2^W − inv_{2^W}(q)) mod 2^W` (rules R120, R133). -/
def montConst (c : Config) (q : Nat) : Nat := (c.R - invMod q c.R) % c.R

/-- The Barrett constant `⌊2^(2W) / q⌋` (rules R120, R134). -/
def barrettConst (c : Config) (q : Nat) : Nat := 2 ^ (2 * c.W) / q

/-- `REDC_lax(T)` (rule R121) for modulus `q` and Montgomery constant `km`. -/
def redcLax (c : Config) (q km T : Nat) : Nat := (T + T % c.R * km % c.R * q) / c.R

/-- `REDC(T)` (rule R121): one conditional subtraction after `REDC_lax`. -/
def redc (c : Config) (q km T : Nat) : Nat :=
  if redcLax c q km T ≥ q then redcLax c q km T - q else redcLax c q km T

/-- `(u + v) mod q` (rule R129). -/
def addMod (q u v : Nat) : Nat := (u + v) % q

/-- `(u − v) mod q` (rule R130), the non-negative remainder of rule R8. -/
def subMod (q u v : Nat) : Nat := (u + (q - v % q)) % q

/-- The Cooley–Tukey butterfly `(u + v·w, u − v·w)` (rule R160), `w` in Montgomery form. -/
def butterflyCT (c : Config) (q km w u v : Nat) : Nat × Nat :=
  (addMod q u (redc c q km (v * w)), subMod q u (redc c q km (v * w)))

/-- The Gentleman–Sande butterfly `(u + v, (u − v)·w)` (rule R161), `w` in Montgomery form. -/
def butterflyGS (c : Config) (q km w u v : Nat) : Nat × Nat :=
  (addMod q u v, redc c q km (subMod q u v * w))

/-- The coefficient mask `2^bitlen(q) − 1` (rule R171). -/
def coeffMask (q : Nat) : Nat := 2 ^ bitlen q - 1

end Sys2Proof.Machine
end

