-- ==== Sys2Proof/Syntax.lean ====
section
/-! DEFINITION. The commands of the unit: one constructor per row of the opcode table (rule R93). -/

namespace Sys2Proof

/-- The twenty commands of rule R93. The operand fields are those of rule R91: `slot` is `SLOT` (bits 15:10), `buf`
is `BUF` (bits 19:16), `all` is `ALL` (bit 9). `MRED` and `MRED.LAZY` share an opcode and differ in `LZ`. -/
inductive Instr where
  | nop
  | mform
  | mtos
  | mred
  | mredLazy
  | bred
  | cred
  | madd
  | msub
  | modpow
  | fred
  | mconst
  | bconst
  | bfct
  | bfgs
  | ctxset
  | validate
  | ctxld (slot : BitVec 6)
  | nttf (buf : BitVec 4) (all : Bool) (slot : BitVec 6)
  | ntti (buf : BitVec 4) (all : Bool) (slot : BitVec 6)
deriving DecidableEq, Repr

end Sys2Proof
end

