-- ==== Sys2Proof/Machine/State.lean ====
section
/-! DEFINITION. The state of the unit (rules R20 to R37), its reasons to stop, and the state after reset (rule R250). -/

namespace Sys2Proof.Machine

/-- The error codes of rule R221, as `STATUS.ERRCODE` holds them. -/
inductive ErrCode where
  /-- `0x00` OK. -/
  | ok
  /-- `0x01` InvalidDegree, raised by `CTXSET`. -/
  | invalidDegree
  /-- `0x02` NonNTTCompatibleModulus, raised by `VALIDATE`. -/
  | nonNttCompatibleModulus
  /-- `0x03` InvalidBasisLength, raised by `CTXSET`. -/
  | invalidBasisLength
  /-- `0x04` NotValidated, raised by `NTTF` and `NTTI`. -/
  | notValidated
  /-- `0x05` NotConfigured, raised by `VALIDATE`. -/
  | notConfigured
  /-- `0x06` IllegalCommand, raised by every illegal word. -/
  | illegalCommand
  /-- `0x07` BadSlot, raised by `CTXLD`, `NTTF` and `NTTI`. -/
  | badSlot
  /-- `0x08` BadBuffer, raised by `NTTF` and `NTTI`. -/
  | badBuffer
  /-- `0x10` SizeMismatch, reserved and never raised. -/
  | sizeMismatch
  /-- `0x11` EntropyUnavailable, reserved and never raised. -/
  | entropyUnavailable
deriving DecidableEq, Repr

/-- One entry of the modulus slot file (rule R26). -/
structure Slot where
  /-- `CQ`, the committed modulus. -/
  cq : Word
  /-- `MASK`, the coefficient mask. -/
  mask : Word
  /-- `BCL`, the low word of the Barrett constant. -/
  bcl : Word
  /-- `BCH`, the high word of the Barrett constant. -/
  bch : Word
  /-- `MC`, the Montgomery constant. -/
  mc : Word
  /-- `HASMONT`, 1 bit. -/
  hasmont : Bool
  /-- `G`, the primitive root. -/
  g : Word
  /-- `PSI`, the root of unity in Montgomery form. -/
  psi : Word
  /-- `PSIINV`, its inverse in Montgomery form. -/
  psiinv : Word
  /-- `NINV`, the inverse of the degree in Montgomery form. -/
  ninv : Word
deriving DecidableEq, Repr

/-- Every field 0: a slot after reset (rule R26) and a slot `s ≥ LREQ` after `CTXSET` (rule R170). -/
def Slot.zero : Slot :=
  { cq := 0, mask := 0, bcl := 0, bch := 0, mc := 0, hasmont := false, g := 0, psi := 0, psiinv := 0, ninv := 0 }

/-- The words of a RAM that have been written since the last reset, each under its host-port word address, addresses
strictly rising (`Ram.wf`, Machine/Ops.lean). Every other word holds `Config.ramWord` (rule R250, log 2). A cell is
a whole word because no access and no command views a word as bytes (rules R61, R67, log 1). -/
abbrev Ram := List (Nat × Word)

/-- What reaches the unit next. The host issues its accesses one at a time and in order (rule R72); `unit` is the
moment at which the running command completes, which rule R259 leaves open (log 6). -/
inductive PortEvent where
  /-- A host read of a word address (rule R63). -/
  | read (addr : BitVec 32)
  /-- A host write of a word (rule R64). -/
  | write (addr : BitVec 32) (v : Word)
  /-- The reset input is asserted and released (rules R250, R251). -/
  | reset
  /-- The unit completes the command in flight (rule R220). -/
  | unit
deriving DecidableEq, Repr

/-- The state of the unit: rule R20's list, with the parameters (`cfg`) and the model's own `draws`, `epoch`,
`rdata` and `events`. `ID`, `CFG`, `STATUS.ERR` and `IRQ` are functions of it (rules R29, R31, R37). -/
structure State where
  /-- The parameters `W`, `LMAX`, `LOGNMAX`, `NBUF` (rule R5); no step changes them (log 5). -/
  cfg : Config
  /-- Operand register `A` (rule R21). -/
  a : Word
  /-- Operand register `B` (rule R21). -/
  b : Word
  /-- Operand register `C` (rule R21). -/
  c : Word
  /-- Modulus register `Q` (rule R22). -/
  q : Word
  /-- Montgomery constant register `KM` (rule R22). -/
  km : Word
  /-- Barrett constant register `KBL`, low word (rule R22). -/
  kbl : Word
  /-- Barrett constant register `KBH`, high word (rule R22). -/
  kbh : Word
  /-- Result register `R0` (rule R23). -/
  r0 : Word
  /-- Result register `R1` (rule R23). -/
  r1 : Word
  /-- Requested degree `NREQ` (rule R24). -/
  nreq : Word
  /-- Requested basis length `LREQ` (rule R24). -/
  lreq : Word
  /-- Requested moduli `QIN[0..LMAX-1]` (rule R24). -/
  qin : List Word
  /-- Committed degree `CN` (rule R25). -/
  cn : Word
  /-- `CLOGN = log2(CN)` (rule R25). -/
  clogn : Word
  /-- Committed basis length `CL` (rule R25). -/
  cl : Word
  /-- `CONFIGURED` (rules R25, R31). -/
  configured : Bool
  /-- `VALIDATED` (rules R25, R31). -/
  validated : Bool
  /-- The modulus slot file, `LMAX` slots (rule R26). -/
  slots : List Slot
  /-- Forward twiddle RAM `TWF` (rule R27). -/
  twf : Ram
  /-- Inverse twiddle RAM `TWI` (rule R27). -/
  twi : Ram
  /-- Polynomial RAM `POLY` (rule R28). -/
  poly : Ram
  /-- `CTRL.IE` (rule R30); the other bits of `CTRL` read 0. -/
  ie : Bool
  /-- `STATUS.BUSY` (rule R31): a command is in flight (rule R36), its word in `lastcmd`. -/
  busy : Bool
  /-- `STATUS.DONE` (rule R31). -/
  done : Bool
  /-- `STATUS.HAZARD` (rule R31). -/
  hazard : Bool
  /-- `STATUS.ADDRERR` (rule R31). -/
  addrerr : Bool
  /-- `STATUS.ERRCODE` (rules R31, R221); `ERR` follows it. -/
  errcode : ErrCode
  /-- `LASTCMD`, the last command word accepted (rule R32). -/
  lastcmd : Word
  /-- `ERRSLOT` (rule R33). -/
  errslot : Word
  /-- `ERRVAL` (rule R33). -/
  errval : Word
  /-- The model's own: how many values `any_W()` have been drawn (rule R10, log 3). -/
  draws : Nat
  /-- The model's own: which reset the unwritten RAM words date from (rules R250, R251, log 2). -/
  epoch : Nat
  /-- The model's own: the word the last host read returned (rule R63, log 7). -/
  rdata : Word
  /-- The model's own: what reaches the unit next (rules R34, R72, R259, log 6). -/
  events : List PortEvent
deriving DecidableEq, Repr

/-- Why the machine could stop with a fault: it never does. The unit has no trap and no stuck behaviour (rule R228;
93_implementation_defined.md, treatments `stuck` and `fault`: "not used"), so nobody raises a fault. -/
inductive Fault where
deriving DecidableEq, Repr

/-- Why a step could be refused. -/
inductive Refusal where
  /-- Raised by an arm of `exec` whose instruction has no meaning yet, under the mnemonic of the opcode table. No
  arm of this model raises it. Safe: the run stops. -/
  | notModelled (mnemonic : String)
deriving DecidableEq, Repr

/-- The state after reset (rule R250), at given parameters: every register 0, no command in flight, the context
Empty, no RAM word written. -/
def State.resetWith (cfg : Config) : State :=
  { cfg := cfg
    a := 0, b := 0, c := 0, q := 0, km := 0, kbl := 0, kbh := 0, r0 := 0, r1 := 0
    nreq := 0, lreq := 0, qin := List.replicate cfg.lmax 0
    cn := 0, clogn := 0, cl := 0, configured := false, validated := false
    slots := List.replicate cfg.lmax Slot.zero
    twf := [], twi := [], poly := []
    ie := false, busy := false, done := false, hazard := false, addrerr := false
    errcode := .ok, lastcmd := 0, errslot := 0, errval := 0
    draws := 0, epoch := 0, rdata := 0, events := [] }

/-- The machine right after reset, at the default parameters (rules R5, R250). -/
def State.reset : State := State.resetWith Config.standard

end Sys2Proof.Machine
end

