-- ==== Sys2Proof/Machine/Ops.lean ====
section
/-! DEFINITION. The named operations over registers and RAMs: free values (rule R10), RAM words (rules R27, R28, R62),
slots (rule R26), completion and errors (rule R220). -/

namespace Sys2Proof.Machine

/-! ### Free values -/

/-- The `j`-th free value `any_W()` the current command draws (rule R10). -/
def State.anyW (s : State) (j : Nat) : Word := mkWord s.cfg (Config.anyWord (s.draws + j)).toNat

/-- `n` free values have been drawn: the next command draws others (rule R10, "freely at each occurrence"). -/
def State.spend (n : Nat) (s : State) : State := { s with draws := s.draws + n }

/-! ### RAMs -/

/-- The addresses of a RAM's written words rise strictly from `lo` on. -/
def Ram.risesFrom : Nat → Ram → Bool
  | _, [] => true
  | lo, (a, _) :: rest => decide (lo ≤ a) && Ram.risesFrom (a + 1) rest

/-- The canonical form: written addresses strictly rising, so that each is listed once. -/
def Ram.wf (r : Ram) : Bool := Ram.risesFrom 0 r

/-- Write one word. -/
def Ram.write : Ram → Nat → Word → Ram
  | [], a, w => [(a, w)]
  | (b, v) :: rest, a, w =>
    if a < b then (a, w) :: (b, v) :: rest
    else if a = b then (a, w) :: rest
    else (b, v) :: Ram.write rest a w

/-- The word written at an address since the last reset, if any. -/
def Ram.find : Ram → Nat → Option Word
  | [], _ => none
  | (b, v) :: rest, a => if a = b then some v else Ram.find rest a

/-- Write consecutive words from an address on. -/
def Ram.writeList : Ram → Nat → List Word → Ram
  | r, _, [] => r
  | r, a, w :: ws => Ram.writeList (Ram.write r a w) (a + 1) ws

/-- What a RAM word reads as: the word last written there, and where nothing has been written since the last reset
the free value of rule R250 (log 2). The ONE definition of what an unlisted address reads as. -/
def State.ramWord (s : State) (r : Ram) (addr : Nat) : Word :=
  match r.find addr with
  | some w => w
  | none => mkWord s.cfg (Config.ramWord s.epoch addr).toNat

/-- Host-port address of `TWF[s][i]` (rule R62). -/
def twfAddr (c : Config) (s i : Nat) : Nat := 0x01000000 + s * c.nmax + i

/-- Host-port address of `TWI[s][i]` (rule R62). -/
def twiAddr (c : Config) (s i : Nat) : Nat := 0x02000000 + s * c.nmax + i

/-- Host-port address of `POLY[b][s][i]` (rule R62). -/
def polyAddr (c : Config) (b s i : Nat) : Nat := 0x10000000 + b * 2 ^ 24 + s * c.nmax + i

/-- `TWF[s][i]` (rule R27). -/
def State.twfWord (st : State) (s i : Nat) : Word := st.ramWord st.twf (twfAddr st.cfg s i)

/-- `TWI[s][i]` (rule R27). -/
def State.twiWord (st : State) (s i : Nat) : Word := st.ramWord st.twi (twiAddr st.cfg s i)

/-- `POLY[b][s][i]` (rule R28). -/
def State.polyWord (st : State) (b s i : Nat) : Word := st.ramWord st.poly (polyAddr st.cfg b s i)

/-- The array `POLY[b][s][0..n-1]` as naturals. -/
def State.polyArray (st : State) (b s n : Nat) : List Nat := (List.range n).map (fun i => (st.polyWord b s i).toNat)

/-- `POLY[b][s][0..] <- ws`. -/
def State.setPolyArray (b s : Nat) (ws : List Word) (st : State) : State :=
  { st with poly := st.poly.writeList (polyAddr st.cfg b s 0) ws }

/-! ### Slots and indexed registers -/

/-- Modulus slot `s` (rule R26). -/
def State.slot (st : State) (s : Nat) : Slot := st.slots.getD s Slot.zero

/-- `QIN[s]` (rule R24). -/
def State.qinAt (st : State) (s : Nat) : Word := st.qin.getD s 0

/-- Replace modulus slot `s`. -/
def State.setSlot (s : Nat) (v : Slot) (st : State) : State := { st with slots := st.slots.set s v }

/-! ### Result registers -/

/-- `x[R0] <- w`. -/
def State.setR0 (w : Word) (s : State) : State := { s with r0 := w }

/-- `x[R1] <- w`. -/
def State.setR1 (w : Word) (s : State) : State := { s with r1 := w }

/-! ### Completion, and errors in place of exceptions -/

/-- The completion of rule R220: `ERRCODE <- code`, `BUSY <- 0`, `DONE <- 1`. -/
def State.completeWith (code : ErrCode) (s : State) : State :=
  { s with errcode := code, busy := false, done := true }

/-- `complete()` (rule R10). -/
def State.complete (s : State) : State := s.completeWith .ok

/-- `raise Error(code)` (rules R10, R220). The unit has no exception entry: no pc and no status is saved, no mode
changes and control goes nowhere (rule R228); the error IS this completion. There is nothing to return from
(rule R229). -/
def State.raise (code : ErrCode) (s : State) : State := s.completeWith code

/-- A command that writes `R0` alone: `v` when its contract holds, a free value when it fails (rules R14, R120). -/
def State.finishR0 (ok : Bool) (v : Nat) (s : State) : State :=
  if ok then (s.setR0 (mkWord s.cfg v)).complete
  else ((s.setR0 (s.anyW 0)).spend 1).complete

/-- A command that writes `R0` and `R1`: `v` when its contract holds, a free value in each when it fails
(rules R14, R120). -/
def State.finishR0R1 (ok : Bool) (v : Nat × Nat) (s : State) : State :=
  if ok then ((s.setR0 (mkWord s.cfg v.1)).setR1 (mkWord s.cfg v.2)).complete
  else (((s.setR0 (s.anyW 0)).setR1 (s.anyW 1)).spend 2).complete

end Sys2Proof.Machine
end

