-- ==== Sys2Proof/Machine/Operands.lean ====
section
/-! DEFINITION. The operands of the commands and their contracts (rules R14, R92, R120), and the slot selection of the
transform commands (rule R200). -/

namespace Sys2Proof.Machine

/-- `MontOK` (rule R120) for a modulus and a Montgomery constant. -/
def montOk (c : Config) (q km : Nat) : Bool :=
  q % 2 == 1 && decide (3 ≤ q) && decide (q < c.qmax) && km == montConst c q

/-- `ModOK` (rule R120). -/
def modOk (c : Config) (q : Nat) : Bool := decide (2 ≤ q) && decide (q < c.qmax)

/-- `BarOK` (rule R120). -/
def barOk (c : Config) (q kbl kbh : Nat) : Bool := modOk c q && kbh * c.R + kbl == barrettConst c q

/-- `MontOK` over the registers. -/
def State.montOk (s : State) : Bool := Sys2Proof.Machine.montOk s.cfg s.q.toNat s.km.toNat

/-- `BarOK` over the registers. -/
def State.barOk (s : State) : Bool := Sys2Proof.Machine.barOk s.cfg s.q.toNat s.kbl.toNat s.kbh.toNat

/-- `ModOK` over the registers. -/
def State.modOk (s : State) : Bool := Sys2Proof.Machine.modOk s.cfg s.q.toNat

/-- `A < Q`. -/
def State.aBelowQ (s : State) : Bool := decide (s.a.toNat < s.q.toNat)

/-- `B < Q`. -/
def State.bBelowQ (s : State) : Bool := decide (s.b.toNat < s.q.toNat)

/-- `C < Q`. -/
def State.cBelowQ (s : State) : Bool := decide (s.c.toNat < s.q.toNat)

/-- `A · B < Q · 2^W` (rules R125, R126). -/
def State.productFits (s : State) : Bool := decide (s.a.toNat * s.b.toNat < s.q.toNat * s.cfg.R)

/-- The contract of the butterfly commands (rules R160, R161). -/
def State.butterflyOk (s : State) : Bool := s.montOk && s.aBelowQ && s.bBelowQ && s.cBelowQ

/-- The slots a transform command works on (rule R200): all of `0..CL-1`, or the one it names. -/
def State.selected (s : State) (all : Bool) (slot : BitVec 6) : List Nat :=
  if all then List.range s.cl.toNat else [slot.toNat]

end Sys2Proof.Machine
end

