-- ==== Sys2Proof/Machine/Butterfly.lean ====
section
/-! DEFINITION. The butterfly commands (41_butterfly.md, rules R160 and R161). -/

namespace Sys2Proof.Machine

/-- `BFCT` (rule R160): `v = REDC(B · C)`, `R0 <- (A + v) mod Q`, `R1 <- (A − v) mod Q`. -/
def execBfct (s : State) : Host.Outcome State Fault Refusal :=
  .next (s.finishR0R1 s.butterflyOk
    (butterflyCT s.cfg s.q.toNat s.km.toNat s.c.toNat s.a.toNat s.b.toNat))

/-- `BFGS` (rule R161): `R0 <- (A + B) mod Q`, `R1 <- REDC(((A − B) mod Q) · C)`. -/
def execBfgs (s : State) : Host.Outcome State Fault Refusal :=
  .next (s.finishR0R1 s.butterflyOk
    (butterflyGS s.cfg s.q.toNat s.km.toNat s.c.toNat s.a.toNat s.b.toNat))

end Sys2Proof.Machine
end

