-- ==== Sys2Proof/Machine/Context.lean ====
section
/-! DEFINITION. The context commands (42_context.md, rules R170 to R179): `CTXSET`, `VALIDATE`, `CTXLD`. -/

namespace Sys2Proof.Machine

/-! ### CTXSET -/

/-- `SlotConst(q)` (rule R171) for slot `i`, which draws the free values `3i`, `3i+1`, `3i+2` where the rule says
`any_W()` (log 3). -/
def State.slotConst (s : State) (i : Nat) (w : Word) : Slot :=
  let q := w.toNat
  let k := barrettConst s.cfg q
  { cq := w
    mask := mkWord s.cfg (coeffMask q)
    bcl := if 2 ≤ q then mkWord s.cfg (k % s.cfg.R) else s.anyW (3 * i)
    bch := if 2 ≤ q then mkWord s.cfg (k / s.cfg.R) else s.anyW (3 * i + 1)
    mc := if ispow2 q then 0
      else if q % 2 = 1 then mkWord s.cfg (montConst s.cfg q)
      else s.anyW (3 * i + 2)
    hasmont := !ispow2 q
    g := 0, psi := 0, psiinv := 0, ninv := 0 }

/-- The slot file a successful `CTXSET` writes (rule R170): `SlotConst` below `LREQ`, zero from there on. -/
def State.requestedSlots (s : State) : List Slot :=
  (List.range s.cfg.lmax).map
    (fun i => if i < s.lreq.toNat then s.slotConst i (s.qinAt i) else Slot.zero)

/-- `NREQ` is a legal degree (rule R170). -/
def State.degreeOk (s : State) : Bool := ispow2 s.nreq.toNat && decide (s.nreq.toNat ≤ s.cfg.nmax)

/-- `LREQ` is a legal basis length (rule R170). -/
def State.lengthOk (s : State) : Bool := decide (1 ≤ s.lreq.toNat) && decide (s.lreq.toNat ≤ s.cfg.lmax)

/-- The writes of a successful `CTXSET` (rule R170). -/
def State.commitRequest (s : State) : State :=
  { s with
    slots := s.requestedSlots
    cn := s.nreq
    clogn := mkWord s.cfg (Nat.log2 s.nreq.toNat)
    cl := s.lreq
    configured := true
    validated := false
    draws := s.draws + 3 * s.lreq.toNat }

/-- `CTXSET` (rule R170): degree first, then length, then the commit. -/
def execCtxset (s : State) : Host.Outcome State Fault Refusal :=
  .next
    (if !s.degreeOk then s.raise .invalidDegree
    else if !s.lengthOk then s.raise .invalidBasisLength
    else s.commitRequest.complete)

/-! ### VALIDATE -/

/-- The test of rule R173 on one modulus. -/
def modulusOk (c : Config) (n q : Nat) : Bool := isPrime q && q % (2 * n) == 1 && decide (q < c.qmax)

/-- `Check()` (rule R173): the first failing slot, if any. -/
def State.firstBadSlot (s : State) : Option Nat :=
  (List.range s.cl.toNat).find? (fun i => !modulusOk s.cfg s.cn.toNat (s.slot i).cq.toNat)

/-- The exponent `e = (q − 1) / (2·N)` (rule R175). -/
def rootExponent (q n : Nat) : Nat := (q - 1) / (2 * n)

/-- `ψ = g^e mod q` (rule R175). -/
def rootOfUnity (q n : Nat) : Nat := modPow (smallestGenerator q) (rootExponent q n) q

/-- `ψinv = g^((q−1)−e) mod q` (rule R175). -/
def rootOfUnityInv (q n : Nat) : Nat := modPow (smallestGenerator q) (q - 1 - rootExponent q n) q

/-- The loop of rule R176 for one table: from index `j` on, `count` words, the current power `p`, each next one by a
Montgomery multiplication with `step`. -/
def fillTable (c : Config) (q km step k base : Nat) : Nat → Nat → Nat → Ram → Ram
  | 0, _, _, r => r
  | count + 1, j, p, r =>
    fillTable c q km step k base count (j + 1) (redc c q km (p * step)) (r.write (base + brv k j) (mkWord c p))

/-- The slot fields of rules R174, R175 and R177. -/
def Slot.withRoots (c : Config) (n : Nat) (v : Slot) : Slot :=
  let q := v.cq.toNat
  { v with
    g := mkWord c (smallestGenerator q)
    psi := mkWord c (montForm c q (rootOfUnity q n))
    psiinv := mkWord c (montForm c q (rootOfUnityInv q n))
    ninv := mkWord c (montForm c q (invMod n q)) }

/-- `Precompute(i)` (rules R174 to R177): the roots of slot `i` and its two tables. -/
def State.precompute (s : State) (i : Nat) : State :=
  let n := s.cn.toNat
  let k := s.clogn.toNat
  let v := (s.slot i).withRoots s.cfg n
  let q := v.cq.toNat
  let one := montForm s.cfg q 1
  { s with
    slots := s.slots.set i v
    twf := fillTable s.cfg q v.mc.toNat v.psi.toNat k (twfAddr s.cfg i 0) n 0 one s.twf
    twi := fillTable s.cfg q v.mc.toNat v.psiinv.toNat k (twiAddr s.cfg i 0) n 0 one s.twi }

/-- Rules R174 to R178: every slot of the basis, in order, then `VALIDATED <- 1`. -/
def State.precomputeAll (s : State) : State :=
  { (List.range s.cl.toNat).foldl State.precompute s with validated := true }

/-- What a failing check records (rules R33, R173). -/
def State.reportSlot (i : Nat) (s : State) : State :=
  { s with errslot := mkWord s.cfg i, errval := (s.slot i).cq }

/-- `VALIDATE` (rules R172, R173, R178). -/
def execValidate (s : State) : Host.Outcome State Fault Refusal :=
  .next
    (if !s.configured then s.raise .notConfigured
    else if s.validated then s.complete
    else
      match s.firstBadSlot with
      | some i => (s.reportSlot i).raise .nonNttCompatibleModulus
      | none => s.precomputeAll.complete)

/-! ### CTXLD -/

/-- The register writes of `CTXLD` (rule R179). -/
def State.loadModulus (v : Slot) (s : State) : State :=
  { s with q := v.cq, km := v.mc, kbl := v.bcl, kbh := v.bch }

/-- `CTXLD slot` (rule R179). -/
def execCtxld (slot : BitVec 6) (s : State) : Host.Outcome State Fault Refusal :=
  .next
    (if slot.toNat ≥ s.cl.toNat then s.raise .badSlot
    else (s.loadModulus (s.slot slot.toNat)).complete)

end Sys2Proof.Machine
end

