-- ==== Sys2Proof/Machine/Ntt.lean ====
section
/-! DEFINITION. The forward and inverse transform (43_ntt.md, rules R200 to R206): the loops of rules R201 and R203 on
an array of naturals, and the commands `NTTF` and `NTTI` over the polynomial RAM. -/

namespace Sys2Proof.Machine

/-! ### The loops on one array -/

/-- One butterfly in place on `a[j]` and `a[j + t]`. -/
def pairInPlace (f : Nat → Nat → Nat × Nat) (t j : Nat) (a : List Nat) : List Nat :=
  let r := f (a.getD j 0) (a.getD (j + t) 0)
  (a.set j r.1).set (j + t) r.2

/-- `for j in j1 .. j1 + t − 1`: the butterflies of one block, all with one twiddle. -/
def blockInPlace (f : Nat → Nat → Nat × Nat) (t j1 : Nat) (a : List Nat) : List Nat :=
  (List.range t).foldl (fun a d => pairInPlace f t (j1 + d) a) a

/-- `for i in 0 .. blocks − 1`: one stage, block `i` at `2·i·t` with the twiddle `tw (blocks + i)`. -/
def stageInPlace (f : Nat → Nat → Nat → Nat × Nat) (tw : Nat → Nat) (blocks t : Nat) (a : List Nat) : List Nat :=
  (List.range blocks).foldl (fun a i => blockInPlace (f (tw (blocks + i))) t (2 * i * t) a) a

/-- The stages of rule R201: `t` halves before a stage and `m` doubles after it. `stages` counts the passes of
`while m < N` (rule R201: "k stages"). -/
def forwardStages (f : Nat → Nat → Nat → Nat × Nat) (tw : Nat → Nat) : Nat → Nat → Nat → List Nat → List Nat
  | 0, _, _, a => a
  | stages + 1, m, t, a => forwardStages f tw stages (2 * m) (t / 2) (stageInPlace f tw m (t / 2) a)

/-- The stages of rule R203: `h = m / 2` blocks of stride `t`, then `t` doubles and `m` halves. -/
def inverseStages (f : Nat → Nat → Nat → Nat × Nat) (tw : Nat → Nat) : Nat → Nat → Nat → List Nat → List Nat
  | 0, _, _, a => a
  | stages + 1, m, t, a => inverseStages f tw stages (m / 2) (2 * t) (stageInPlace f tw (m / 2) t a)

/-- The forward transform of rule R201 for degree `n = 2^k`, modulus `q`, Montgomery constant `km` and table `tw`. -/
def forwardNtt (c : Config) (q km : Nat) (tw : Nat → Nat) (k n : Nat) (a : List Nat) : List Nat :=
  forwardStages (butterflyCT c q km) tw k 1 n a

/-- The inverse transform of rule R203: the stages, then the `N⁻¹` pass. -/
def inverseNtt (c : Config) (q km ninv : Nat) (tw : Nat → Nat) (k n : Nat) (a : List Nat) : List Nat :=
  (inverseStages (butterflyGS c q km) tw k n 1 a).map (fun x => redc c q km (x * ninv))

/-! ### The commands -/

/-- The forward transform of `POLY[_][slot]` with the slot's own modulus, constant and table (rule R208). -/
def State.forwardSlot (s : State) (slot : Nat) (a : List Nat) : List Nat :=
  forwardNtt s.cfg (s.slot slot).cq.toNat (s.slot slot).mc.toNat (fun i => (s.twfWord slot i).toNat)
    s.clogn.toNat s.cn.toNat a

/-- The inverse transform of `POLY[_][slot]` with the slot's own modulus, constants and table (rule R208). -/
def State.inverseSlot (s : State) (slot : Nat) (a : List Nat) : List Nat :=
  inverseNtt s.cfg (s.slot slot).cq.toNat (s.slot slot).mc.toNat (s.slot slot).ninv.toNat
    (fun i => (s.twiWord slot i).toNat) s.clogn.toNat s.cn.toNat a

/-- The array a transform command reads for one slot (rules R201, R203). -/
def State.coeffs (s : State) (buf : BitVec 4) (slot : Nat) : List Nat := s.polyArray buf.toNat slot s.cn.toNat

/-- Every coefficient of the slot's array is below its modulus (rule R206). -/
def State.coeffsOk (s : State) (buf : BitVec 4) (slot : Nat) : Bool :=
  (s.coeffs buf slot).all (fun x => decide (x < (s.slot slot).cq.toNat))

/-- A slot whose input is out of range takes a free value in every word (rule R206). -/
def State.scrambleSlot (buf : BitVec 4) (slot : Nat) (s : State) : State :=
  (s.setPolyArray buf.toNat slot ((List.range s.cn.toNat).map s.anyW)).spend s.cn.toNat

/-- One slot of a transform command: the transform when the input is in range, free values when it is not. -/
def State.transformSlot (tr : State → Nat → List Nat → List Nat) (buf : BitVec 4) (s : State) (slot : Nat) : State :=
  if s.coeffsOk buf slot then
    s.setPolyArray buf.toNat slot ((tr s slot (s.coeffs buf slot)).map (mkWord s.cfg))
  else s.scrambleSlot buf slot

/-- The checks of rule R200, in its order: the error a transform command raises, if any. -/
def State.transformError (s : State) (buf : BitVec 4) (all : Bool) (slot : BitVec 6) : Option ErrCode :=
  if !s.validated then some .notValidated
  else if buf.toNat ≥ s.cfg.nbuf then some .badBuffer
  else if !all && decide (slot.toNat ≥ s.cl.toNat) then some .badSlot
  else none

/-- A transform command (rule R200): the checks, then every selected slot in order, then the completion. -/
def State.transform (tr : State → Nat → List Nat → List Nat) (buf : BitVec 4) (all : Bool) (slot : BitVec 6)
    (s : State) : State :=
  match s.transformError buf all slot with
  | some code => s.raise code
  | none => ((s.selected all slot).foldl (State.transformSlot tr buf) s).complete

/-- `NTTF buf, slot` or `NTTF buf, all` (rules R200, R201). -/
def execNttf (buf : BitVec 4) (all : Bool) (slot : BitVec 6) (s : State) : Host.Outcome State Fault Refusal :=
  .next (s.transform State.forwardSlot buf all slot)

/-- `NTTI buf, slot` or `NTTI buf, all` (rules R200, R203). -/
def execNtti (buf : BitVec 4) (all : Bool) (slot : BitVec 6) (s : State) : Host.Outcome State Fault Refusal :=
  .next (s.transform State.inverseSlot buf all slot)

end Sys2Proof.Machine
end

