-- ==== Sys2Proof/Machine/Scalar.lean ====
section
/-! DEFINITION. The scalar kernel commands (40_scalar_kernel.md, rules R122 to R134). Each raises no error, writes the
registers its rule names, and completes with `ERRCODE = 0`; outside its contract those registers take free values. -/

namespace Sys2Proof.Machine

/-- `NOP` (rule R122): a completion and nothing else. -/
def execNop (s : State) : Host.Outcome State Fault Refusal :=
  .next s.complete

/-- `MFORM` (rule R123): `R0 <- (A · 2^W) mod Q` under `BarOK` and `A < Q`. -/
def execMform (s : State) : Host.Outcome State Fault Refusal :=
  .next (s.finishR0 (s.barOk && s.aBelowQ) (montForm s.cfg s.q.toNat s.a.toNat))

/-- `MTOS` (rule R124): `R0 <- REDC(A · 1)` under `MontOK` and `A < Q`. -/
def execMtos (s : State) : Host.Outcome State Fault Refusal :=
  .next (s.finishR0 (s.montOk && s.aBelowQ) (redc s.cfg s.q.toNat s.km.toNat (s.a.toNat * 1)))

/-- `MRED` (rule R125): `R0 <- REDC(A · B)` under `MontOK` and `A · B < Q · 2^W`. -/
def execMred (s : State) : Host.Outcome State Fault Refusal :=
  .next (s.finishR0 (s.montOk && s.productFits) (redc s.cfg s.q.toNat s.km.toNat (s.a.toNat * s.b.toNat)))

/-- `MRED.LAZY` (rule R126): `R0 <- REDC_lax(A · B)` under the contract of `MRED`. -/
def execMredLazy (s : State) : Host.Outcome State Fault Refusal :=
  .next (s.finishR0 (s.montOk && s.productFits) (redcLax s.cfg s.q.toNat s.km.toNat (s.a.toNat * s.b.toNat)))

/-- `BRED` (rule R127): `R0 <- (A · B) mod Q` under `BarOK`, for every `A` and `B`. -/
def execBred (s : State) : Host.Outcome State Fault Refusal :=
  .next (s.finishR0 s.barOk (s.a.toNat * s.b.toNat % s.q.toNat))

/-- `CRED` (rule R128): one compare and subtract, under `ModOK` and `A < 2·Q`. -/
def execCred (s : State) : Host.Outcome State Fault Refusal :=
  .next (s.finishR0 (s.modOk && decide (s.a.toNat < 2 * s.q.toNat))
    (if s.a.toNat ≥ s.q.toNat then s.a.toNat - s.q.toNat else s.a.toNat))

/-- `MADD` (rule R129): `R0 <- (A + B) mod Q` under `ModOK`, `A < Q` and `B < Q`. -/
def execMadd (s : State) : Host.Outcome State Fault Refusal :=
  .next (s.finishR0 (s.modOk && s.aBelowQ && s.bBelowQ) (addMod s.q.toNat s.a.toNat s.b.toNat))

/-- `MSUB` (rule R130): `R0 <- (A − B) mod Q` under `ModOK`, `A < Q` and `B < Q`. -/
def execMsub (s : State) : Host.Outcome State Fault Refusal :=
  .next (s.finishR0 (s.modOk && s.aBelowQ && s.bBelowQ) (subMod s.q.toNat s.a.toNat s.b.toNat))

/-- `MODPOW` (rule R131): `R0 <- A^B mod Q` under `ModOK`, with `A^0 = 1`. -/
def execModpow (s : State) : Host.Outcome State Fault Refusal :=
  .next (s.finishR0 s.modOk (modPow s.a.toNat s.b.toNat s.q.toNat))

/-- `FRED` (rule R132): `R0 <- A mod 12289`; no contract, and `Q` is not read. -/
def execFred (s : State) : Host.Outcome State Fault Refusal :=
  .next (s.finishR0 true (s.a.toNat % 12289))

/-- `MCONST` (rule R133): `R0 <- (−Q⁻¹) mod 2^W` for odd `Q`. -/
def execMconst (s : State) : Host.Outcome State Fault Refusal :=
  .next (s.finishR0 (s.q.toNat % 2 == 1) (montConst s.cfg s.q.toNat))

/-- `BCONST` (rule R134): `R1:R0 <- ⌊2^(2W) / Q⌋` for `Q ≥ 2`. -/
def execBconst (s : State) : Host.Outcome State Fault Refusal :=
  .next (s.finishR0R1 (decide (2 ≤ s.q.toNat))
    (barrettConst s.cfg s.q.toNat % s.cfg.R, barrettConst s.cfg s.q.toNat / s.cfg.R))

end Sys2Proof.Machine
end

