-- ==== Sys2Proof/Machine/Dispatch.lean ====
section
/-! DEFINITION. `exec`: one arm per command, each one call of its meaning. -/

namespace Sys2Proof.Machine

def exec (i : Instr) (s : State) : Host.Outcome State Fault Refusal :=
  match i with
  | .nop => Sys2Proof.Machine.execNop s
  | .mform => Sys2Proof.Machine.execMform s
  | .mtos => Sys2Proof.Machine.execMtos s
  | .mred => Sys2Proof.Machine.execMred s
  | .mredLazy => Sys2Proof.Machine.execMredLazy s
  | .bred => Sys2Proof.Machine.execBred s
  | .cred => Sys2Proof.Machine.execCred s
  | .madd => Sys2Proof.Machine.execMadd s
  | .msub => Sys2Proof.Machine.execMsub s
  | .modpow => Sys2Proof.Machine.execModpow s
  | .fred => Sys2Proof.Machine.execFred s
  | .mconst => Sys2Proof.Machine.execMconst s
  | .bconst => Sys2Proof.Machine.execBconst s
  | .bfct => Sys2Proof.Machine.execBfct s
  | .bfgs => Sys2Proof.Machine.execBfgs s
  | .ctxset => Sys2Proof.Machine.execCtxset s
  | .validate => Sys2Proof.Machine.execValidate s
  | .ctxld slot => Sys2Proof.Machine.execCtxld slot s
  | .nttf buf all slot => Sys2Proof.Machine.execNttf buf all slot s
  | .ntti buf all slot => Sys2Proof.Machine.execNtti buf all slot s

end Sys2Proof.Machine
end

