-- ==== Sys2Proof/WellFormed.lean ====
section
/-! DEFINITION. Which commands the encoding admits (rule R94). -/

namespace Sys2Proof

/-- The field constraint of a transform command: `ALL = 1` requires `SLOT = 0` (rule R94, last line of `illegal`). -/
def allSlotOk (all : Bool) (slot : BitVec 6) : Bool := !all || slot == 0

/-- A command the encoding admits. The field widths are in the constructors' types; the one remaining constraint
is that of `NTTF` and `NTTI` (rule R94). -/
def Instr.wellFormed : Instr → Bool
  | .nop => true
  | .mform => true
  | .mtos => true
  | .mred => true
  | .mredLazy => true
  | .bred => true
  | .cred => true
  | .madd => true
  | .msub => true
  | .modpow => true
  | .fred => true
  | .mconst => true
  | .bconst => true
  | .bfct => true
  | .bfgs => true
  | .ctxset => true
  | .validate => true
  | .ctxld _ => true
  | .nttf _ all slot => allSlotOk all slot
  | .ntti _ all slot => allSlotOk all slot

end Sys2Proof
end

