-- ==== Sys2Proof/Decode.lean ====
section
/-! DEFINITION. Decoding a command word (rules R91, R93, R94) and encoding a command (rule R96). -/

namespace Sys2Proof

/-- The nineteen assigned opcodes of rule R93. -/
inductive Opcode where
  | nop | mform | mtos | mred | bred | cred | madd | msub | modpow | fred | mconst | bconst
  | bfct | bfgs | ctxset | validate | ctxld | nttf | ntti
deriving DecidableEq, Repr

/-- The column OPC of rule R93. -/
def Opcode.code : Opcode → BitVec 8
  | .nop => 0x00
  | .mform => 0x10
  | .mtos => 0x11
  | .mred => 0x12
  | .bred => 0x13
  | .cred => 0x14
  | .madd => 0x15
  | .msub => 0x16
  | .modpow => 0x17
  | .fred => 0x18
  | .mconst => 0x19
  | .bconst => 0x1A
  | .bfct => 0x20
  | .bfgs => 0x21
  | .ctxset => 0x30
  | .validate => 0x31
  | .ctxld => 0x32
  | .nttf => 0x40
  | .ntti => 0x41

/-- Every assigned opcode, in the order of rule R93. -/
def Opcode.assigned : List Opcode :=
  [.nop, .mform, .mtos, .mred, .bred, .cred, .madd, .msub, .modpow, .fred, .mconst, .bconst,
   .bfct, .bfgs, .ctxset, .validate, .ctxld, .nttf, .ntti]

/-- The opcode a byte stands for; none for an unassigned one (rule R93). -/
def Opcode.ofCode (b : BitVec 8) : Option Opcode := Opcode.assigned.find? (fun o => o.code == b)

/-- The opcode may set `LZ` (rule R91). -/
def Opcode.usesLz (o : Opcode) : Bool := o == .mred

/-- The opcode may set `ALL` (rule R91). -/
def Opcode.usesAll (o : Opcode) : Bool := o == .nttf || o == .ntti

/-- The opcode may set `SLOT` (rule R91). -/
def Opcode.usesSlot (o : Opcode) : Bool := o == .ctxld || o == .nttf || o == .ntti

/-- The opcode may set `BUF` (rule R91). -/
def Opcode.usesBuf (o : Opcode) : Bool := o == .nttf || o == .ntti

/-- Why a word is illegal: one name per line of `illegal` in rule R94. All of them complete with `IllegalCommand`. -/
inductive IllegalWord where
  /-- A bit of `[W-1:20]` is set. -/
  | reservedBits
  /-- The opcode is unassigned. -/
  | unassignedOpcode
  /-- `LZ = 1` with an opcode other than `MRED`'s. -/
  | strayLz
  /-- `ALL = 1` with an opcode other than `NTTF`'s and `NTTI`'s. -/
  | strayAll
  /-- `SLOT ≠ 0` with an opcode that has no `SLOT`. -/
  | straySlot
  /-- `BUF ≠ 0` with an opcode that has no `BUF`. -/
  | strayBuf
  /-- `ALL = 1` with `SLOT ≠ 0`. -/
  | allWithSlot
deriving DecidableEq, Repr

/-- The command an opcode and its fields stand for (rule R93). -/
def Opcode.instr (o : Opcode) (lz all : Bool) (slot : BitVec 6) (buf : BitVec 4) : Instr :=
  match o with
  | .nop => .nop
  | .mform => .mform
  | .mtos => .mtos
  | .mred => if lz then .mredLazy else .mred
  | .bred => .bred
  | .cred => .cred
  | .madd => .madd
  | .msub => .msub
  | .modpow => .modpow
  | .fred => .fred
  | .mconst => .mconst
  | .bconst => .bconst
  | .bfct => .bfct
  | .bfgs => .bfgs
  | .ctxset => .ctxset
  | .validate => .validate
  | .ctxld => .ctxld slot
  | .nttf => .nttf buf all slot
  | .ntti => .ntti buf all slot

/-- `OPC`, bits 7:0 (rule R91). -/
def opcField (v : Word) : BitVec 8 := v.extractLsb' 0 8

/-- `LZ`, bit 8 (rule R91). -/
def lzField (v : Word) : Bool := v.getLsbD 8

/-- `ALL`, bit 9 (rule R91). -/
def allField (v : Word) : Bool := v.getLsbD 9

/-- `SLOT`, bits 15:10 (rule R91). -/
def slotField (v : Word) : BitVec 6 := v.extractLsb' 10 6

/-- `BUF`, bits 19:16 (rule R91). -/
def bufField (v : Word) : BitVec 4 := v.extractLsb' 16 4

/-- The reserved bits, from bit 20 up (rule R91). At `W = 32` bits 63:32 of the container are 0, so the same test
serves both widths. -/
def reservedField (v : Word) : BitVec 44 := v.extractLsb' 20 44

/-- The legality test of rule R94 on the fields of an assigned opcode. -/
def checkFields (o : Opcode) (lz all : Bool) (slot : BitVec 6) (buf : BitVec 4) : Except IllegalWord Instr :=
  if lz && !o.usesLz then .error .strayLz
  else if all && !o.usesAll then .error .strayAll
  else if slot != 0 && !o.usesSlot then .error .straySlot
  else if buf != 0 && !o.usesBuf then .error .strayBuf
  else if all && slot != 0 then .error .allWithSlot
  else .ok (o.instr lz all slot buf)

/-- Rule R94: the command a word stands for, or why it is illegal. Total. -/
def decode (v : Word) : Except IllegalWord Instr :=
  if reservedField v != 0 then .error .reservedBits
  else
    match Opcode.ofCode (opcField v) with
    | none => .error .unassignedOpcode
    | some o => checkFields o (lzField v) (allField v) (slotField v) (bufField v)

/-- Rule R96: `opc | (lz << 8) | (all << 9) | (slot << 10) | (buf << 16)`. -/
def encodeFields (opc : BitVec 8) (lz all : Bool) (slot : BitVec 6) (buf : BitVec 4) : Word :=
  opc.setWidth 64 ||| ((BitVec.ofBool lz).setWidth 64 <<< 8) ||| ((BitVec.ofBool all).setWidth 64 <<< 9)
    ||| (slot.setWidth 64 <<< 10) ||| (buf.setWidth 64 <<< 16)

/-- The word of a command with no operand field (rules R93, R96). -/
def encodePlain (o : Opcode) : Word := encodeFields o.code false false 0 0

/-- The word of a command (rules R93, R96, R97). -/
def encode : Instr → Word
  | .nop => encodePlain .nop
  | .mform => encodePlain .mform
  | .mtos => encodePlain .mtos
  | .mred => encodePlain .mred
  | .mredLazy => encodeFields Opcode.mred.code true false 0 0
  | .bred => encodePlain .bred
  | .cred => encodePlain .cred
  | .madd => encodePlain .madd
  | .msub => encodePlain .msub
  | .modpow => encodePlain .modpow
  | .fred => encodePlain .fred
  | .mconst => encodePlain .mconst
  | .bconst => encodePlain .bconst
  | .bfct => encodePlain .bfct
  | .bfgs => encodePlain .bfgs
  | .ctxset => encodePlain .ctxset
  | .validate => encodePlain .validate
  | .ctxld slot => encodeFields Opcode.ctxld.code false false slot 0
  | .nttf buf all slot => encodeFields Opcode.nttf.code false all slot buf
  | .ntti buf all slot => encodeFields Opcode.ntti.code false all slot buf

/-- The instruction the decoder reads from an opcode-table row's bits `w`, of which the table gives `nbits`; every
bit above is 0. A command word is one word of the host port (rule R90), so there is no byte order to lay out. -/
def decodeTableWord (nbits w : Nat) : Option Instr :=
  match decode (BitVec.ofNat 64 (w % 2 ^ nbits)) with
  | .ok i => some i
  | .error _ => none

end Sys2Proof
end

