-- ==== Sys2Proof/Machine/Flags.lean ====
section
/-! DEFINITION. The status and control words as the host reads and writes them (rules R29 to R31, R227), and the
interrupt output (rules R37, R226). No arithmetic command has a flag (rule R35). -/

namespace Sys2Proof.Machine

/-- The numbers of rule R221. -/
def ErrCode.code : ErrCode → Nat
  | .ok => 0x00
  | .invalidDegree => 0x01
  | .nonNttCompatibleModulus => 0x02
  | .invalidBasisLength => 0x03
  | .notValidated => 0x04
  | .notConfigured => 0x05
  | .illegalCommand => 0x06
  | .badSlot => 0x07
  | .badBuffer => 0x08
  | .sizeMismatch => 0x10
  | .entropyUnavailable => 0x11

/-- `STATUS.ERR`: `ERRCODE ≠ 0` (rule R31). -/
def State.err (s : State) : Bool := s.errcode.code != 0

/-- The word `STATUS` reads as (rule R31): `BUSY`, `DONE`, `ERR`, `HAZARD`, `ADDRERR`, `VALIDATED`, `CONFIGURED` in
bits 0 to 6, `ERRCODE` in bits 15:8, every other bit 0. -/
def State.statusWord (s : State) : Word :=
  BitVec.ofNat 64
    (s.busy.toNat + 2 * s.done.toNat + 4 * s.err.toNat + 8 * s.hazard.toNat + 16 * s.addrerr.toNat
      + 32 * s.validated.toNat + 64 * s.configured.toNat + 256 * s.errcode.code)

/-- The word `CTRL` reads as (rule R30): `IE` in bit 0, the rest 0. -/
def State.ctrlWord (s : State) : Word := BitVec.ofNat 64 s.ie.toNat

/-- The interrupt output `IRQ = STATUS.DONE ∧ CTRL.IE` (rules R37, R226). -/
def State.irq (s : State) : Bool := s.done && s.ie

/-- The constant `ID` (rule R29). -/
def idWord : Word := 0x4D525531

/-- The constant `CFG = W | (LMAX << 8) | (LOGNMAX << 16) | (NBUF << 24)` (rule R29). -/
def cfgWord (c : Config) : Word :=
  BitVec.ofNat 64 (c.W ||| (c.lmax <<< 8) ||| (c.lognmax <<< 16) ||| (c.nbuf <<< 24))

/-- A host write to `STATUS` (rules R31, R64, R227): clears each of `DONE`, `HAZARD`, `ADDRERR` whose bit of the
written word is 1. -/
def State.writeStatus (v : Word) (s : State) : State :=
  { s with
    done := s.done && !v.getLsbD 1
    hazard := s.hazard && !v.getLsbD 3
    addrerr := s.addrerr && !v.getLsbD 4 }

/-- A host write to `CTRL` (rules R30, R64): `IE <- v[0]`, the reserved bits ignored. -/
def State.writeCtrl (v : Word) (s : State) : State := { s with ie := v.getLsbD 0 }

end Sys2Proof.Machine
end

