-- ==== Sys2Proof/Machine/Port.lean ====
section
/-! DEFINITION. The host port: the address map (rule R62), host reads (rule R63), host writes (rule R64), accesses while
busy (rule R66), unmapped and read-only locations (rule R65), and the reset input (rules R250, R251). -/

namespace Sys2Proof.Machine

/-- The fields of a slot, by their offsets 0 to 9 (rule R26). -/
inductive SlotField where
  | cq | mask | bcl | bch | mc | hasmont | g | psi | psiinv | ninv
deriving DecidableEq, Repr

/-- The locations of the address map (rule R62). -/
inductive Loc where
  | id | cfg | ctrl | status | cmd | errslot | errval
  | a | b | c | q | km | kbl | kbh | r0 | r1
  | nreq | lreq | clogn | cn | cl
  | qin (s : Nat)
  | slot (s : Nat) (f : SlotField)
  | twf (s i : Nat)
  | twi (s i : Nat)
  | poly (b s i : Nat)
deriving DecidableEq, Repr

/-- The offset of a slot field (rule R26). -/
def SlotField.offset : SlotField → Nat
  | .cq => 0
  | .mask => 1
  | .bcl => 2
  | .bch => 3
  | .mc => 4
  | .hasmont => 5
  | .g => 6
  | .psi => 7
  | .psiinv => 8
  | .ninv => 9

/-- The slot field at an offset; none for the unmapped offsets 10 to 15 (rule R26). -/
def SlotField.ofOffset : Nat → Option SlotField
  | 0 => some .cq
  | 1 => some .mask
  | 2 => some .bcl
  | 3 => some .bch
  | 4 => some .mc
  | 5 => some .hasmont
  | 6 => some .g
  | 7 => some .psi
  | 8 => some .psiinv
  | 9 => some .ninv
  | _ => none

/-- The address of a location: the first column of rule R62. -/
def Loc.addr (k : Config) : Loc → Nat
  | .id => 0x00
  | .cfg => 0x01
  | .ctrl => 0x02
  | .status => 0x03
  | .cmd => 0x04
  | .errslot => 0x05
  | .errval => 0x06
  | .a => 0x10
  | .b => 0x11
  | .c => 0x12
  | .q => 0x13
  | .km => 0x14
  | .kbl => 0x15
  | .kbh => 0x16
  | .r0 => 0x18
  | .r1 => 0x19
  | .nreq => 0x20
  | .lreq => 0x21
  | .clogn => 0x22
  | .cn => 0x23
  | .cl => 0x24
  | .qin s => 0x100 + s
  | .slot s f => 0x1000 + 16 * s + f.offset
  | .twf s i => twfAddr k s i
  | .twi s i => twiAddr k s i
  | .poly n s i => polyAddr k n s i

/-- The location exists: the index bounds of rule R62. -/
def Loc.mapped (k : Config) : Loc → Bool
  | .qin s => decide (s < k.lmax)
  | .slot s _ => decide (s < k.lmax)
  | .twf s i => decide (s < k.lmax) && decide (i < k.nmax)
  | .twi s i => decide (s < k.lmax) && decide (i < k.nmax)
  | .poly n s i => decide (n < k.nbuf) && decide (s < k.lmax) && decide (i < k.nmax)
  | _ => true

/-- The host may write the location's word: the rows marked RW in rule R62. -/
def Loc.writable : Loc → Bool
  | .a => true
  | .b => true
  | .c => true
  | .q => true
  | .km => true
  | .kbl => true
  | .kbh => true
  | .nreq => true
  | .lreq => true
  | .qin _ => true
  | .poly _ _ _ => true
  | _ => false

/-- The fixed registers of rule R62, below address `0x100`. -/
def fixedLoc : Nat → Option Loc
  | 0x00 => some .id
  | 0x01 => some .cfg
  | 0x02 => some .ctrl
  | 0x03 => some .status
  | 0x04 => some .cmd
  | 0x05 => some .errslot
  | 0x06 => some .errval
  | 0x10 => some .a
  | 0x11 => some .b
  | 0x12 => some .c
  | 0x13 => some .q
  | 0x14 => some .km
  | 0x15 => some .kbl
  | 0x16 => some .kbh
  | 0x18 => some .r0
  | 0x19 => some .r1
  | 0x20 => some .nreq
  | 0x21 => some .lreq
  | 0x22 => some .clogn
  | 0x23 => some .cn
  | 0x24 => some .cl
  | _ => none

/-- Keep a location that exists. -/
def Loc.ifMapped (k : Config) (l : Loc) : Option Loc := if l.mapped k then some l else none

/-- The location an address names, if any (rule R62). The regions are told apart by their bases, the indices by
division: `NMAX` words a slot, `2^24` words a buffer. -/
def locOf (k : Config) (addr : Nat) : Option Loc :=
  if addr < 0x100 then fixedLoc addr
  else if addr < 0x1000 then Loc.ifMapped k (.qin (addr - 0x100))
  else if addr < 0x01000000 then
    (SlotField.ofOffset ((addr - 0x1000) % 16)).bind (fun f => Loc.ifMapped k (.slot ((addr - 0x1000) / 16) f))
  else if addr < 0x02000000 then
    Loc.ifMapped k (.twf ((addr - 0x01000000) / k.nmax) ((addr - 0x01000000) % k.nmax))
  else if addr < 0x03000000 then
    Loc.ifMapped k (.twi ((addr - 0x02000000) / k.nmax) ((addr - 0x02000000) % k.nmax))
  else if addr < 0x10000000 then none
  else
    Loc.ifMapped k (.poly ((addr - 0x10000000) / 2 ^ 24) ((addr - 0x10000000) % 2 ^ 24 / k.nmax)
      ((addr - 0x10000000) % 2 ^ 24 % k.nmax))

/-- A slot field as the host reads it, `HASMONT` zero-extended (rule R26). -/
def Slot.field (v : Slot) : SlotField → Word
  | .cq => v.cq
  | .mask => v.mask
  | .bcl => v.bcl
  | .bch => v.bch
  | .mc => v.mc
  | .hasmont => BitVec.ofNat 64 v.hasmont.toNat
  | .g => v.g
  | .psi => v.psi
  | .psiinv => v.psiinv
  | .ninv => v.ninv

/-- The word a location reads as (rules R29 to R33, R62): the ONE way the host sees the state. -/
def State.readLoc (s : State) : Loc → Word
  | .id => idWord
  | .cfg => cfgWord s.cfg
  | .ctrl => s.ctrlWord
  | .status => s.statusWord
  | .cmd => s.lastcmd
  | .errslot => s.errslot
  | .errval => s.errval
  | .a => s.a
  | .b => s.b
  | .c => s.c
  | .q => s.q
  | .km => s.km
  | .kbl => s.kbl
  | .kbh => s.kbh
  | .r0 => s.r0
  | .r1 => s.r1
  | .nreq => s.nreq
  | .lreq => s.lreq
  | .clogn => s.clogn
  | .cn => s.cn
  | .cl => s.cl
  | .qin i => s.qinAt i
  | .slot i f => (s.slot i).field f
  | .twf i j => s.twfWord i j
  | .twi i j => s.twiWord i j
  | .poly b i j => s.polyWord b i j

/-- Write the word of a writable location (rule R64, "the named word <- v"); every other location is left alone. -/
def State.writeLoc (s : State) (l : Loc) (v : Word) : State :=
  match l with
  | .a => { s with a := v }
  | .b => { s with b := v }
  | .c => { s with c := v }
  | .q => { s with q := v }
  | .km => { s with km := v }
  | .kbl => { s with kbl := v }
  | .kbh => { s with kbh := v }
  | .nreq => { s with nreq := v }
  | .lreq => { s with lreq := v }
  | .qin i => { s with qin := s.qin.set i v }
  | .poly b i j => { s with poly := s.poly.write (polyAddr s.cfg b i j) v }
  | _ => s

/-- `STATUS.ADDRERR <- 1` (rule R65). -/
def State.setAddrErr (s : State) : State := { s with addrerr := true }

/-- `STATUS.HAZARD <- 1` (rule R66). -/
def State.setHazard (s : State) : State := { s with hazard := true }

/-- The data a host read returns (rule R63). -/
def State.answer (w : Word) (s : State) : State := { s with rdata := w }

/-- Acceptance of a command word (rules R36, R64): `LASTCMD <- v`, `BUSY <- 1`. `DONE` is not cleared (rule R227). -/
def State.accept (v : Word) (s : State) : State := { s with lastcmd := v, busy := true }

/-- The addresses that may be read while busy: `ID`, `CFG`, `CTRL`, `STATUS`, `CMD` (rule R66). -/
def readableWhileBusy (addr : Nat) : Bool := decide (addr ≤ 0x04)

/-- `MemRead(addr, 1)` (rules R63, R65, R66). -/
def State.hostRead (addr : Nat) (s : State) : State :=
  if s.busy && !readableWhileBusy addr then (s.answer (s.anyW 0)).spend 1
  else
    match locOf s.cfg addr with
    | some l => s.answer (s.readLoc l)
    | none => (s.answer 0).setAddrErr

/-- `MemWrite(addr, 1, v)` of a word below `2^W` (rules R64 to R66), with `STATUS` at 3, `CTRL` at 2 and `CMD` at 4
(rule R62). -/
def State.hostWriteWord (addr : Nat) (v : Word) (s : State) : State :=
  if addr = 0x03 then s.writeStatus v
  else if addr = 0x02 then s.writeCtrl v
  else if s.busy then s.setHazard
  else if addr = 0x04 then s.accept v
  else
    match locOf s.cfg addr with
    | some l => if l.writable then s.writeLoc l v else s.setAddrErr
    | none => s.setAddrErr

/-- A host write: a transfer carries `W` bits (rule R3), so the word's bits above `W` are not carried (log 11). -/
def State.hostWrite (addr : Nat) (v : Word) (s : State) : State :=
  s.hostWriteWord addr (mkWord s.cfg v.toNat)

/-- The reset input (rules R250, R251): every register takes its reset value, a running command is aborted, and every
RAM word takes any value (log 9). The parameters, the free values drawn so far and what reaches the unit later stay. -/
def State.assertReset (s : State) : State :=
  { State.resetWith s.cfg with draws := s.draws, epoch := s.epoch + 1, events := s.events }

/-- What reaches the unit next is `es`. -/
def State.setEvents (es : List PortEvent) (s : State) : State := { s with events := es }

end Sys2Proof.Machine
end

