-- ==== Sys2Proof/Machine/Engine.lean ====
section
/-! DEFINITION. The unit between acceptance and completion (rules R36, R94, R220): what an illegal word does, and the
in-flight command that a step finds. -/

namespace Sys2Proof.Machine

/-- The completion of an illegal word (rules R94, R95): `IllegalCommand`, and nothing else changes. -/
def State.illegal (s : State) : State := s.raise .illegalCommand

/-- The command in flight, as decoded (rules R36, R94). -/
def State.inFlight (s : State) : Except IllegalWord Instr := decode s.lastcmd

/-- A command word is in flight and completes at the next step. -/
def State.submitted (v : Word) (s : State) : State :=
  { s with lastcmd := v, busy := true, events := .unit :: s.events }

end Sys2Proof.Machine
end

