-- ==== Sys2Proof/Machine/Step.lean ====
section
/-! DEFINITION. One step of the machine: the next thing that happens at the unit. -/

namespace Sys2Proof.Machine

/-- The unit's turn: it completes the command in flight, legal (rule R93) or illegal (rules R94, R95); with none in
flight it stays idle (rule R236). -/
def unitStep (s : State) : Host.Outcome State Fault Refusal :=
  if s.busy then
    match s.inFlight with
    | .ok i => exec i s
    | .error _ => .next s.illegal
  else .next s

/-- One step: the next event happens (rule R72: one at a time, in order). With no event waiting it is the unit's turn,
so that every accepted command completes (rule R259, weak fairness). -/
def step (s : State) : Host.Outcome State Fault Refusal :=
  match s.events with
  | [] => unitStep s
  | .unit :: es => unitStep (s.setEvents es)
  | .read addr :: es => .next ((s.setEvents es).hostRead addr.toNat)
  | .write addr v :: es => .next ((s.setEvents es).hostWrite addr.toNat v)
  | .reset :: es => .next (s.setEvents es).assertReset

/-- `s` with the command word `w` (an opcode-table row's bits, `nbits` of them) accepted and about to complete, so that
the very next step runs it. It stands for the host's write to `CMD` (rule R64); a program is the sequence of host
accesses (rules R34, R75), loaded from outside the machine (log 8). -/
def State.withFetchWord (s : State) (nbits w : Nat) : State := s.submitted (BitVec.ofNat 64 (w % 2 ^ nbits))

end Sys2Proof.Machine
end

