-- ==== Sys2Proof/Safety.lean ====
section
/-! DEFINITION. What counts as a sound state of the unit, in the words claims use: the invariants of the registers, the
RAMs and the context (rules R8, R20 to R28, R171, R181), and the vocabulary of rules R11 and R94 on naturals. -/

namespace Sys2Proof.Machine

/-! ### Words and RAMs -/

/-- The word is a `W`-bit value (rule R8). -/
abbrev fits (k : Config) (w : Word) : Prop := w.toNat < k.R

/-- The single-word registers, with the model's `rdata`. -/
def State.registers (s : State) : List Word :=
  [s.a, s.b, s.c, s.q, s.km, s.kbl, s.kbh, s.r0, s.r1, s.nreq, s.lreq, s.cn, s.clogn, s.cl,
    s.lastcmd, s.errslot, s.errval, s.rdata]

/-- The words of a slot. -/
def Slot.words (v : Slot) : List Word := [v.cq, v.mask, v.bcl, v.bch, v.mc, v.g, v.psi, v.psiinv, v.ninv]

/-- A RAM in canonical form, its written words `W`-bit values at addresses of `[lo, hi)`. -/
structure Ram.Sound (k : Config) (lo hi : Nat) (r : Ram) : Prop where
  wf : r.wf = true
  inside : ∀ p ∈ r, lo ≤ p.1 ∧ p.1 < hi
  fit : ∀ p ∈ r, fits k p.2

/-! ### The state invariant -/

/-- The shape of a reachable state: widths (rule R8), geometry (rules R24, R26 to R28), the committed context
(rules R25, R170, R181), and the codes that are never raised (rule R221). -/
structure State.Inv (s : State) : Prop where
  /-- Every register holds a `W`-bit value. -/
  registers : ∀ w ∈ s.registers, fits s.cfg w
  /-- `QIN` has `LMAX` words, each of `W` bits. -/
  qinLength : s.qin.length = s.cfg.lmax
  qinFit : ∀ w ∈ s.qin, fits s.cfg w
  /-- The slot file has `LMAX` slots of `W`-bit words. -/
  slotsLength : s.slots.length = s.cfg.lmax
  slotsFit : ∀ v ∈ s.slots, ∀ w ∈ v.words, fits s.cfg w
  /-- The RAMs are in canonical form and inside their regions. -/
  twf : s.twf.Sound s.cfg (twfAddr s.cfg 0 0) (twfAddr s.cfg s.cfg.lmax 0)
  twi : s.twi.Sound s.cfg (twiAddr s.cfg 0 0) (twiAddr s.cfg s.cfg.lmax 0)
  poly : s.poly.Sound s.cfg (polyAddr s.cfg 0 0 0) (polyAddr s.cfg s.cfg.nbuf 0 0)
  /-- `VALIDATED = 1` implies `CONFIGURED = 1` (rule R25). -/
  validated : s.validated = true → s.configured = true
  /-- Before the first successful `CTXSET` the context is Empty. -/
  empty : s.configured = false → s.cn = 0 ∧ s.clogn = 0 ∧ s.cl = 0
  /-- A committed degree is a power of two of at most `NMAX`, and `CLOGN` is its logarithm. -/
  degree : s.configured = true → s.cn.toNat = 2 ^ s.clogn.toNat ∧ s.cn.toNat ≤ s.cfg.nmax
  /-- A committed basis has 1 to `LMAX` moduli. -/
  length : s.configured = true → 1 ≤ s.cl.toNat ∧ s.cl.toNat ≤ s.cfg.lmax
  /-- The slots outside the basis are zero. -/
  unused : ∀ i, s.cl.toNat ≤ i → s.slot i = Slot.zero
  /-- The reserved error codes are never raised. -/
  errcode : s.errcode ≠ .sizeMismatch ∧ s.errcode ≠ .entropyUnavailable

/-! ### The context -/

/-- The constants of a slot are those of rule R171 for its modulus (where the rule fixes them). -/
structure Slot.ConstantsOk (k : Config) (v : Slot) : Prop where
  mask : v.mask.toNat = 2 ^ bitlen v.cq.toNat - 1
  barrett : 2 ≤ v.cq.toNat →
    v.bcl.toNat = 2 ^ (2 * k.W) / v.cq.toNat % k.R ∧ v.bch.toNat = 2 ^ (2 * k.W) / v.cq.toNat / k.R
  hasmont : v.hasmont = true ↔ ¬ ∃ e, v.cq.toNat = 2 ^ e
  powerOfTwo : (∃ e, v.cq.toNat = 2 ^ e) → v.mc = 0
  montgomery : v.cq.toNat % 2 = 1 → v.cq.toNat ≠ 1 → (v.mc.toNat * v.cq.toNat + 1) % k.R = 0

/-- `isGen(g, q)` of rule R11 for a prime `q`. -/
def IsGen (g q : Nat) : Prop := Nat.Prime q ∧ orderOf (g : ZMod q) = q - 1

/-- The roots of a slot are those of rules R173 to R175 and R177 for its modulus and degree `n`. -/
structure Slot.RootsOk (k : Config) (n : Nat) (v : Slot) : Prop where
  prime : Nat.Prime v.cq.toNat
  congruent : v.cq.toNat % (2 * n) = 1
  small : v.cq.toNat < k.qmax
  generator : 2 ≤ v.g.toNat ∧ IsGen v.g.toNat v.cq.toNat ∧ ∀ h, 2 ≤ h → h < v.g.toNat → ¬ IsGen h v.cq.toNat
  psi : v.psi.toNat = v.g.toNat ^ ((v.cq.toNat - 1) / (2 * n)) % v.cq.toNat * k.R % v.cq.toNat
  psiinv : v.psiinv.toNat
    = v.g.toNat ^ (v.cq.toNat - 1 - (v.cq.toNat - 1) / (2 * n)) % v.cq.toNat * k.R % v.cq.toNat
  ninv : v.ninv.toNat < v.cq.toNat ∧ v.ninv.toNat * n % v.cq.toNat = k.R % v.cq.toNat

/-- The root `ψ` of rule R175, in standard form, from a slot's generator. -/
def Slot.root (n : Nat) (v : Slot) : Nat := v.g.toNat ^ ((v.cq.toNat - 1) / (2 * n)) % v.cq.toNat

/-- The inverse root `ψ⁻¹` of rule R175, in standard form. -/
def Slot.rootInv (n : Nat) (v : Slot) : Nat :=
  v.g.toNat ^ (v.cq.toNat - 1 - (v.cq.toNat - 1) / (2 * n)) % v.cq.toNat

/-- The tables of slot `i` are those of rule R176. -/
def State.TablesOk (s : State) (i : Nat) : Prop :=
  ∀ j, j < s.cn.toNat →
    (s.twfWord i j).toNat
        = (s.slot i).root s.cn.toNat ^ brv s.clogn.toNat j * s.cfg.R % (s.slot i).cq.toNat
      ∧ (s.twiWord i j).toNat
        = (s.slot i).rootInv s.cn.toNat ^ brv s.clogn.toNat j * s.cfg.R % (s.slot i).cq.toNat

/-- The context invariant: every slot of a committed basis holds the constants of rule R171, and every slot of a
validated basis the roots and tables of rules R173 to R177 (rule R181). -/
structure State.ContextOk (s : State) : Prop where
  constants : s.configured = true → ∀ i, i < s.cl.toNat → (s.slot i).ConstantsOk s.cfg
  roots : s.validated = true → ∀ i, i < s.cl.toNat → (s.slot i).RootsOk s.cfg s.cn.toNat
  tables : s.validated = true → ∀ i, i < s.cl.toNat → s.TablesOk i

/-! ### Contracts and the vocabulary of the rules -/

/-- `MontOK` of rule R120 for `Q = q` and `KM = km`, with `inv` spelt out by rule R11. -/
def MontContract (k : Config) (q km : Nat) : Prop :=
  q % 2 = 1 ∧ 3 ≤ q ∧ q < k.qmax ∧ ∃ u, u < k.R ∧ q * u % k.R = 1 ∧ km = (k.R - u) % k.R

/-- `ModOK` of rule R120. -/
def ModContract (k : Config) (q : Nat) : Prop := 2 ≤ q ∧ q < k.qmax

/-- `BarOK` of rule R120. -/
def BarContract (k : Config) (q kbl kbh : Nat) : Prop :=
  ModContract k q ∧ kbh * 2 ^ k.W + kbl = 2 ^ (2 * k.W) / q

/-- `u = inv_q(2^W)` (rule R11): the inverse of the radix that a Montgomery reduction multiplies by. -/
def RadixInverse (k : Config) (q u : Nat) : Prop := u < q ∧ 2 ^ k.W * u % q = 1

/-- The assigned opcodes of rule R93, as numbers. -/
def assignedOpcodes : List Nat :=
  [0x00, 0x10, 0x11, 0x12, 0x13, 0x14, 0x15, 0x16, 0x17, 0x18, 0x19, 0x1A, 0x20, 0x21, 0x30, 0x31, 0x32, 0x40, 0x41]

/-- `illegal` of rule R94 on a word as a natural, bit fields by division (rule R9). -/
def IllegalWordR94 (v : Nat) : Prop :=
  v / 2 ^ 20 ≠ 0
    ∨ v % 2 ^ 8 ∉ assignedOpcodes
    ∨ (v / 2 ^ 8 % 2 = 1 ∧ v % 2 ^ 8 ≠ 0x12)
    ∨ (v / 2 ^ 9 % 2 = 1 ∧ v % 2 ^ 8 ∉ [0x40, 0x41])
    ∨ (v / 2 ^ 10 % 2 ^ 6 ≠ 0 ∧ v % 2 ^ 8 ∉ [0x32, 0x40, 0x41])
    ∨ (v / 2 ^ 16 % 2 ^ 4 ≠ 0 ∧ v % 2 ^ 8 ∉ [0x40, 0x41])
    ∨ (v / 2 ^ 9 % 2 = 1 ∧ v / 2 ^ 10 % 2 ^ 6 ≠ 0)

/-- The errors a command may raise (rule R222); `IllegalCommand` is raised by words that are no command. -/
def errorsOf : Instr → List ErrCode
  | .nop => []
  | .mform => []
  | .mtos => []
  | .mred => []
  | .mredLazy => []
  | .bred => []
  | .cred => []
  | .madd => []
  | .msub => []
  | .modpow => []
  | .fred => []
  | .mconst => []
  | .bconst => []
  | .bfct => []
  | .bfgs => []
  | .ctxset => [.invalidDegree, .invalidBasisLength]
  | .validate => [.notConfigured, .nonNttCompatibleModulus]
  | .ctxld _ => [.badSlot]
  | .nttf _ all _ => if all then [.notValidated, .badBuffer] else [.notValidated, .badBuffer, .badSlot]
  | .ntti _ all _ => if all then [.notValidated, .badBuffer] else [.notValidated, .badBuffer, .badSlot]

/-- `s` after a command that completed with `code` and changed nothing else (rule R220), spelt out field by field. -/
def State.finished (code : ErrCode) (s : State) : State := { s with errcode := code, busy := false, done := true }

/-- The command completes with `ERRCODE = 0`, the other fields being those of `t`. -/
def RunsTo (i : Instr) (s t : State) : Prop := exec i s = .next (t.finished .ok)

/-- The command raises `e` and changes nothing else (rule R220). -/
def Raises (i : Instr) (s : State) (e : ErrCode) : Prop := exec i s = .next (s.finished e)

/-- The command completes with `ERRCODE = 0`, `R0` taking some `W`-bit value (`any_W()`, rule R10) and nothing else
of the spec's state changing. -/
def DrawsR0 (i : Instr) (s : State) : Prop :=
  ∃ w n, fits s.cfg w ∧ RunsTo i s { s with r0 := w, draws := n }

/-- The same for `R0` and `R1`. -/
def DrawsR0R1 (i : Instr) (s : State) : Prop :=
  ∃ w x n, fits s.cfg w ∧ fits s.cfg x ∧ RunsTo i s { s with r0 := w, r1 := x, draws := n }

/-- The test of rule R173 on a modulus for degree `n`, with rule R11's `isPrime`. -/
def GoodModulus (k : Config) (n q : Nat) : Prop := Nat.Prime q ∧ q % (2 * n) = 1 ∧ q < k.qmax

/-- It is the unit's turn: its completion comes next, or nothing is waiting. -/
def State.UnitTurn (s : State) : Prop := s.events = [] ∨ ∃ es, s.events = .unit :: es

/-- The next event is the reset input. -/
def State.ResetNext (s : State) : Prop := ∃ es, s.events = .reset :: es

/-- The unit is about to execute the command `i`. -/
def State.Runs (s : State) (i : Instr) : Prop := s.UnitTurn ∧ s.busy = true ∧ decode s.lastcmd = .ok i

/-- A word of one of the three RAMs. -/
def Loc.isRam : Loc → Bool
  | .twf _ _ => true
  | .twi _ _ => true
  | .poly _ _ _ => true
  | _ => false

/-- Every coefficient of `POLY[buf][i][0..CN-1]` is below the slot's modulus (rule R206). -/
def State.CoeffsBelow (s : State) (buf i : Nat) : Prop :=
  ∀ j, j < s.cn.toNat → (s.polyWord buf i j).toNat < (s.slot i).cq.toNat

/-- The checks of rule R200 pass. -/
def State.TransformReady (s : State) (buf : BitVec 4) (all : Bool) (slot : BitVec 6) : Prop :=
  s.validated = true ∧ buf.toNat < s.cfg.nbuf ∧ (all = false → slot.toNat < s.cl.toNat)

end Sys2Proof.Machine
end

