-- ==== Sys2Proof/Certificates/Slice0/Obligations.lean ====
section
/-! DEFINITION. The statements for the provers. Each formalises rules of spec/; its docstring names them. -/

open Sys2Proof Sys2Proof.Machine

/-! ### Encoding (30_encoding.md) -/

/-- Decoding the word of a well-formed command gives the command back (rules R91, R94, R96). -/
def Obligations.DecodeOfEncode : Prop :=
  ∀ i : Instr, i.wellFormed = true → decode (encode i) = .ok i

/-- A word the decoder accepts is the word of the command it reads, so no bit of it is dropped (rules R91, R94, R96). -/
def Obligations.EncodeOfDecode : Prop :=
  ∀ (v : Word) (i : Instr), decode v = .ok i → encode i = v ∧ i.wellFormed = true

/-- Rule R94: exactly the words its test calls illegal complete with `IllegalCommand` and change nothing else; every
other word is that of a command, and the unit executes that command. On the unit's turn, the event of the completion
(where one is listed) is taken off the list. -/
def Obligations.IllegalWordsComplete : Prop :=
  ∀ s : State, s.busy = true → s.UnitTurn →
    (IllegalWordR94 s.lastcmd.toNat →
      step s = .next (State.finished .illegalCommand { s with events := s.events.tail }))
    ∧ (¬ IllegalWordR94 s.lastcmd.toNat →
        ∃ i : Instr, i.wellFormed = true ∧ encode i = s.lastcmd
          ∧ step s = exec i { s with events := s.events.tail })

/-- The example words of rule R96, and words of each family of rule R93. -/
def Obligations.KnownWordsDecode : Prop :=
  decode 0x00000000 = .ok .nop
    ∧ decode 0x00000012 = .ok .mred
    ∧ decode 0x00000112 = .ok .mredLazy
    ∧ decode 0x00000021 = .ok .bfgs
    ∧ decode 0x00000031 = .ok .validate
    ∧ decode 0x00000C32 = .ok (.ctxld 3)
    ∧ decode 0x00000240 = .ok (.nttf 0 true 0)
    ∧ decode 0x00010240 = .ok (.nttf 1 true 0)
    ∧ decode 0x00021441 = .ok (.ntti 2 false 5)

/-! ### The step -/

/-- A step on the unit's turn runs the command in flight: `exec` of the decoded command, the event of the completion
taken off the list and nothing else around it (rules R36, R93, R94). -/
def Obligations.StepRunsDecoded : Prop :=
  ∀ (s : State) (i : Instr), s.busy = true → decode s.lastcmd = .ok i →
    (s.events = [] → step s = exec i s)
    ∧ ∀ es, s.events = .unit :: es → step s = exec i { s with events := es }

/-- A command written to `CMD` while the unit is idle is accepted by one step (`LASTCMD`, `BUSY`) and executed by the
next (rules R64, R96). -/
def Obligations.SubmittedCommandRuns : Prop :=
  ∀ (s : State) (i : Instr) (es : List PortEvent), i.wellFormed = true → s.busy = false →
    s.events = .write 0x00000004 (encode i) :: .unit :: es →
    ∃ t, step s = .next t
      ∧ t = { s with lastcmd := encode i, busy := true, events := .unit :: es }
      ∧ step t = exec i { s with lastcmd := encode i, busy := true, events := es }

/-- An idle unit with nothing waiting stays as it is (rules R236, R250: it waits for the host). -/
def Obligations.IdleUnitWaits : Prop :=
  ∀ s : State, s.busy = false → s.UnitTurn → step s = .next { s with events := s.events.tail }

/-! ### The host port (20_memory.md) -/

/-- The address map of rule R62: every location that exists is found at its address, an address names at most the one
location whose address it is, and every address fits in 32 bits; so the regions do not overlap. -/
def Obligations.AddressMapRoundTrip : Prop :=
  (∀ (k : Config) (l : Loc), l.mapped k = true → locOf k (l.addr k) = some l ∧ l.addr k < 2 ^ 32)
  ∧ ∀ (k : Config) (addr : Nat) (l : Loc), addr < 2 ^ 32 → locOf k addr = some l →
      l.addr k = addr ∧ l.mapped k = true

/-- A host read (rule R63): any value and no side effect while busy, but for the five control registers; else the word
the map names, with no side effect, or 0 and `ADDRERR` where nothing is mapped. -/
def Obligations.HostReadEffects : Prop :=
  ∀ (s : State) (addr : BitVec 32) (es : List PortEvent), s.events = .read addr :: es →
    (s.busy = true → 4 < addr.toNat →
      ∃ w n, fits s.cfg w ∧ step s = .next { s with rdata := w, draws := n, events := es })
    ∧ (s.busy = false ∨ addr.toNat ≤ 4 →
      (∀ l, locOf s.cfg addr.toNat = some l → step s = .next { s with rdata := s.readLoc l, events := es })
      ∧ (locOf s.cfg addr.toNat = none → step s = .next { s with rdata := 0, addrerr := true, events := es }))

/-- The word a host read returns at each address of rule R62, field by field (rules R21 to R33, R63), without the
model's own address map: the fixed registers, `QIN`, the slot fields by their offsets (rule R26), and the RAMs. -/
def Obligations.HostReadWords : Prop :=
  ∀ (s : State) (addr : BitVec 32) (es : List PortEvent), s.events = .read addr :: es →
    s.busy = false ∨ addr.toNat ≤ 4 →
    (∀ p ∈ [(0x00, (0x4D525531 : Word)),
          (0x01, BitVec.ofNat 64 (s.cfg.W + s.cfg.lmax * 2 ^ 8 + s.cfg.lognmax * 2 ^ 16 + s.cfg.nbuf * 2 ^ 24)),
          (0x02, if s.ie then 1 else 0), (0x03, s.statusWord), (0x04, s.lastcmd), (0x05, s.errslot), (0x06, s.errval),
          (0x10, s.a), (0x11, s.b), (0x12, s.c), (0x13, s.q), (0x14, s.km), (0x15, s.kbl), (0x16, s.kbh),
          (0x18, s.r0), (0x19, s.r1), (0x20, s.nreq), (0x21, s.lreq), (0x22, s.clogn), (0x23, s.cn), (0x24, s.cl)],
        addr.toNat = p.1 → step s = .next { s with rdata := p.2, events := es })
    ∧ (∀ i, i < s.cfg.lmax → addr.toNat = 0x100 + i →
        step s = .next { s with rdata := s.qin.getD i 0, events := es })
    ∧ (∀ i v, i < s.cfg.lmax → v = s.slots.getD i Slot.zero →
        ∀ p ∈ [(0, v.cq), (1, v.mask), (2, v.bcl), (3, v.bch), (4, v.mc), (5, if v.hasmont then 1 else 0), (6, v.g),
            (7, v.psi), (8, v.psiinv), (9, v.ninv)],
          addr.toNat = 0x1000 + 16 * i + p.1 → step s = .next { s with rdata := p.2, events := es })
    ∧ (∀ i j, i < s.cfg.lmax → j < s.cfg.nmax →
        (addr.toNat = 0x01000000 + i * s.cfg.nmax + j →
          step s = .next { s with rdata := s.ramWord s.twf addr.toNat, events := es })
        ∧ (addr.toNat = 0x02000000 + i * s.cfg.nmax + j →
          step s = .next { s with rdata := s.ramWord s.twi addr.toNat, events := es })
        ∧ ∀ b, b < s.cfg.nbuf → addr.toNat = 0x10000000 + b * 2 ^ 24 + i * s.cfg.nmax + j →
          step s = .next { s with rdata := s.ramWord s.poly addr.toNat, events := es })

/-- A host write of a `W`-bit word (rules R64, R65, R66), clause by clause of its pseudocode. -/
def Obligations.HostWriteEffects : Prop :=
  ∀ (s : State) (addr : BitVec 32) (v : Word) (es : List PortEvent), fits s.cfg v →
    s.events = .write addr v :: es →
    (addr.toNat = Loc.addr s.cfg .status →
      step s = .next { s with
        done := s.done && !v.getLsbD 1, hazard := s.hazard && !v.getLsbD 3, addrerr := s.addrerr && !v.getLsbD 4
        events := es })
    ∧ (addr.toNat = Loc.addr s.cfg .ctrl → step s = .next { s with ie := v.getLsbD 0, events := es })
    ∧ (addr.toNat ≠ Loc.addr s.cfg .status → addr.toNat ≠ Loc.addr s.cfg .ctrl →
      (s.busy = true → step s = .next { s with hazard := true, events := es })
      ∧ (s.busy = false →
        (addr.toNat = Loc.addr s.cfg .cmd → step s = .next { s with lastcmd := v, busy := true, events := es })
        ∧ (∀ l, locOf s.cfg addr.toNat = some l → l.writable = true →
            ∃ t, step s = .next t ∧ t = { s.writeLoc l v with events := es })
        ∧ (addr.toNat ≠ Loc.addr s.cfg .cmd →
            (∀ l, locOf s.cfg addr.toNat = some l → l.writable = false) →
            step s = .next { s with addrerr := true, events := es })))

/-- A host write to a location that exists and is writable is read back, and every other location reads as before
(rules R64, R69, R72). -/
def Obligations.WriteThenRead : Prop :=
  ∀ (s : State) (l : Loc) (v : Word) (es : List PortEvent), s.Inv → s.busy = false → fits s.cfg v →
    l.mapped s.cfg = true → l.writable = true →
    s.events = .write (BitVec.ofNat 32 (l.addr s.cfg)) v :: es →
    ∃ t, step s = .next t ∧ t.readLoc l = v
      ∧ ∀ l', l'.mapped s.cfg = true → l' ≠ l → t.readLoc l' = s.readLoc l'

/-- Rule R227: what clears `DONE`, `HAZARD` and `ADDRERR`; that `ERRCODE` changes only at a completion or reset,
`ERRSLOT` and `ERRVAL` only at a failing `VALIDATE` or reset; that accepting a command does not clear `DONE`; and that a
`NOP` clears `ERRCODE`. -/
def Obligations.StatusClearing : Prop :=
  ∀ s t : State, step s = .next t →
    (∀ v es, s.events = .write 0x00000003 v :: es →
      t.done = (s.done && !v.getLsbD 1) ∧ t.hazard = (s.hazard && !v.getLsbD 3)
        ∧ t.addrerr = (s.addrerr && !v.getLsbD 4) ∧ t.errcode = s.errcode)
    ∧ (t.errcode ≠ s.errcode → (s.UnitTurn ∧ s.busy = true) ∨ s.ResetNext)
    ∧ (t.errslot ≠ s.errslot ∨ t.errval ≠ s.errval →
        (s.Runs .validate ∧ t.errcode = .nonNttCompatibleModulus) ∨ s.ResetNext)
    ∧ (∀ v es, s.busy = false → s.events = .write 0x00000004 v :: es → t.busy = true ∧ t.done = s.done)
    ∧ (s.Runs .nop → t.errcode = .ok)

/-- The word `STATUS` reads as, bit by bit (rule R31), with the number of each error code (rule R221). -/
def Obligations.StatusWordBits : Prop :=
  ∀ s : State,
    s.statusWord.getLsbD 0 = s.busy ∧ s.statusWord.getLsbD 1 = s.done
    ∧ (s.statusWord.getLsbD 2 = true ↔ s.errcode ≠ .ok)
    ∧ s.statusWord.getLsbD 3 = s.hazard ∧ s.statusWord.getLsbD 4 = s.addrerr
    ∧ s.statusWord.getLsbD 5 = s.validated ∧ s.statusWord.getLsbD 6 = s.configured
    ∧ s.statusWord.getLsbD 7 = false
    ∧ (∀ p ∈ [(ErrCode.ok, 0x00), (.invalidDegree, 0x01), (.nonNttCompatibleModulus, 0x02),
          (.invalidBasisLength, 0x03), (.notValidated, 0x04), (.notConfigured, 0x05), (.illegalCommand, 0x06),
          (.badSlot, 0x07), (.badBuffer, 0x08), (.sizeMismatch, 0x10), (.entropyUnavailable, 0x11)],
        s.errcode = p.1 → (s.statusWord.extractLsb' 8 8).toNat = p.2)
    ∧ ∀ n, 16 ≤ n → s.statusWord.getLsbD n = false

/-- `ID` and `CFG` (rule R29): their constants, field by field, and that no step changes them. -/
def Obligations.IdentificationConstants : Prop :=
  (∀ s : State, s.readLoc .id = 0x4D525531
    ∧ (s.readLoc .cfg).toNat = s.cfg.W + s.cfg.lmax * 2 ^ 8 + s.cfg.lognmax * 2 ^ 16 + s.cfg.nbuf * 2 ^ 24)
  ∧ State.reset.readLoc .cfg = 0x04102040
  ∧ ∀ s t : State, step s = .next t → t.readLoc .id = s.readLoc .id ∧ t.readLoc .cfg = s.readLoc .cfg

/-! ### Completion and reset (60_exceptions.md, 70_reset_and_hazards.md) -/

/-- Every command completes (rules R220, R226, R237): `BUSY` falls, `DONE` rises, the interrupt output follows `IE`,
and no port error, no enable and no command word is touched. -/
def Obligations.EveryCommandCompletes : Prop :=
  ∀ (i : Instr) (s : State), ∃ t, exec i s = .next t
    ∧ t.busy = false ∧ t.done = true ∧ t.irq = s.ie
    ∧ t.hazard = s.hazard ∧ t.addrerr = s.addrerr ∧ t.ie = s.ie ∧ t.lastcmd = s.lastcmd

/-- A command raises only the errors rule R222 lists for it. -/
def Obligations.ErrorsPerCommand : Prop :=
  ∀ (i : Instr) (s t : State), exec i s = .next t → t.errcode = .ok ∨ t.errcode ∈ errorsOf i

/-- The reset input (rules R250, R251), at any moment and also while a command runs: every location but the RAM words
and the two constants reads 0, no command is in flight, `IRQ = 0` and the context is Empty. -/
def Obligations.ResetClearsRegisters : Prop :=
  ∀ s : State, s.ResetNext → ∃ t, step s = .next t
    ∧ (∀ l : Loc, l.mapped s.cfg = true → l.isRam = false → l ≠ .id → l ≠ .cfg → t.readLoc l = 0)
    ∧ t.readLoc .id = s.readLoc .id ∧ t.readLoc .cfg = s.readLoc .cfg
    ∧ t.busy = false ∧ t.irq = false ∧ t.configured = false ∧ t.validated = false

/-- Rule R252: what each command does right after reset. -/
def Obligations.PostResetCommands : Prop :=
  ∀ k : Config,
    (∀ buf all slot, Raises (.nttf buf all slot) (State.resetWith k) .notValidated
      ∧ Raises (.ntti buf all slot) (State.resetWith k) .notValidated)
    ∧ Raises .validate (State.resetWith k) .notConfigured
    ∧ (∀ slot, Raises (.ctxld slot) (State.resetWith k) .badSlot)
    ∧ (∀ i ∈ [Instr.mform, .mtos, .mred, .mredLazy, .bred, .cred, .madd, .msub, .modpow, .mconst],
        DrawsR0 i (State.resetWith k))
    ∧ (∀ i ∈ [Instr.bconst, .bfct, .bfgs], DrawsR0R1 i (State.resetWith k))

/-! ### The scalar kernel (40_scalar_kernel.md). Each statement gives the whole next state: the named registers, the
completion, and every other field as it was. -/

/-- `NOP` (rule R122). -/
def Obligations.NopOnlyCompletes : Prop :=
  encode .nop = 0x00000000
  ∧ ∀ s : State, RunsTo .nop s s ∧ (s.finished .ok).irq = s.ie ∧ (s.finished .ok).errcode = .ok

/-- `MFORM` (rule R123). -/
def Obligations.MformResult : Prop :=
  encode .mform = 0x00000010
  ∧ ∀ s : State,
    (BarContract s.cfg s.q.toNat s.kbl.toNat s.kbh.toNat ∧ s.a.toNat < s.q.toNat →
      RunsTo .mform s { s with r0 := BitVec.ofNat 64 (s.a.toNat * 2 ^ s.cfg.W % s.q.toNat) })
    ∧ (¬ (BarContract s.cfg s.q.toNat s.kbl.toNat s.kbh.toNat ∧ s.a.toNat < s.q.toNat) → DrawsR0 .mform s)

/-- `MTOS` (rule R124), with its law `MTOS(MFORM(a)) = a`. -/
def Obligations.MtosResult : Prop :=
  encode .mtos = 0x00000011
  ∧ ∀ s : State,
    (MontContract s.cfg s.q.toNat s.km.toNat ∧ s.a.toNat < s.q.toNat →
      ∃ u, RadixInverse s.cfg s.q.toNat u
        ∧ RunsTo .mtos s { s with r0 := BitVec.ofNat 64 (s.a.toNat * u % s.q.toNat) })
    ∧ (¬ (MontContract s.cfg s.q.toNat s.km.toNat ∧ s.a.toNat < s.q.toNat) → DrawsR0 .mtos s)
    ∧ (MontContract s.cfg s.q.toNat s.km.toNat → BarContract s.cfg s.q.toNat s.kbl.toNat s.kbh.toNat →
      s.a.toNat < s.q.toNat →
      ∃ t u, exec .mform s = .next t ∧ exec .mtos { t with a := t.r0 } = .next u ∧ u.r0 = s.a)

/-- `MRED` (rule R125). -/
def Obligations.MredResult : Prop :=
  encode .mred = 0x00000012
  ∧ ∀ s : State,
    (MontContract s.cfg s.q.toNat s.km.toNat ∧ s.a.toNat * s.b.toNat < s.q.toNat * 2 ^ s.cfg.W →
      ∃ u, RadixInverse s.cfg s.q.toNat u
        ∧ RunsTo .mred s { s with r0 := BitVec.ofNat 64 (s.a.toNat * s.b.toNat * u % s.q.toNat) })
    ∧ (¬ (MontContract s.cfg s.q.toNat s.km.toNat ∧ s.a.toNat * s.b.toNat < s.q.toNat * 2 ^ s.cfg.W) →
      DrawsR0 .mred s)

/-- `MRED.LAZY` (rule R126): the exact lax value, which is below `2Q` and congruent to the strict one. -/
def Obligations.MredLazyResult : Prop :=
  encode .mredLazy = 0x00000112
  ∧ ∀ s : State,
    (MontContract s.cfg s.q.toNat s.km.toNat ∧ s.a.toNat * s.b.toNat < s.q.toNat * 2 ^ s.cfg.W →
      ∃ u t, RadixInverse s.cfg s.q.toNat u
        ∧ t * 2 ^ s.cfg.W
          = s.a.toNat * s.b.toNat
            + s.a.toNat * s.b.toNat % 2 ^ s.cfg.W * s.km.toNat % 2 ^ s.cfg.W * s.q.toNat
        ∧ t < 2 * s.q.toNat
        ∧ t % s.q.toNat = s.a.toNat * s.b.toNat * u % s.q.toNat
        ∧ RunsTo .mredLazy s { s with r0 := BitVec.ofNat 64 t })
    ∧ (¬ (MontContract s.cfg s.q.toNat s.km.toNat ∧ s.a.toNat * s.b.toNat < s.q.toNat * 2 ^ s.cfg.W) →
      DrawsR0 .mredLazy s)

/-- `BRED` (rule R127), for every `A` and `B`. -/
def Obligations.BredResult : Prop :=
  encode .bred = 0x00000013
  ∧ ∀ s : State,
    (BarContract s.cfg s.q.toNat s.kbl.toNat s.kbh.toNat →
      RunsTo .bred s { s with r0 := BitVec.ofNat 64 (s.a.toNat * s.b.toNat % s.q.toNat) })
    ∧ (¬ BarContract s.cfg s.q.toNat s.kbl.toNat s.kbh.toNat → DrawsR0 .bred s)

/-- `CRED` (rule R128): the remainder, for `A < 2Q`. -/
def Obligations.CredResult : Prop :=
  encode .cred = 0x00000014
  ∧ ∀ s : State,
    (ModContract s.cfg s.q.toNat ∧ s.a.toNat < 2 * s.q.toNat →
      RunsTo .cred s { s with r0 := BitVec.ofNat 64 (s.a.toNat % s.q.toNat) })
    ∧ (¬ (ModContract s.cfg s.q.toNat ∧ s.a.toNat < 2 * s.q.toNat) → DrawsR0 .cred s)

/-- `MADD` and `MSUB` (rules R129, R130), the difference as an integer remainder. -/
def Obligations.MaddMsubResult : Prop :=
  encode .madd = 0x00000015 ∧ encode .msub = 0x00000016
  ∧ ∀ s : State,
    (ModContract s.cfg s.q.toNat ∧ s.a.toNat < s.q.toNat ∧ s.b.toNat < s.q.toNat →
      RunsTo .madd s { s with r0 := BitVec.ofNat 64 ((s.a.toNat + s.b.toNat) % s.q.toNat) }
      ∧ RunsTo .msub s
        { s with r0 := BitVec.ofNat 64 (((s.a.toNat : Int) - s.b.toNat) % s.q.toNat).toNat })
    ∧ (¬ (ModContract s.cfg s.q.toNat ∧ s.a.toNat < s.q.toNat ∧ s.b.toNat < s.q.toNat) →
      DrawsR0 .madd s ∧ DrawsR0 .msub s)

/-- `MODPOW` (rule R131), with `A^0 = 1`. -/
def Obligations.ModpowResult : Prop :=
  encode .modpow = 0x00000017
  ∧ ∀ s : State,
    (ModContract s.cfg s.q.toNat →
      RunsTo .modpow s { s with r0 := BitVec.ofNat 64 (s.a.toNat ^ s.b.toNat % s.q.toNat) })
    ∧ (¬ ModContract s.cfg s.q.toNat → DrawsR0 .modpow s)

/-- `FRED` (rule R132), whatever `Q` holds. -/
def Obligations.FredResult : Prop :=
  encode .fred = 0x00000018
  ∧ ∀ s : State, RunsTo .fred s { s with r0 := BitVec.ofNat 64 (s.a.toNat % 12289) }

/-- `MCONST` (rule R133): the `W`-bit `R0` with `R0 · Q ≡ −1 (mod 2^W)`. -/
def Obligations.MconstResult : Prop :=
  encode .mconst = 0x00000019
  ∧ ∀ s : State,
    (s.q.toNat % 2 = 1 →
      ∃ w, fits s.cfg w ∧ (w.toNat * s.q.toNat + 1) % 2 ^ s.cfg.W = 0 ∧ RunsTo .mconst s { s with r0 := w })
    ∧ (s.q.toNat % 2 = 0 → DrawsR0 .mconst s)

/-- `BCONST` (rule R134): `R1 · 2^W + R0 = ⌊2^(2W) / Q⌋`, both `W`-bit. -/
def Obligations.BconstResult : Prop :=
  encode .bconst = 0x0000001A
  ∧ ∀ s : State,
    (2 ≤ s.q.toNat →
      ∃ lo hi, fits s.cfg lo ∧ fits s.cfg hi
        ∧ hi.toNat * 2 ^ s.cfg.W + lo.toNat = 2 ^ (2 * s.cfg.W) / s.q.toNat
        ∧ RunsTo .bconst s { s with r0 := lo, r1 := hi })
    ∧ (s.q.toNat < 2 → DrawsR0R1 .bconst s)

/-- Rule R136: the Montgomery-domain law of `MRED`. -/
def Obligations.MontgomeryDomainLaw : Prop :=
  ∀ (s : State) (x y : Nat), MontContract s.cfg s.q.toNat s.km.toNat → x < s.q.toNat → y < s.q.toNat →
    (s.a.toNat = x * 2 ^ s.cfg.W % s.q.toNat → s.b.toNat = y * 2 ^ s.cfg.W % s.q.toNat →
      RunsTo .mred s { s with r0 := BitVec.ofNat 64 (x * y % s.q.toNat * 2 ^ s.cfg.W % s.q.toNat) })
    ∧ (s.a.toNat = x * 2 ^ s.cfg.W % s.q.toNat → s.b.toNat = y →
      RunsTo .mred s { s with r0 := BitVec.ofNat 64 (x * y % s.q.toNat) })
    ∧ (s.a.toNat = x → s.b.toNat = y →
      ∃ u, RadixInverse s.cfg s.q.toNat u
        ∧ RunsTo .mred s { s with r0 := BitVec.ofNat 64 (x * y * u % s.q.toNat) })

/-- Rule R137: lax operands are inside the contract, and every lax reduction is below `2Q`. -/
def Obligations.MontgomeryBound : Prop :=
  ∀ (k : Config) (q : Nat),
    (q < k.qmax → ∀ x y, x < 2 * q → y < 2 * q → x * y < 4 * q ^ 2 ∧ 4 * q ^ 2 < q * 2 ^ k.W)
    ∧ ∀ km T, T < q * 2 ^ k.W → redcLax k q km T < 2 * q

/-! ### The butterflies (41_butterfly.md) -/

/-- `BFCT` (rule R160). -/
def Obligations.BfctResult : Prop :=
  encode .bfct = 0x00000020
  ∧ ∀ s : State,
    (MontContract s.cfg s.q.toNat s.km.toNat ∧ s.a.toNat < s.q.toNat ∧ s.b.toNat < s.q.toNat
        ∧ s.c.toNat < s.q.toNat →
      ∃ u v, RadixInverse s.cfg s.q.toNat u ∧ v = s.b.toNat * s.c.toNat * u % s.q.toNat
        ∧ RunsTo .bfct s
          { s with
            r0 := BitVec.ofNat 64 ((s.a.toNat + v) % s.q.toNat)
            r1 := BitVec.ofNat 64 (((s.a.toNat : Int) - v) % s.q.toNat).toNat })
    ∧ (¬ (MontContract s.cfg s.q.toNat s.km.toNat ∧ s.a.toNat < s.q.toNat ∧ s.b.toNat < s.q.toNat
        ∧ s.c.toNat < s.q.toNat) → DrawsR0R1 .bfct s)

/-- `BFGS` (rule R161). -/
def Obligations.BfgsResult : Prop :=
  encode .bfgs = 0x00000021
  ∧ ∀ s : State,
    (MontContract s.cfg s.q.toNat s.km.toNat ∧ s.a.toNat < s.q.toNat ∧ s.b.toNat < s.q.toNat
        ∧ s.c.toNat < s.q.toNat →
      ∃ u d, RadixInverse s.cfg s.q.toNat u ∧ d = (((s.a.toNat : Int) - s.b.toNat) % s.q.toNat).toNat
        ∧ RunsTo .bfgs s
          { s with
            r0 := BitVec.ofNat 64 ((s.a.toNat + s.b.toNat) % s.q.toNat)
            r1 := BitVec.ofNat 64 (d * s.c.toNat * u % s.q.toNat) })
    ∧ (¬ (MontContract s.cfg s.q.toNat s.km.toNat ∧ s.a.toNat < s.q.toNat ∧ s.b.toNat < s.q.toNat
        ∧ s.c.toNat < s.q.toNat) → DrawsR0R1 .bfgs s)

/-- Rule R162: `BFGS` after `BFCT`, with inverse twiddles in Montgomery form, gives `(2a, 2b) mod Q`. -/
def Obligations.ButterflyInversion : Prop :=
  ∀ (s : State) (w w' : Nat), MontContract s.cfg s.q.toNat s.km.toNat →
    s.a.toNat < s.q.toNat → s.b.toNat < s.q.toNat → w * w' % s.q.toNat = 1 →
    s.c.toNat = w * 2 ^ s.cfg.W % s.q.toNat →
    ∃ t u, exec .bfct s = .next t
      ∧ exec .bfgs { t with a := t.r0, b := t.r1, c := BitVec.ofNat 64 (w' * 2 ^ s.cfg.W % s.q.toNat) } = .next u
      ∧ u.r0.toNat = 2 * s.a.toNat % s.q.toNat ∧ u.r1.toNat = 2 * s.b.toNat % s.q.toNat

/-! ### The context (42_context.md) -/

/-- `CTXSET` (rules R170, R171): the two errors in their order, the commit, and the constants of every slot. -/
def Obligations.CtxsetResult : Prop :=
  encode .ctxset = 0x00000030
  ∧ ∀ s : State, s.Inv →
    ((¬ ∃ e, s.nreq.toNat = 2 ^ e) ∨ s.cfg.nmax < s.nreq.toNat → Raises .ctxset s .invalidDegree)
    ∧ ((∃ e, s.nreq.toNat = 2 ^ e) → s.nreq.toNat ≤ s.cfg.nmax →
        s.lreq.toNat = 0 ∨ s.cfg.lmax < s.lreq.toNat → Raises .ctxset s .invalidBasisLength)
    ∧ ∀ e, s.nreq.toNat = 2 ^ e → s.nreq.toNat ≤ s.cfg.nmax → 1 ≤ s.lreq.toNat → s.lreq.toNat ≤ s.cfg.lmax →
        ∃ sl n, sl.length = s.cfg.lmax
          ∧ RunsTo .ctxset s
            { s with
              slots := sl, cn := s.nreq, clogn := BitVec.ofNat 64 e, cl := s.lreq
              configured := true, validated := false, draws := n }
          ∧ (∀ i, i < s.lreq.toNat →
              (sl.getD i Slot.zero).cq = s.qinAt i ∧ (sl.getD i Slot.zero).ConstantsOk s.cfg
                ∧ (∀ w ∈ (sl.getD i Slot.zero).words, fits s.cfg w)
                ∧ (sl.getD i Slot.zero).g = 0 ∧ (sl.getD i Slot.zero).psi = 0
                ∧ (sl.getD i Slot.zero).psiinv = 0 ∧ (sl.getD i Slot.zero).ninv = 0)
          ∧ ∀ i, s.lreq.toNat ≤ i → sl.getD i Slot.zero = Slot.zero

/-- Rule R170: `CTXSET` does not read `QIN[s]` for `s ≥ LREQ`: other moduli there change nothing it does.
Both runs draw their free values at the same indices, which is the model's choice (log 3). -/
def Obligations.CtxsetIgnoresUnrequestedModuli : Prop :=
  ∀ (s t : State) (x : List Word), (∀ i, i < s.lreq.toNat → x.getD i 0 = s.qinAt i) → exec .ctxset s = .next t →
    exec .ctxset { s with qin := x } = .next { t with qin := x }

/-- `VALIDATE` before a context exists, and on a validated one (rule R172). -/
def Obligations.ValidateGuards : Prop :=
  encode .validate = 0x00000031
  ∧ ∀ s : State,
    (s.configured = false → Raises .validate s .notConfigured)
    ∧ (s.configured = true → s.validated = true → RunsTo .validate s s)

/-- `VALIDATE` on a basis with a modulus that fails (rule R173): the first one is reported, nothing else changes. -/
def Obligations.ValidateRejects : Prop :=
  ∀ (s : State) (i : Nat), s.Inv → s.configured = true → s.validated = false → i < s.cl.toNat →
    (∀ j, j < i → GoodModulus s.cfg s.cn.toNat (s.slot j).cq.toNat) →
    ¬ GoodModulus s.cfg s.cn.toNat (s.slot i).cq.toNat →
    exec .validate s
      = .next (State.finished .nonNttCompatibleModulus
          { s with errslot := BitVec.ofNat 64 i, errval := (s.slot i).cq })

/-- `VALIDATE` on a basis whose moduli all pass (rules R174 to R178): the roots and tables of every slot, `VALIDATED`,
and everything else as it was. -/
def Obligations.ValidateAccepts : Prop :=
  ∀ s : State, s.Inv → s.ContextOk → s.configured = true → s.validated = false →
    (∀ i, i < s.cl.toNat → GoodModulus s.cfg s.cn.toNat (s.slot i).cq.toNat) →
    ∃ t sl f g, t = { s with slots := sl, twf := f, twi := g, validated := true }
      ∧ RunsTo .validate s t
      ∧ (∀ i, i < s.cl.toNat →
          (t.slot i).RootsOk s.cfg s.cn.toNat ∧ t.TablesOk i
            ∧ t.slot i = { s.slot i with
                g := (t.slot i).g, psi := (t.slot i).psi, psiinv := (t.slot i).psiinv, ninv := (t.slot i).ninv })
      ∧ (∀ i, s.cl.toNat ≤ i → t.slot i = s.slot i)
      ∧ ∀ i j, i < s.cfg.lmax → j < s.cfg.nmax → ¬ (i < s.cl.toNat ∧ j < s.cn.toNat) →
          t.twfWord i j = s.twfWord i j ∧ t.twiWord i j = s.twiWord i j

/-- Rule R182: the primality test is the exact predicate of rule R11. -/
def Obligations.PrimalityIsExact : Prop := ∀ q : Nat, isPrime q = true ↔ Nat.Prime q

/-- Rule R174: `G` is the smallest `g ≥ 2` that generates. -/
def Obligations.SmallestGeneratorIsLeast : Prop :=
  ∀ q : Nat, Nat.Prime q → 3 ≤ q →
    2 ≤ smallestGenerator q ∧ smallestGenerator q < q ∧ IsGen (smallestGenerator q) q
      ∧ ∀ h, 2 ≤ h → h < smallestGenerator q → ¬ IsGen h q

/-- Rule R175: `ψ · ψinv = 1`, `ψ^N = −1`, and the order of `ψ` is `2N`. -/
def Obligations.RootOfUnityOrder : Prop :=
  ∀ (k : Config) (n : Nat) (v : Slot), 1 ≤ n → v.RootsOk k n →
    v.root n * v.rootInv n % v.cq.toNat = 1
      ∧ v.root n ^ n % v.cq.toNat = v.cq.toNat - 1
      ∧ orderOf (v.root n : ZMod v.cq.toNat) = 2 * n

/-- `CTXLD` (rule R179). -/
def Obligations.CtxldResult : Prop :=
  ∀ (s : State) (slot : BitVec 6),
    (encode (.ctxld slot)).toNat = 0x32 + slot.toNat * 2 ^ 10
    ∧ (s.cl.toNat ≤ slot.toNat → Raises (.ctxld slot) s .badSlot)
    ∧ (slot.toNat < s.cl.toNat →
        RunsTo (.ctxld slot) s
          { s with
            q := (s.slot slot.toNat).cq, km := (s.slot slot.toNat).mc
            kbl := (s.slot slot.toNat).bcl, kbh := (s.slot slot.toNat).bch })

/-- Rule R77, as a rule of the whole machine: while `VALIDATED = 1` a step other than reset leaves the committed
context, the slot file and the twiddle RAMs alone, but for a successful `CTXSET`, which clears `VALIDATED`. -/
def Obligations.ValidatedContextIsReadOnly : Prop :=
  ∀ s t : State, s.configured = true → s.validated = true → ¬ s.ResetNext → step s = .next t →
    (t.validated = true ∧ t.configured = true ∧ t.cn = s.cn ∧ t.clogn = s.clogn ∧ t.cl = s.cl
      ∧ t.slots = s.slots ∧ t.twf = s.twf ∧ t.twi = s.twi ∧ t.epoch = s.epoch)
    ∨ (s.Runs .ctxset ∧ t.errcode = .ok ∧ t.validated = false ∧ t.configured = true)

/-! ### The transforms (43_ntt.md) -/

/-- The checks of rule R200 in their order (rule R223), for both transform commands. -/
def Obligations.TransformChecks : Prop :=
  ∀ (s : State) (buf : BitVec 4) (all : Bool) (slot : BitVec 6) (i : Instr),
    i = .nttf buf all slot ∨ i = .ntti buf all slot →
    (s.validated = false → Raises i s .notValidated)
    ∧ (s.validated = true → s.cfg.nbuf ≤ buf.toNat → Raises i s .badBuffer)
    ∧ (s.validated = true → buf.toNat < s.cfg.nbuf → all = false → s.cl.toNat ≤ slot.toNat →
        Raises i s .badSlot)

/-- Rule R209: a transform command that passes its checks completes, writes `POLY[BUF][i][j]` with `i` selected and
`j < CN` only, and leaves every other word and register as it was. -/
def Obligations.TransformFrame : Prop :=
  ∀ (s : State) (buf : BitVec 4) (all : Bool) (slot : BitVec 6) (i : Instr),
    i = .nttf buf all slot ∨ i = .ntti buf all slot → s.TransformReady buf all slot →
    ∃ p n, RunsTo i s { s with poly := p, draws := n }
      ∧ ∀ addr, (∀ x ∈ s.selected all slot, ∀ j, j < s.cn.toNat → addr ≠ polyAddr s.cfg buf.toNat x j) →
          s.ramWord p addr = s.ramWord s.poly addr

/-- Rule R209: what a transform reads. Two states that agree on the coefficients, the fields `CQ`, `MC`, `NINV` and
the table words `1 … CN−1` of the selected slots give the same coefficients, whatever else they hold. -/
def Obligations.TransformReads : Prop :=
  ∀ (s t : State) (buf : BitVec 4) (all : Bool) (slot : BitVec 6), s.Inv → s.TransformReady buf all slot →
    t.cfg = s.cfg → t.validated = true → t.cn = s.cn → t.clogn = s.clogn → t.cl = s.cl →
    (∀ x ∈ s.selected all slot, s.CoeffsBelow buf.toNat x ∧ (t.slot x).cq = (s.slot x).cq
      ∧ (t.slot x).mc = (s.slot x).mc ∧ (t.slot x).ninv = (s.slot x).ninv
      ∧ ∀ j, j < s.cn.toNat → t.polyWord buf.toNat x j = s.polyWord buf.toNat x j) →
    ((∀ x ∈ s.selected all slot, ∀ i, 1 ≤ i → i < s.cn.toNat → t.twfWord x i = s.twfWord x i) →
      ∃ s' t', exec (.nttf buf all slot) s = .next s' ∧ exec (.nttf buf all slot) t = .next t'
        ∧ ∀ x ∈ s.selected all slot, ∀ j, j < s.cn.toNat → t'.polyWord buf.toNat x j = s'.polyWord buf.toNat x j)
    ∧ ((∀ x ∈ s.selected all slot, ∀ i, 1 ≤ i → i < s.cn.toNat → t.twiWord x i = s.twiWord x i) →
      ∃ s' t', exec (.ntti buf all slot) s = .next s' ∧ exec (.ntti buf all slot) t = .next t'
        ∧ ∀ x ∈ s.selected all slot, ∀ j, j < s.cn.toNat → t'.polyWord buf.toNat x j = s'.polyWord buf.toNat x j)

/-- Rule R206: a slot with a coefficient outside `[0, q)` takes free values, each fresh, and no error is raised. The
values are the model's draws (log 3); nothing says what they are. -/
def Obligations.OutOfRangeInputDraws : Prop :=
  ∀ (s : State) (buf : BitVec 4) (slot : BitVec 6) (i : Instr),
    i = .nttf buf false slot ∨ i = .ntti buf false slot → s.TransformReady buf false slot →
    ¬ s.CoeffsBelow buf.toNat slot.toNat →
    ∃ p, RunsTo i s { s with poly := p, draws := s.draws + s.cn.toNat }
      ∧ ∀ j, j < s.cn.toNat →
          s.ramWord p (polyAddr s.cfg buf.toNat slot.toNat j)
            = mkWord s.cfg (Config.anyWord (s.draws + j)).toNat

/-- Rule R208: with `ALL = 1` the result is that of the single-slot commands for slots `0, 1, …, CL−1` in turn. Where a
slot's input is out of range (rule R206) both sides draw their free values at the same indices, which is the model's
choice (log 3). -/
def Obligations.AllSlotsInTurn : Prop :=
  ∀ (s : State) (buf : BitVec 4), s.Inv → s.TransformReady buf true 0 →
    exec (.nttf buf true 0) s
        = (List.range s.cl.toNat).foldl
            (fun o i => match o with
              | .next t => exec (.nttf buf false (BitVec.ofNat 6 i)) t
              | .fault r => .fault r
              | .refused r => .refused r)
            (.next s)
    ∧ exec (.ntti buf true 0) s
        = (List.range s.cl.toNat).foldl
            (fun o i => match o with
              | .next t => exec (.ntti buf false (BitVec.ofNat 6 i)) t
              | .fault r => .fault r
              | .refused r => .refused r)
            (.next s)

/-- Rule R202: the forward transform evaluates the polynomial at the odd powers of `ψ`, in bit-reversed order, in
every selected slot whose input is in range. -/
def Obligations.ForwardClosedForm : Prop :=
  ∀ (s : State) (buf : BitVec 4) (all : Bool) (slot : BitVec 6), s.Inv → s.ContextOk →
    s.TransformReady buf all slot →
    ∃ p n, RunsTo (.nttf buf all slot) s { s with poly := p, draws := n }
      ∧ ∀ x ∈ s.selected all slot, s.CoeffsBelow buf.toNat x → ∀ j, j < s.cn.toNat →
          (s.ramWord p (polyAddr s.cfg buf.toNat x j)).toNat
            = (∑ i ∈ Finset.range s.cn.toNat,
                (s.polyWord buf.toNat x i).toNat
                  * (s.slot x).root s.cn.toNat ^ ((2 * brv s.clogn.toNat j + 1) * i))
              % (s.slot x).cq.toNat

/-- Rule R204: the closed form of the inverse transform; the factor `inv_q(N)` stands on the left as `N`. -/
def Obligations.InverseClosedForm : Prop :=
  ∀ (s : State) (buf : BitVec 4) (all : Bool) (slot : BitVec 6), s.Inv → s.ContextOk →
    s.TransformReady buf all slot →
    ∃ p n, RunsTo (.ntti buf all slot) s { s with poly := p, draws := n }
      ∧ ∀ x ∈ s.selected all slot, s.CoeffsBelow buf.toNat x → ∀ i, i < s.cn.toNat →
          (s.ramWord p (polyAddr s.cfg buf.toNat x i)).toNat < (s.slot x).cq.toNat
          ∧ s.cn.toNat * (s.ramWord p (polyAddr s.cfg buf.toNat x i)).toNat % (s.slot x).cq.toNat
            = (∑ j ∈ Finset.range s.cn.toNat,
                (s.polyWord buf.toNat x j).toNat
                  * (s.slot x).rootInv s.cn.toNat ^ ((2 * brv s.clogn.toNat j + 1) * i))
              % (s.slot x).cq.toNat

/-- Rule R204: each transform undoes the other exactly, on every slot whose coefficients are in range. -/
def Obligations.TransformRoundTrip : Prop :=
  ∀ (s : State) (buf : BitVec 4) (slot : BitVec 6), s.Inv → s.ContextOk → s.TransformReady buf false slot →
    s.CoeffsBelow buf.toNat slot.toNat →
    (∃ t u, exec (.nttf buf false slot) s = .next t ∧ exec (.ntti buf false slot) t = .next u
      ∧ ∀ j, j < s.cn.toNat → u.polyWord buf.toNat slot.toNat j = s.polyWord buf.toNat slot.toNat j)
    ∧ ∃ t u, exec (.ntti buf false slot) s = .next t ∧ exec (.nttf buf false slot) t = .next u
      ∧ ∀ j, j < s.cn.toNat → u.polyWord buf.toNat slot.toNat j = s.polyWord buf.toNat slot.toNat j

/-- Rule R207: the inverse transform of the pointwise product of two transforms is the negacyclic product. -/
def Obligations.NegacyclicConvolution : Prop :=
  ∀ (s : State) (x : Nat) (a b : List Nat), s.Inv → s.ContextOk → s.validated = true → x < s.cl.toNat →
    a.length = s.cn.toNat → b.length = s.cn.toNat →
    (∀ y ∈ a, y < (s.slot x).cq.toNat) → (∀ y ∈ b, y < (s.slot x).cq.toNat) →
    ∀ i, i < s.cn.toNat →
      (((s.inverseSlot x
          (List.zipWith (fun u v => u * v % (s.slot x).cq.toNat) (s.forwardSlot x a) (s.forwardSlot x b))).getD i 0
            : Nat) : Int)
        = ((∑ u ∈ Finset.range s.cn.toNat, ∑ v ∈ Finset.range s.cn.toNat,
              if u + v = i then ((a.getD u 0 * b.getD v 0 : Nat) : Int) else 0)
            - ∑ u ∈ Finset.range s.cn.toNat, ∑ v ∈ Finset.range s.cn.toNat,
              if u + v = i + s.cn.toNat then ((a.getD u 0 * b.getD v 0 : Nat) : Int) else 0)
          % (s.slot x).cq.toNat

/-! ### Who writes what, and the invariants of every step (10_state.md) -/

/-- Rules R21 to R28, R33 and R35, over all commands: operand and request registers are written by none, `Q`, `KM`,
`KBL`, `KBH` by `CTXLD` alone, result registers by the scalar and butterfly commands alone, `ERRSLOT` and `ERRVAL` by
`VALIDATE` alone, the context by `CTXSET` and `VALIDATE`. -/
def Obligations.RegisterWriters : Prop :=
  ∀ (i : Instr) (s t : State), exec i s = .next t →
    t.cfg = s.cfg ∧ t.a = s.a ∧ t.b = s.b ∧ t.c = s.c ∧ t.nreq = s.nreq ∧ t.lreq = s.lreq ∧ t.qin = s.qin
    ∧ t.rdata = s.rdata ∧ t.events = s.events ∧ t.epoch = s.epoch
    ∧ (t.q ≠ s.q ∨ t.km ≠ s.km ∨ t.kbl ≠ s.kbl ∨ t.kbh ≠ s.kbh → ∃ slot, i = .ctxld slot)
    ∧ (t.r0 ≠ s.r0 → i ∈ [Instr.mform, .mtos, .mred, .mredLazy, .bred, .cred, .madd, .msub, .modpow, .fred, .mconst,
        .bconst, .bfct, .bfgs])
    ∧ (t.r1 ≠ s.r1 → i ∈ [Instr.bconst, .bfct, .bfgs])
    ∧ (t.poly ≠ s.poly → ∃ buf all slot, i = .nttf buf all slot ∨ i = .ntti buf all slot)
    ∧ (t.twf ≠ s.twf ∨ t.twi ≠ s.twi → i = .validate)
    ∧ (t.slots ≠ s.slots → i = .ctxset ∨ i = .validate)
    ∧ (t.cn ≠ s.cn ∨ t.clogn ≠ s.clogn ∨ t.cl ≠ s.cl ∨ t.configured ≠ s.configured → i = .ctxset)
    ∧ (t.validated ≠ s.validated → i = .ctxset ∨ i = .validate)
    ∧ (t.errslot ≠ s.errslot ∨ t.errval ≠ s.errval → i = .validate)

/-- The state after reset meets both invariants, at every choice of the parameters. -/
def Obligations.ResetMeetsInvariants : Prop :=
  ∀ k : Config, (State.resetWith k).Inv ∧ (State.resetWith k).ContextOk

/-- Every step keeps the state invariant: words stay `W`-bit values, RAMs stay canonical and inside their regions, the
committed degree stays a power of two, no reserved code is raised. -/
def Obligations.StepKeepsInv : Prop :=
  ∀ s t : State, s.Inv → step s = .next t → t.Inv

/-- Every step keeps the context invariant of rule R181: while configured the slots hold the constants of rule R171,
while validated the moduli are good and the roots and tables are those of rules R174 to R177. -/
def Obligations.StepKeepsContext : Prop :=
  ∀ s t : State, s.Inv → s.ContextOk → step s = .next t → t.ContextOk
end

