-- ==== Sys2Proof/Laws/Arith.lean ====
section
/-! SUPPORT. What the arithmetic of Machine/Arith.lean computes: one law per function. -/

namespace Sys2Proof.Machine

/-! ### Words -/

theorem Config.W_eq (c : Config) : c.W = 32 ∨ c.W = 64 := by
  unfold Config.W
  cases c.width <;> simp [Width.bits]

theorem Config.R_le (c : Config) : c.R ≤ 2 ^ 64 := by
  unfold Config.R
  rcases Config.W_eq c with h | h <;> simp [h]

theorem Config.R_pos (c : Config) : 0 < c.R := Nat.two_pow_pos _

theorem Config.qmax_lt (c : Config) : 4 * c.qmax = c.R := by
  unfold Config.R Config.qmax
  rcases Config.W_eq c with h | h <;> (rw [h]; decide)

theorem mkWord_toNat (c : Config) (n : Nat) : (mkWord c n).toNat = n % c.R := by
  have h : n % c.R < c.R := Nat.mod_lt _ (Config.R_pos c)
  have h2 := Config.R_le c
  simp only [mkWord, BitVec.toNat_ofNat]
  exact Nat.mod_eq_of_lt (by omega)

theorem mkWord_toNat_of_lt {c : Config} {n : Nat} (h : n < c.R) : (mkWord c n).toNat = n := by
  rw [mkWord_toNat, Nat.mod_eq_of_lt h]

theorem mkWord_of_lt {c : Config} {n : Nat} (h : n < c.R) : mkWord c n = BitVec.ofNat 64 n := by
  rw [mkWord, Nat.mod_eq_of_lt h]

theorem mkWord_fits (c : Config) (n : Nat) : (mkWord c n).toNat < c.R := by
  rw [mkWord_toNat]
  exact Nat.mod_lt _ (Config.R_pos c)

/-- A word that fits is its own truncation. -/
theorem mkWord_self {c : Config} {w : Word} (h : w.toNat < c.R) : mkWord c w.toNat = w := by
  rw [mkWord_of_lt h]
  simp

/-! ### Bit length, powers of two, bit reversal -/

theorem lt_two_pow_bitlen (q : Nat) : q < 2 ^ bitlen q := by
  unfold bitlen
  split
  · simp [*]
  · exact Nat.lt_log2_self

/-- `bitlen(q)` is the least such exponent (rule R11). -/
theorem bitlen_le {q k : Nat} (h : q < 2 ^ k) : bitlen q ≤ k := by
  unfold bitlen
  split
  · omega
  · rename_i hq
    have := (Nat.log2_lt hq).2 h
    omega

theorem ispow2_iff (q : Nat) : ispow2 q = true ↔ ∃ k, q = 2 ^ k := by
  constructor
  · intro h
    simp only [ispow2, Bool.and_eq_true, beq_iff_eq] at h
    exact ⟨_, h.2.symm⟩
  · rintro ⟨k, rfl⟩
    simp [ispow2]

/-! ### Powers and inverses -/

theorem modPowBits_eq (m k base e : Nat) (h : e < 2 ^ k) : modPowBits m k base e = base ^ e % m := by
  induction k generalizing base e with
  | zero =>
    have : e = 0 := by simpa using h
    simp [modPowBits, this]
  | succ k ih =>
    have hlt : e / 2 < 2 ^ k := by rw [pow_succ] at h; omega
    have hsq : modPowBits m k (base * base % m) (e / 2) = (base * base) ^ (e / 2) % m := by
      rw [ih _ _ hlt, ← Nat.pow_mod]
    have he : base ^ e = (base * base) ^ (e / 2) * base ^ (e % 2) := by
      rw [← pow_two, ← pow_mul, ← pow_add, Nat.div_add_mod]
    simp only [modPowBits, hsq]
    rcases Nat.mod_two_eq_zero_or_one e with h0 | h1
    · simp [h0, he]
    · simp only [h1, if_true, he, pow_one]
      rw [Nat.mul_mod, Nat.mod_mod, ← Nat.mul_mod, Nat.mul_comm]

/-- `modPow` is the power (rules R131, R175). -/
theorem modPow_eq (base e m : Nat) : modPow base e m = base ^ e % m :=
  modPowBits_eq m _ base e (lt_two_pow_bitlen e)

theorem coprime_mod {a b : Nat} (h : Nat.Coprime a b) : Nat.Coprime b (a % b) := by
  rw [Nat.coprime_comm, Nat.Coprime, ← Nat.gcd_rec]
  exact (Nat.coprime_comm.1 h)

theorem invLoop_spec {m a : Nat} (hm : 1 < m) (fuel : Nat) : ∀ r0 r1 t0 t1 : Nat, r1 < fuel →
    Nat.Coprime r0 r1 → a * t0 % m = r0 % m → a * t1 % m = r1 % m → t0 < m → t1 < m →
    invLoop m fuel r0 r1 t0 t1 < m ∧ a * invLoop m fuel r0 r1 t0 t1 % m = 1 := by
  induction fuel with
  | zero => intro r0 r1 t0 t1 h; omega
  | succ fuel ih =>
    intro r0 r1 t0 t1 hf hc h0 h1 ht0 ht1
    simp only [invLoop]
    split
    · rename_i hr
      subst hr
      have hr0 : r0 = 1 := by simpa using hc
      refine ⟨ht0, ?_⟩
      rw [h0, hr0, Nat.mod_eq_of_lt hm]
    · rename_i hr
      have hpos : 0 < r1 := Nat.pos_of_ne_zero hr
      refine ih r1 (r0 % r1) t1 _ ?_ ?_ h1 ?_ ht1 (Nat.mod_lt _ (by omega))
      · have := Nat.mod_lt r0 hpos
        omega
      · exact coprime_mod hc
      · have hle : r0 / r1 * t1 % m ≤ m := (Nat.mod_lt _ (by omega)).le
        have key : (a : ZMod m) * (((t0 + (m - r0 / r1 * t1 % m)) % m : Nat) : ZMod m) = ((r0 % r1 : Nat) : ZMod m) := by
          have h0' : ((a * t0 : Nat) : ZMod m) = (r0 : Nat) := (ZMod.natCast_eq_natCast_iff' _ _ _).2 h0
          have h1' : ((a * t1 : Nat) : ZMod m) = (r1 : Nat) := (ZMod.natCast_eq_natCast_iff' _ _ _).2 h1
          have hd : ((r0 : Nat) : ZMod m) = ((r1 * (r0 / r1) + r0 % r1 : Nat) : ZMod m) := by
            rw [Nat.div_add_mod]
          have e1 : (((t0 + (m - r0 / r1 * t1 % m)) % m : Nat) : ZMod m) = t0 - (r0 / r1 : Nat) * t1 := by
            rw [ZMod.natCast_mod, Nat.cast_add, Nat.cast_sub hle, ZMod.natCast_mod, Nat.cast_mul]
            simp [sub_eq_add_neg]
          push_cast at h0' h1' hd e1 ⊢
          rw [e1, mul_sub, h0', hd]
          calc (r1 : ZMod m) * ((r0 / r1 : Nat) : ZMod m) + ((r0 % r1 : Nat) : ZMod m)
                - a * (((r0 / r1 : Nat) : ZMod m) * t1)
              = (r1 - a * t1) * ((r0 / r1 : Nat) : ZMod m) + ((r0 % r1 : Nat) : ZMod m) := by ring
            _ = ((r0 % r1 : Nat) : ZMod m) := by rw [h1']; ring
        have := (ZMod.natCast_eq_natCast_iff' (a * ((t0 + (m - r0 / r1 * t1 % m)) % m)) (r0 % r1) m).1
          (by rw [Nat.cast_mul]; exact key)
        exact this

/-- `invMod` is the inverse of rule R11. -/
theorem invMod_spec {a m : Nat} (hm : 1 < m) (hc : Nat.Coprime a m) :
    invMod a m < m ∧ a * invMod a m % m = 1 := by
  refine invLoop_spec hm _ m (a % m) 0 (1 % m) (Nat.lt_succ_self _) ?_ (by simp) ?_ (by omega)
    (Nat.mod_lt _ (by omega))
  · exact coprime_mod hc
  · rw [Nat.mod_eq_of_lt hm, mul_one, Nat.mod_mod]

/-- The inverse of rule R11 is unique. -/
theorem invMod_unique {a m u : Nat} (hm : 1 < m) (hc : Nat.Coprime a m) (hu : u < m) (h : a * u % m = 1) :
    invMod a m = u := by
  obtain ⟨h1, h2⟩ := invMod_spec hm hc
  have hmod : a * invMod a m ≡ a * u [MOD m] := by rw [Nat.ModEq, h2, h]
  have := Nat.ModEq.cancel_left_of_coprime (by rwa [Nat.gcd_comm]) hmod
  rwa [Nat.ModEq, Nat.mod_eq_of_lt h1, Nat.mod_eq_of_lt hu] at this

/-! ### Modular addition and subtraction -/

theorem addMod_lt {q : Nat} (h : 0 < q) (u v : Nat) : addMod q u v < q := Nat.mod_lt _ h

theorem subMod_lt {q : Nat} (h : 0 < q) (u v : Nat) : subMod q u v < q := Nat.mod_lt _ h

/-- `subMod` is the non-negative remainder of the integer difference (rule R8). -/
theorem subMod_eq {q : Nat} (h : 0 < q) (u v : Nat) : ((subMod q u v : Nat) : Int) = ((u : Int) - v) % q := by
  have hle : v % q ≤ q := (Nat.mod_lt v h).le
  unfold subMod
  rw [Int.natCast_mod, Nat.cast_add, Nat.cast_sub hle, Int.natCast_mod]
  have : (u : Int) + ((q : Int) - (v : Int) % q) = (u - v) + q * (1 + v / q) := by
    have := Int.emod_add_mul_ediv (v : Int) q
    linarith
  rw [this, Int.add_mul_emod_self_left]

end Sys2Proof.Machine
end

