-- ==== Sys2Proof/Laws/Memory.lean ====
section
/-! SUPPORT. The RAM laws: a read after a write, what a write leaves alone, and that every RAM operation keeps the
canonical form. -/

namespace Sys2Proof.Machine

/-! ### One word -/

@[simp] theorem Ram.find_nil (a : Nat) : Ram.find [] a = none := rfl

theorem Ram.find_cons (b : Nat) (v : Word) (r : Ram) (a : Nat) :
    Ram.find ((b, v) :: r) a = if a = b then some v else Ram.find r a := rfl

@[simp] theorem Ram.find_write_self (r : Ram) (a : Nat) (w : Word) : (r.write a w).find a = some w := by
  induction r with
  | nil => simp [Ram.write, Ram.find]
  | cons p r ih =>
    obtain ⟨b, v⟩ := p
    simp only [Ram.write]
    split
    · simp [Ram.find]
    · split
      · simp [Ram.find]
      · simp [Ram.find, *]

theorem Ram.find_write_other (r : Ram) (w : Word) {a x : Nat} (h : x ≠ a) : (r.write a w).find x = r.find x := by
  induction r with
  | nil => simp [Ram.write, Ram.find, h]
  | cons p r ih =>
    obtain ⟨b, v⟩ := p
    simp only [Ram.write]
    split
    · simp [Ram.find, h]
    · split
      · rename_i hab
        subst hab
        simp [Ram.find, h]
      · simp [Ram.find, ih]

theorem Ram.mem_write {r : Ram} {a : Nat} {w : Word} {p : Nat × Word} (h : p ∈ r.write a w) :
    p = (a, w) ∨ p ∈ r := by
  induction r with
  | nil => simpa [Ram.write] using h
  | cons q r ih =>
    obtain ⟨b, v⟩ := q
    simp only [Ram.write] at h
    split at h
    · simpa using h
    · split at h
      · rcases List.mem_cons.1 h with h | h
        · exact .inl h
        · exact .inr (List.mem_cons_of_mem _ h)
      · rcases List.mem_cons.1 h with h | h
        · exact .inr (h ▸ List.mem_cons_self)
        · exact (ih h).imp id (List.mem_cons_of_mem _)

/-- A written word is listed. -/
theorem Ram.mem_of_find {r : Ram} {a : Nat} {w : Word} (h : r.find a = some w) : (a, w) ∈ r := by
  induction r with
  | nil => simp at h
  | cons p r ih =>
    obtain ⟨b, v⟩ := p
    rw [Ram.find_cons] at h
    split at h
    · rename_i hab
      simp_all
    · exact List.mem_cons_of_mem _ (ih h)

theorem Ram.risesFrom_mono {lo lo' : Nat} (h : lo' ≤ lo) : ∀ {r : Ram}, r.risesFrom lo = true → r.risesFrom lo' = true
  | [], _ => rfl
  | (_, _) :: _, hr => by
    simp only [Ram.risesFrom, Bool.and_eq_true, decide_eq_true_eq] at hr ⊢
    exact ⟨h.trans hr.1, hr.2⟩

theorem Ram.write_risesFrom {lo a : Nat} (w : Word) (ha : lo ≤ a) :
    ∀ {r : Ram}, r.risesFrom lo = true → (r.write a w).risesFrom lo = true := by
  intro r
  induction r generalizing lo with
  | nil => intro _; simp [Ram.write, Ram.risesFrom, ha]
  | cons p r ih =>
    obtain ⟨b, v⟩ := p
    intro hr
    simp only [Ram.risesFrom, Bool.and_eq_true, decide_eq_true_eq] at hr
    simp only [Ram.write]
    split
    · simp only [Ram.risesFrom, Bool.and_eq_true, decide_eq_true_eq]
      exact ⟨ha, by omega, hr.2⟩
    · split
      · rename_i hab
        subst hab
        simp only [Ram.risesFrom, Bool.and_eq_true, decide_eq_true_eq]
        exact hr
      · simp only [Ram.risesFrom, Bool.and_eq_true, decide_eq_true_eq]
        exact ⟨hr.1, ih (by omega) hr.2⟩

/-- A write keeps the canonical form. -/
theorem Ram.write_wf {r : Ram} (a : Nat) (w : Word) (h : r.wf = true) : (r.write a w).wf = true :=
  Ram.write_risesFrom w (Nat.zero_le a) h

/-! ### Consecutive words -/

theorem Ram.writeList_wf {r : Ram} (a : Nat) (ws : List Word) (h : r.wf = true) : (r.writeList a ws).wf = true := by
  induction ws generalizing r a with
  | nil => exact h
  | cons w ws ih => exact ih (a + 1) (Ram.write_wf a w h)

/-- What writing consecutive words does to every address. -/
theorem Ram.find_writeList (r : Ram) (a : Nat) (ws : List Word) (x : Nat) :
    (r.writeList a ws).find x = if h : a ≤ x ∧ x < a + ws.length then some (ws[x - a]'(by omega)) else r.find x := by
  induction ws generalizing r a with
  | nil =>
    simp [Ram.writeList]
  | cons w ws ih =>
    simp only [Ram.writeList, ih, List.length_cons]
    by_cases hx : x = a
    · subst hx
      simp
    · rw [Ram.find_write_other _ _ hx]
      by_cases h1 : a + 1 ≤ x ∧ x < a + 1 + ws.length
      · have h2 : a ≤ x ∧ x < a + (ws.length + 1) := by omega
        rw [dif_pos h1, dif_pos h2]
        have h3 : x - a = (x - (a + 1)) + 1 := by omega
        simp [h3]
      · have h2 : ¬ (a ≤ x ∧ x < a + (ws.length + 1)) := by omega
        rw [dif_neg h1, dif_neg h2]

theorem Ram.mem_writeList {r : Ram} {a : Nat} {ws : List Word} {p : Nat × Word} (h : p ∈ r.writeList a ws) :
    (a ≤ p.1 ∧ p.1 < a + ws.length ∧ p.2 ∈ ws) ∨ p ∈ r := by
  induction ws generalizing r a with
  | nil => exact .inr h
  | cons w ws ih =>
    rcases ih h with h | h
    · exact .inl ⟨by omega, by simp only [List.length_cons]; omega, List.mem_cons_of_mem _ h.2.2⟩
    · rcases Ram.mem_write h with h | h
      · subst h
        exact .inl ⟨le_refl _, by simp, List.mem_cons_self⟩
      · exact .inr h

/-! ### The table fill of `VALIDATE` -/

theorem brv_lt (k i : Nat) : brv k i < 2 ^ k := by
  induction k generalizing i with
  | zero => simp [brv]
  | succ k ih =>
    have h := ih (i / 2)
    have h2 : i % 2 * 2 ^ k ≤ 1 * 2 ^ k := Nat.mul_le_mul_right _ (by omega)
    simp only [brv, pow_succ]
    omega

theorem fillTable_wf (c : Config) (q km step k base count j p : Nat) {r : Ram} (h : r.wf = true) :
    (fillTable c q km step k base count j p r).wf = true := by
  induction count generalizing j p r with
  | zero => exact h
  | succ count ih => exact ih _ _ (Ram.write_wf _ _ h)

/-- The fill writes only the `2^k` words from its base on. -/
theorem fillTable_find_other (c : Config) (q km step k base count j p : Nat) (r : Ram) {x : Nat}
    (h : x < base ∨ base + 2 ^ k ≤ x) : (fillTable c q km step k base count j p r).find x = r.find x := by
  induction count generalizing j p r with
  | zero => rfl
  | succ count ih =>
    have hb := brv_lt k j
    rw [fillTable, ih, Ram.find_write_other]
    omega

theorem fillTable_mem {c : Config} {q km step k base count j p : Nat} {r : Ram} {x : Nat × Word}
    (h : x ∈ fillTable c q km step k base count j p r) :
    (base ≤ x.1 ∧ x.1 < base + 2 ^ k ∧ ∃ n, x.2 = mkWord c n) ∨ x ∈ r := by
  induction count generalizing j p r with
  | zero => exact .inr h
  | succ count ih =>
    rcases ih h with h | h
    · exact .inl h
    · have hb := brv_lt k j
      rcases Ram.mem_write h with h | h
      · subst h
        exact .inl ⟨by simp, by simpa using hb, p, rfl⟩
      · exact .inr h

/-! ### What a RAM word reads as -/

theorem State.ramWord_of_find {s : State} {r : Ram} {a : Nat} {w : Word} (h : r.find a = some w) :
    s.ramWord r a = w := by
  simp [State.ramWord, h]

/-- Two states with the same parameters and reset epoch read a RAM word alike where the RAMs agree. -/
theorem State.ramWord_congr {s t : State} {r r' : Ram} {a : Nat} (hc : t.cfg = s.cfg) (he : t.epoch = s.epoch)
    (h : r'.find a = r.find a) : t.ramWord r' a = s.ramWord r a := by
  simp [State.ramWord, h, hc, he]

/-- The RAMs after reset are in canonical form. -/
theorem State.reset_rams_wf (k : Config) :
    (State.resetWith k).twf.wf = true ∧ (State.resetWith k).twi.wf = true ∧ (State.resetWith k).poly.wf = true :=
  ⟨rfl, rfl, rfl⟩

end Sys2Proof.Machine
end

