-- ==== Sys2Proof/Laws/State.lean ====
section
/-! SUPPORT. One lemma per field per update of the state, each true by `rfl`, so that no proof unfolds a record
update; and what the fields of the state after reset are. -/

namespace Sys2Proof.Machine

@[simp] theorem State.complete_eq (s : State) : s.complete = s.completeWith .ok := rfl

@[simp] theorem State.raise_eq (s : State) (e : ErrCode) : s.raise e = s.completeWith e := rfl

@[simp] theorem State.illegal_eq (s : State) : s.illegal = s.completeWith .illegalCommand := rfl

/-! ### `State.spend` -/

@[simp] theorem State.spend_cfg (s : State) (n : Nat) : (s.spend n).cfg = s.cfg := rfl
@[simp] theorem State.spend_a (s : State) (n : Nat) : (s.spend n).a = s.a := rfl
@[simp] theorem State.spend_b (s : State) (n : Nat) : (s.spend n).b = s.b := rfl
@[simp] theorem State.spend_c (s : State) (n : Nat) : (s.spend n).c = s.c := rfl
@[simp] theorem State.spend_q (s : State) (n : Nat) : (s.spend n).q = s.q := rfl
@[simp] theorem State.spend_km (s : State) (n : Nat) : (s.spend n).km = s.km := rfl
@[simp] theorem State.spend_kbl (s : State) (n : Nat) : (s.spend n).kbl = s.kbl := rfl
@[simp] theorem State.spend_kbh (s : State) (n : Nat) : (s.spend n).kbh = s.kbh := rfl
@[simp] theorem State.spend_r0 (s : State) (n : Nat) : (s.spend n).r0 = s.r0 := rfl
@[simp] theorem State.spend_r1 (s : State) (n : Nat) : (s.spend n).r1 = s.r1 := rfl
@[simp] theorem State.spend_nreq (s : State) (n : Nat) : (s.spend n).nreq = s.nreq := rfl
@[simp] theorem State.spend_lreq (s : State) (n : Nat) : (s.spend n).lreq = s.lreq := rfl
@[simp] theorem State.spend_qin (s : State) (n : Nat) : (s.spend n).qin = s.qin := rfl
@[simp] theorem State.spend_cn (s : State) (n : Nat) : (s.spend n).cn = s.cn := rfl
@[simp] theorem State.spend_clogn (s : State) (n : Nat) : (s.spend n).clogn = s.clogn := rfl
@[simp] theorem State.spend_cl (s : State) (n : Nat) : (s.spend n).cl = s.cl := rfl
@[simp] theorem State.spend_configured (s : State) (n : Nat) : (s.spend n).configured = s.configured := rfl
@[simp] theorem State.spend_validated (s : State) (n : Nat) : (s.spend n).validated = s.validated := rfl
@[simp] theorem State.spend_slots (s : State) (n : Nat) : (s.spend n).slots = s.slots := rfl
@[simp] theorem State.spend_twf (s : State) (n : Nat) : (s.spend n).twf = s.twf := rfl
@[simp] theorem State.spend_twi (s : State) (n : Nat) : (s.spend n).twi = s.twi := rfl
@[simp] theorem State.spend_poly (s : State) (n : Nat) : (s.spend n).poly = s.poly := rfl
@[simp] theorem State.spend_ie (s : State) (n : Nat) : (s.spend n).ie = s.ie := rfl
@[simp] theorem State.spend_busy (s : State) (n : Nat) : (s.spend n).busy = s.busy := rfl
@[simp] theorem State.spend_done (s : State) (n : Nat) : (s.spend n).done = s.done := rfl
@[simp] theorem State.spend_hazard (s : State) (n : Nat) : (s.spend n).hazard = s.hazard := rfl
@[simp] theorem State.spend_addrerr (s : State) (n : Nat) : (s.spend n).addrerr = s.addrerr := rfl
@[simp] theorem State.spend_errcode (s : State) (n : Nat) : (s.spend n).errcode = s.errcode := rfl
@[simp] theorem State.spend_lastcmd (s : State) (n : Nat) : (s.spend n).lastcmd = s.lastcmd := rfl
@[simp] theorem State.spend_errslot (s : State) (n : Nat) : (s.spend n).errslot = s.errslot := rfl
@[simp] theorem State.spend_errval (s : State) (n : Nat) : (s.spend n).errval = s.errval := rfl
@[simp] theorem State.spend_draws (s : State) (n : Nat) : (s.spend n).draws = s.draws + n := rfl
@[simp] theorem State.spend_epoch (s : State) (n : Nat) : (s.spend n).epoch = s.epoch := rfl
@[simp] theorem State.spend_rdata (s : State) (n : Nat) : (s.spend n).rdata = s.rdata := rfl
@[simp] theorem State.spend_events (s : State) (n : Nat) : (s.spend n).events = s.events := rfl

/-! ### `State.setR0` -/

@[simp] theorem State.setR0_cfg (s : State) (w : Word) : (s.setR0 w).cfg = s.cfg := rfl
@[simp] theorem State.setR0_a (s : State) (w : Word) : (s.setR0 w).a = s.a := rfl
@[simp] theorem State.setR0_b (s : State) (w : Word) : (s.setR0 w).b = s.b := rfl
@[simp] theorem State.setR0_c (s : State) (w : Word) : (s.setR0 w).c = s.c := rfl
@[simp] theorem State.setR0_q (s : State) (w : Word) : (s.setR0 w).q = s.q := rfl
@[simp] theorem State.setR0_km (s : State) (w : Word) : (s.setR0 w).km = s.km := rfl
@[simp] theorem State.setR0_kbl (s : State) (w : Word) : (s.setR0 w).kbl = s.kbl := rfl
@[simp] theorem State.setR0_kbh (s : State) (w : Word) : (s.setR0 w).kbh = s.kbh := rfl
@[simp] theorem State.setR0_r0 (s : State) (w : Word) : (s.setR0 w).r0 = w := rfl
@[simp] theorem State.setR0_r1 (s : State) (w : Word) : (s.setR0 w).r1 = s.r1 := rfl
@[simp] theorem State.setR0_nreq (s : State) (w : Word) : (s.setR0 w).nreq = s.nreq := rfl
@[simp] theorem State.setR0_lreq (s : State) (w : Word) : (s.setR0 w).lreq = s.lreq := rfl
@[simp] theorem State.setR0_qin (s : State) (w : Word) : (s.setR0 w).qin = s.qin := rfl
@[simp] theorem State.setR0_cn (s : State) (w : Word) : (s.setR0 w).cn = s.cn := rfl
@[simp] theorem State.setR0_clogn (s : State) (w : Word) : (s.setR0 w).clogn = s.clogn := rfl
@[simp] theorem State.setR0_cl (s : State) (w : Word) : (s.setR0 w).cl = s.cl := rfl
@[simp] theorem State.setR0_configured (s : State) (w : Word) : (s.setR0 w).configured = s.configured := rfl
@[simp] theorem State.setR0_validated (s : State) (w : Word) : (s.setR0 w).validated = s.validated := rfl
@[simp] theorem State.setR0_slots (s : State) (w : Word) : (s.setR0 w).slots = s.slots := rfl
@[simp] theorem State.setR0_twf (s : State) (w : Word) : (s.setR0 w).twf = s.twf := rfl
@[simp] theorem State.setR0_twi (s : State) (w : Word) : (s.setR0 w).twi = s.twi := rfl
@[simp] theorem State.setR0_poly (s : State) (w : Word) : (s.setR0 w).poly = s.poly := rfl
@[simp] theorem State.setR0_ie (s : State) (w : Word) : (s.setR0 w).ie = s.ie := rfl
@[simp] theorem State.setR0_busy (s : State) (w : Word) : (s.setR0 w).busy = s.busy := rfl
@[simp] theorem State.setR0_done (s : State) (w : Word) : (s.setR0 w).done = s.done := rfl
@[simp] theorem State.setR0_hazard (s : State) (w : Word) : (s.setR0 w).hazard = s.hazard := rfl
@[simp] theorem State.setR0_addrerr (s : State) (w : Word) : (s.setR0 w).addrerr = s.addrerr := rfl
@[simp] theorem State.setR0_errcode (s : State) (w : Word) : (s.setR0 w).errcode = s.errcode := rfl
@[simp] theorem State.setR0_lastcmd (s : State) (w : Word) : (s.setR0 w).lastcmd = s.lastcmd := rfl
@[simp] theorem State.setR0_errslot (s : State) (w : Word) : (s.setR0 w).errslot = s.errslot := rfl
@[simp] theorem State.setR0_errval (s : State) (w : Word) : (s.setR0 w).errval = s.errval := rfl
@[simp] theorem State.setR0_draws (s : State) (w : Word) : (s.setR0 w).draws = s.draws := rfl
@[simp] theorem State.setR0_epoch (s : State) (w : Word) : (s.setR0 w).epoch = s.epoch := rfl
@[simp] theorem State.setR0_rdata (s : State) (w : Word) : (s.setR0 w).rdata = s.rdata := rfl
@[simp] theorem State.setR0_events (s : State) (w : Word) : (s.setR0 w).events = s.events := rfl

/-! ### `State.setR1` -/

@[simp] theorem State.setR1_cfg (s : State) (w : Word) : (s.setR1 w).cfg = s.cfg := rfl
@[simp] theorem State.setR1_a (s : State) (w : Word) : (s.setR1 w).a = s.a := rfl
@[simp] theorem State.setR1_b (s : State) (w : Word) : (s.setR1 w).b = s.b := rfl
@[simp] theorem State.setR1_c (s : State) (w : Word) : (s.setR1 w).c = s.c := rfl
@[simp] theorem State.setR1_q (s : State) (w : Word) : (s.setR1 w).q = s.q := rfl
@[simp] theorem State.setR1_km (s : State) (w : Word) : (s.setR1 w).km = s.km := rfl
@[simp] theorem State.setR1_kbl (s : State) (w : Word) : (s.setR1 w).kbl = s.kbl := rfl
@[simp] theorem State.setR1_kbh (s : State) (w : Word) : (s.setR1 w).kbh = s.kbh := rfl
@[simp] theorem State.setR1_r0 (s : State) (w : Word) : (s.setR1 w).r0 = s.r0 := rfl
@[simp] theorem State.setR1_r1 (s : State) (w : Word) : (s.setR1 w).r1 = w := rfl
@[simp] theorem State.setR1_nreq (s : State) (w : Word) : (s.setR1 w).nreq = s.nreq := rfl
@[simp] theorem State.setR1_lreq (s : State) (w : Word) : (s.setR1 w).lreq = s.lreq := rfl
@[simp] theorem State.setR1_qin (s : State) (w : Word) : (s.setR1 w).qin = s.qin := rfl
@[simp] theorem State.setR1_cn (s : State) (w : Word) : (s.setR1 w).cn = s.cn := rfl
@[simp] theorem State.setR1_clogn (s : State) (w : Word) : (s.setR1 w).clogn = s.clogn := rfl
@[simp] theorem State.setR1_cl (s : State) (w : Word) : (s.setR1 w).cl = s.cl := rfl
@[simp] theorem State.setR1_configured (s : State) (w : Word) : (s.setR1 w).configured = s.configured := rfl
@[simp] theorem State.setR1_validated (s : State) (w : Word) : (s.setR1 w).validated = s.validated := rfl
@[simp] theorem State.setR1_slots (s : State) (w : Word) : (s.setR1 w).slots = s.slots := rfl
@[simp] theorem State.setR1_twf (s : State) (w : Word) : (s.setR1 w).twf = s.twf := rfl
@[simp] theorem State.setR1_twi (s : State) (w : Word) : (s.setR1 w).twi = s.twi := rfl
@[simp] theorem State.setR1_poly (s : State) (w : Word) : (s.setR1 w).poly = s.poly := rfl
@[simp] theorem State.setR1_ie (s : State) (w : Word) : (s.setR1 w).ie = s.ie := rfl
@[simp] theorem State.setR1_busy (s : State) (w : Word) : (s.setR1 w).busy = s.busy := rfl
@[simp] theorem State.setR1_done (s : State) (w : Word) : (s.setR1 w).done = s.done := rfl
@[simp] theorem State.setR1_hazard (s : State) (w : Word) : (s.setR1 w).hazard = s.hazard := rfl
@[simp] theorem State.setR1_addrerr (s : State) (w : Word) : (s.setR1 w).addrerr = s.addrerr := rfl
@[simp] theorem State.setR1_errcode (s : State) (w : Word) : (s.setR1 w).errcode = s.errcode := rfl
@[simp] theorem State.setR1_lastcmd (s : State) (w : Word) : (s.setR1 w).lastcmd = s.lastcmd := rfl
@[simp] theorem State.setR1_errslot (s : State) (w : Word) : (s.setR1 w).errslot = s.errslot := rfl
@[simp] theorem State.setR1_errval (s : State) (w : Word) : (s.setR1 w).errval = s.errval := rfl
@[simp] theorem State.setR1_draws (s : State) (w : Word) : (s.setR1 w).draws = s.draws := rfl
@[simp] theorem State.setR1_epoch (s : State) (w : Word) : (s.setR1 w).epoch = s.epoch := rfl
@[simp] theorem State.setR1_rdata (s : State) (w : Word) : (s.setR1 w).rdata = s.rdata := rfl
@[simp] theorem State.setR1_events (s : State) (w : Word) : (s.setR1 w).events = s.events := rfl

/-! ### `State.completeWith` -/

@[simp] theorem State.completeWith_cfg (s : State) (e : ErrCode) : (s.completeWith e).cfg = s.cfg := rfl
@[simp] theorem State.completeWith_a (s : State) (e : ErrCode) : (s.completeWith e).a = s.a := rfl
@[simp] theorem State.completeWith_b (s : State) (e : ErrCode) : (s.completeWith e).b = s.b := rfl
@[simp] theorem State.completeWith_c (s : State) (e : ErrCode) : (s.completeWith e).c = s.c := rfl
@[simp] theorem State.completeWith_q (s : State) (e : ErrCode) : (s.completeWith e).q = s.q := rfl
@[simp] theorem State.completeWith_km (s : State) (e : ErrCode) : (s.completeWith e).km = s.km := rfl
@[simp] theorem State.completeWith_kbl (s : State) (e : ErrCode) : (s.completeWith e).kbl = s.kbl := rfl
@[simp] theorem State.completeWith_kbh (s : State) (e : ErrCode) : (s.completeWith e).kbh = s.kbh := rfl
@[simp] theorem State.completeWith_r0 (s : State) (e : ErrCode) : (s.completeWith e).r0 = s.r0 := rfl
@[simp] theorem State.completeWith_r1 (s : State) (e : ErrCode) : (s.completeWith e).r1 = s.r1 := rfl
@[simp] theorem State.completeWith_nreq (s : State) (e : ErrCode) : (s.completeWith e).nreq = s.nreq := rfl
@[simp] theorem State.completeWith_lreq (s : State) (e : ErrCode) : (s.completeWith e).lreq = s.lreq := rfl
@[simp] theorem State.completeWith_qin (s : State) (e : ErrCode) : (s.completeWith e).qin = s.qin := rfl
@[simp] theorem State.completeWith_cn (s : State) (e : ErrCode) : (s.completeWith e).cn = s.cn := rfl
@[simp] theorem State.completeWith_clogn (s : State) (e : ErrCode) : (s.completeWith e).clogn = s.clogn := rfl
@[simp] theorem State.completeWith_cl (s : State) (e : ErrCode) : (s.completeWith e).cl = s.cl := rfl
@[simp] theorem State.completeWith_configured (s : State) (e : ErrCode) : (s.completeWith e).configured = s.configured := rfl
@[simp] theorem State.completeWith_validated (s : State) (e : ErrCode) : (s.completeWith e).validated = s.validated := rfl
@[simp] theorem State.completeWith_slots (s : State) (e : ErrCode) : (s.completeWith e).slots = s.slots := rfl
@[simp] theorem State.completeWith_twf (s : State) (e : ErrCode) : (s.completeWith e).twf = s.twf := rfl
@[simp] theorem State.completeWith_twi (s : State) (e : ErrCode) : (s.completeWith e).twi = s.twi := rfl
@[simp] theorem State.completeWith_poly (s : State) (e : ErrCode) : (s.completeWith e).poly = s.poly := rfl
@[simp] theorem State.completeWith_ie (s : State) (e : ErrCode) : (s.completeWith e).ie = s.ie := rfl
@[simp] theorem State.completeWith_busy (s : State) (e : ErrCode) : (s.completeWith e).busy = false := rfl
@[simp] theorem State.completeWith_done (s : State) (e : ErrCode) : (s.completeWith e).done = true := rfl
@[simp] theorem State.completeWith_hazard (s : State) (e : ErrCode) : (s.completeWith e).hazard = s.hazard := rfl
@[simp] theorem State.completeWith_addrerr (s : State) (e : ErrCode) : (s.completeWith e).addrerr = s.addrerr := rfl
@[simp] theorem State.completeWith_errcode (s : State) (e : ErrCode) : (s.completeWith e).errcode = e := rfl
@[simp] theorem State.completeWith_lastcmd (s : State) (e : ErrCode) : (s.completeWith e).lastcmd = s.lastcmd := rfl
@[simp] theorem State.completeWith_errslot (s : State) (e : ErrCode) : (s.completeWith e).errslot = s.errslot := rfl
@[simp] theorem State.completeWith_errval (s : State) (e : ErrCode) : (s.completeWith e).errval = s.errval := rfl
@[simp] theorem State.completeWith_draws (s : State) (e : ErrCode) : (s.completeWith e).draws = s.draws := rfl
@[simp] theorem State.completeWith_epoch (s : State) (e : ErrCode) : (s.completeWith e).epoch = s.epoch := rfl
@[simp] theorem State.completeWith_rdata (s : State) (e : ErrCode) : (s.completeWith e).rdata = s.rdata := rfl
@[simp] theorem State.completeWith_events (s : State) (e : ErrCode) : (s.completeWith e).events = s.events := rfl

/-! ### `State.setPolyArray` -/

@[simp] theorem State.setPolyArray_cfg (s : State) (b i : Nat) (ws : List Word) : (s.setPolyArray b i ws).cfg = s.cfg := rfl
@[simp] theorem State.setPolyArray_a (s : State) (b i : Nat) (ws : List Word) : (s.setPolyArray b i ws).a = s.a := rfl
@[simp] theorem State.setPolyArray_b (s : State) (b i : Nat) (ws : List Word) : (s.setPolyArray b i ws).b = s.b := rfl
@[simp] theorem State.setPolyArray_c (s : State) (b i : Nat) (ws : List Word) : (s.setPolyArray b i ws).c = s.c := rfl
@[simp] theorem State.setPolyArray_q (s : State) (b i : Nat) (ws : List Word) : (s.setPolyArray b i ws).q = s.q := rfl
@[simp] theorem State.setPolyArray_km (s : State) (b i : Nat) (ws : List Word) : (s.setPolyArray b i ws).km = s.km := rfl
@[simp] theorem State.setPolyArray_kbl (s : State) (b i : Nat) (ws : List Word) : (s.setPolyArray b i ws).kbl = s.kbl := rfl
@[simp] theorem State.setPolyArray_kbh (s : State) (b i : Nat) (ws : List Word) : (s.setPolyArray b i ws).kbh = s.kbh := rfl
@[simp] theorem State.setPolyArray_r0 (s : State) (b i : Nat) (ws : List Word) : (s.setPolyArray b i ws).r0 = s.r0 := rfl
@[simp] theorem State.setPolyArray_r1 (s : State) (b i : Nat) (ws : List Word) : (s.setPolyArray b i ws).r1 = s.r1 := rfl
@[simp] theorem State.setPolyArray_nreq (s : State) (b i : Nat) (ws : List Word) : (s.setPolyArray b i ws).nreq = s.nreq := rfl
@[simp] theorem State.setPolyArray_lreq (s : State) (b i : Nat) (ws : List Word) : (s.setPolyArray b i ws).lreq = s.lreq := rfl
@[simp] theorem State.setPolyArray_qin (s : State) (b i : Nat) (ws : List Word) : (s.setPolyArray b i ws).qin = s.qin := rfl
@[simp] theorem State.setPolyArray_cn (s : State) (b i : Nat) (ws : List Word) : (s.setPolyArray b i ws).cn = s.cn := rfl
@[simp] theorem State.setPolyArray_clogn (s : State) (b i : Nat) (ws : List Word) : (s.setPolyArray b i ws).clogn = s.clogn := rfl
@[simp] theorem State.setPolyArray_cl (s : State) (b i : Nat) (ws : List Word) : (s.setPolyArray b i ws).cl = s.cl := rfl
@[simp] theorem State.setPolyArray_configured (s : State) (b i : Nat) (ws : List Word) : (s.setPolyArray b i ws).configured = s.configured := rfl
@[simp] theorem State.setPolyArray_validated (s : State) (b i : Nat) (ws : List Word) : (s.setPolyArray b i ws).validated = s.validated := rfl
@[simp] theorem State.setPolyArray_slots (s : State) (b i : Nat) (ws : List Word) : (s.setPolyArray b i ws).slots = s.slots := rfl
@[simp] theorem State.setPolyArray_twf (s : State) (b i : Nat) (ws : List Word) : (s.setPolyArray b i ws).twf = s.twf := rfl
@[simp] theorem State.setPolyArray_twi (s : State) (b i : Nat) (ws : List Word) : (s.setPolyArray b i ws).twi = s.twi := rfl
@[simp] theorem State.setPolyArray_poly (s : State) (b i : Nat) (ws : List Word) : (s.setPolyArray b i ws).poly = s.poly.writeList (polyAddr s.cfg b i 0) ws := rfl
@[simp] theorem State.setPolyArray_ie (s : State) (b i : Nat) (ws : List Word) : (s.setPolyArray b i ws).ie = s.ie := rfl
@[simp] theorem State.setPolyArray_busy (s : State) (b i : Nat) (ws : List Word) : (s.setPolyArray b i ws).busy = s.busy := rfl
@[simp] theorem State.setPolyArray_done (s : State) (b i : Nat) (ws : List Word) : (s.setPolyArray b i ws).done = s.done := rfl
@[simp] theorem State.setPolyArray_hazard (s : State) (b i : Nat) (ws : List Word) : (s.setPolyArray b i ws).hazard = s.hazard := rfl
@[simp] theorem State.setPolyArray_addrerr (s : State) (b i : Nat) (ws : List Word) : (s.setPolyArray b i ws).addrerr = s.addrerr := rfl
@[simp] theorem State.setPolyArray_errcode (s : State) (b i : Nat) (ws : List Word) : (s.setPolyArray b i ws).errcode = s.errcode := rfl
@[simp] theorem State.setPolyArray_lastcmd (s : State) (b i : Nat) (ws : List Word) : (s.setPolyArray b i ws).lastcmd = s.lastcmd := rfl
@[simp] theorem State.setPolyArray_errslot (s : State) (b i : Nat) (ws : List Word) : (s.setPolyArray b i ws).errslot = s.errslot := rfl
@[simp] theorem State.setPolyArray_errval (s : State) (b i : Nat) (ws : List Word) : (s.setPolyArray b i ws).errval = s.errval := rfl
@[simp] theorem State.setPolyArray_draws (s : State) (b i : Nat) (ws : List Word) : (s.setPolyArray b i ws).draws = s.draws := rfl
@[simp] theorem State.setPolyArray_epoch (s : State) (b i : Nat) (ws : List Word) : (s.setPolyArray b i ws).epoch = s.epoch := rfl
@[simp] theorem State.setPolyArray_rdata (s : State) (b i : Nat) (ws : List Word) : (s.setPolyArray b i ws).rdata = s.rdata := rfl
@[simp] theorem State.setPolyArray_events (s : State) (b i : Nat) (ws : List Word) : (s.setPolyArray b i ws).events = s.events := rfl

/-! ### `State.setSlot` -/

@[simp] theorem State.setSlot_cfg (s : State) (i : Nat) (v : Slot) : (s.setSlot i v).cfg = s.cfg := rfl
@[simp] theorem State.setSlot_a (s : State) (i : Nat) (v : Slot) : (s.setSlot i v).a = s.a := rfl
@[simp] theorem State.setSlot_b (s : State) (i : Nat) (v : Slot) : (s.setSlot i v).b = s.b := rfl
@[simp] theorem State.setSlot_c (s : State) (i : Nat) (v : Slot) : (s.setSlot i v).c = s.c := rfl
@[simp] theorem State.setSlot_q (s : State) (i : Nat) (v : Slot) : (s.setSlot i v).q = s.q := rfl
@[simp] theorem State.setSlot_km (s : State) (i : Nat) (v : Slot) : (s.setSlot i v).km = s.km := rfl
@[simp] theorem State.setSlot_kbl (s : State) (i : Nat) (v : Slot) : (s.setSlot i v).kbl = s.kbl := rfl
@[simp] theorem State.setSlot_kbh (s : State) (i : Nat) (v : Slot) : (s.setSlot i v).kbh = s.kbh := rfl
@[simp] theorem State.setSlot_r0 (s : State) (i : Nat) (v : Slot) : (s.setSlot i v).r0 = s.r0 := rfl
@[simp] theorem State.setSlot_r1 (s : State) (i : Nat) (v : Slot) : (s.setSlot i v).r1 = s.r1 := rfl
@[simp] theorem State.setSlot_nreq (s : State) (i : Nat) (v : Slot) : (s.setSlot i v).nreq = s.nreq := rfl
@[simp] theorem State.setSlot_lreq (s : State) (i : Nat) (v : Slot) : (s.setSlot i v).lreq = s.lreq := rfl
@[simp] theorem State.setSlot_qin (s : State) (i : Nat) (v : Slot) : (s.setSlot i v).qin = s.qin := rfl
@[simp] theorem State.setSlot_cn (s : State) (i : Nat) (v : Slot) : (s.setSlot i v).cn = s.cn := rfl
@[simp] theorem State.setSlot_clogn (s : State) (i : Nat) (v : Slot) : (s.setSlot i v).clogn = s.clogn := rfl
@[simp] theorem State.setSlot_cl (s : State) (i : Nat) (v : Slot) : (s.setSlot i v).cl = s.cl := rfl
@[simp] theorem State.setSlot_configured (s : State) (i : Nat) (v : Slot) : (s.setSlot i v).configured = s.configured := rfl
@[simp] theorem State.setSlot_validated (s : State) (i : Nat) (v : Slot) : (s.setSlot i v).validated = s.validated := rfl
@[simp] theorem State.setSlot_slots (s : State) (i : Nat) (v : Slot) : (s.setSlot i v).slots = s.slots.set i v := rfl
@[simp] theorem State.setSlot_twf (s : State) (i : Nat) (v : Slot) : (s.setSlot i v).twf = s.twf := rfl
@[simp] theorem State.setSlot_twi (s : State) (i : Nat) (v : Slot) : (s.setSlot i v).twi = s.twi := rfl
@[simp] theorem State.setSlot_poly (s : State) (i : Nat) (v : Slot) : (s.setSlot i v).poly = s.poly := rfl
@[simp] theorem State.setSlot_ie (s : State) (i : Nat) (v : Slot) : (s.setSlot i v).ie = s.ie := rfl
@[simp] theorem State.setSlot_busy (s : State) (i : Nat) (v : Slot) : (s.setSlot i v).busy = s.busy := rfl
@[simp] theorem State.setSlot_done (s : State) (i : Nat) (v : Slot) : (s.setSlot i v).done = s.done := rfl
@[simp] theorem State.setSlot_hazard (s : State) (i : Nat) (v : Slot) : (s.setSlot i v).hazard = s.hazard := rfl
@[simp] theorem State.setSlot_addrerr (s : State) (i : Nat) (v : Slot) : (s.setSlot i v).addrerr = s.addrerr := rfl
@[simp] theorem State.setSlot_errcode (s : State) (i : Nat) (v : Slot) : (s.setSlot i v).errcode = s.errcode := rfl
@[simp] theorem State.setSlot_lastcmd (s : State) (i : Nat) (v : Slot) : (s.setSlot i v).lastcmd = s.lastcmd := rfl
@[simp] theorem State.setSlot_errslot (s : State) (i : Nat) (v : Slot) : (s.setSlot i v).errslot = s.errslot := rfl
@[simp] theorem State.setSlot_errval (s : State) (i : Nat) (v : Slot) : (s.setSlot i v).errval = s.errval := rfl
@[simp] theorem State.setSlot_draws (s : State) (i : Nat) (v : Slot) : (s.setSlot i v).draws = s.draws := rfl
@[simp] theorem State.setSlot_epoch (s : State) (i : Nat) (v : Slot) : (s.setSlot i v).epoch = s.epoch := rfl
@[simp] theorem State.setSlot_rdata (s : State) (i : Nat) (v : Slot) : (s.setSlot i v).rdata = s.rdata := rfl
@[simp] theorem State.setSlot_events (s : State) (i : Nat) (v : Slot) : (s.setSlot i v).events = s.events := rfl

/-! ### `State.commitRequest` -/

@[simp] theorem State.commitRequest_cfg (s : State) : (s.commitRequest).cfg = s.cfg := rfl
@[simp] theorem State.commitRequest_a (s : State) : (s.commitRequest).a = s.a := rfl
@[simp] theorem State.commitRequest_b (s : State) : (s.commitRequest).b = s.b := rfl
@[simp] theorem State.commitRequest_c (s : State) : (s.commitRequest).c = s.c := rfl
@[simp] theorem State.commitRequest_q (s : State) : (s.commitRequest).q = s.q := rfl
@[simp] theorem State.commitRequest_km (s : State) : (s.commitRequest).km = s.km := rfl
@[simp] theorem State.commitRequest_kbl (s : State) : (s.commitRequest).kbl = s.kbl := rfl
@[simp] theorem State.commitRequest_kbh (s : State) : (s.commitRequest).kbh = s.kbh := rfl
@[simp] theorem State.commitRequest_r0 (s : State) : (s.commitRequest).r0 = s.r0 := rfl
@[simp] theorem State.commitRequest_r1 (s : State) : (s.commitRequest).r1 = s.r1 := rfl
@[simp] theorem State.commitRequest_nreq (s : State) : (s.commitRequest).nreq = s.nreq := rfl
@[simp] theorem State.commitRequest_lreq (s : State) : (s.commitRequest).lreq = s.lreq := rfl
@[simp] theorem State.commitRequest_qin (s : State) : (s.commitRequest).qin = s.qin := rfl
@[simp] theorem State.commitRequest_cn (s : State) : (s.commitRequest).cn = s.nreq := rfl
@[simp] theorem State.commitRequest_clogn (s : State) : (s.commitRequest).clogn = mkWord s.cfg (Nat.log2 s.nreq.toNat) := rfl
@[simp] theorem State.commitRequest_cl (s : State) : (s.commitRequest).cl = s.lreq := rfl
@[simp] theorem State.commitRequest_configured (s : State) : (s.commitRequest).configured = true := rfl
@[simp] theorem State.commitRequest_validated (s : State) : (s.commitRequest).validated = false := rfl
@[simp] theorem State.commitRequest_slots (s : State) : (s.commitRequest).slots = s.requestedSlots := rfl
@[simp] theorem State.commitRequest_twf (s : State) : (s.commitRequest).twf = s.twf := rfl
@[simp] theorem State.commitRequest_twi (s : State) : (s.commitRequest).twi = s.twi := rfl
@[simp] theorem State.commitRequest_poly (s : State) : (s.commitRequest).poly = s.poly := rfl
@[simp] theorem State.commitRequest_ie (s : State) : (s.commitRequest).ie = s.ie := rfl
@[simp] theorem State.commitRequest_busy (s : State) : (s.commitRequest).busy = s.busy := rfl
@[simp] theorem State.commitRequest_done (s : State) : (s.commitRequest).done = s.done := rfl
@[simp] theorem State.commitRequest_hazard (s : State) : (s.commitRequest).hazard = s.hazard := rfl
@[simp] theorem State.commitRequest_addrerr (s : State) : (s.commitRequest).addrerr = s.addrerr := rfl
@[simp] theorem State.commitRequest_errcode (s : State) : (s.commitRequest).errcode = s.errcode := rfl
@[simp] theorem State.commitRequest_lastcmd (s : State) : (s.commitRequest).lastcmd = s.lastcmd := rfl
@[simp] theorem State.commitRequest_errslot (s : State) : (s.commitRequest).errslot = s.errslot := rfl
@[simp] theorem State.commitRequest_errval (s : State) : (s.commitRequest).errval = s.errval := rfl
@[simp] theorem State.commitRequest_draws (s : State) : (s.commitRequest).draws = s.draws + 3 * s.lreq.toNat := rfl
@[simp] theorem State.commitRequest_epoch (s : State) : (s.commitRequest).epoch = s.epoch := rfl
@[simp] theorem State.commitRequest_rdata (s : State) : (s.commitRequest).rdata = s.rdata := rfl
@[simp] theorem State.commitRequest_events (s : State) : (s.commitRequest).events = s.events := rfl

/-! ### `State.loadModulus` -/

@[simp] theorem State.loadModulus_cfg (s : State) (v : Slot) : (s.loadModulus v).cfg = s.cfg := rfl
@[simp] theorem State.loadModulus_a (s : State) (v : Slot) : (s.loadModulus v).a = s.a := rfl
@[simp] theorem State.loadModulus_b (s : State) (v : Slot) : (s.loadModulus v).b = s.b := rfl
@[simp] theorem State.loadModulus_c (s : State) (v : Slot) : (s.loadModulus v).c = s.c := rfl
@[simp] theorem State.loadModulus_q (s : State) (v : Slot) : (s.loadModulus v).q = v.cq := rfl
@[simp] theorem State.loadModulus_km (s : State) (v : Slot) : (s.loadModulus v).km = v.mc := rfl
@[simp] theorem State.loadModulus_kbl (s : State) (v : Slot) : (s.loadModulus v).kbl = v.bcl := rfl
@[simp] theorem State.loadModulus_kbh (s : State) (v : Slot) : (s.loadModulus v).kbh = v.bch := rfl
@[simp] theorem State.loadModulus_r0 (s : State) (v : Slot) : (s.loadModulus v).r0 = s.r0 := rfl
@[simp] theorem State.loadModulus_r1 (s : State) (v : Slot) : (s.loadModulus v).r1 = s.r1 := rfl
@[simp] theorem State.loadModulus_nreq (s : State) (v : Slot) : (s.loadModulus v).nreq = s.nreq := rfl
@[simp] theorem State.loadModulus_lreq (s : State) (v : Slot) : (s.loadModulus v).lreq = s.lreq := rfl
@[simp] theorem State.loadModulus_qin (s : State) (v : Slot) : (s.loadModulus v).qin = s.qin := rfl
@[simp] theorem State.loadModulus_cn (s : State) (v : Slot) : (s.loadModulus v).cn = s.cn := rfl
@[simp] theorem State.loadModulus_clogn (s : State) (v : Slot) : (s.loadModulus v).clogn = s.clogn := rfl
@[simp] theorem State.loadModulus_cl (s : State) (v : Slot) : (s.loadModulus v).cl = s.cl := rfl
@[simp] theorem State.loadModulus_configured (s : State) (v : Slot) : (s.loadModulus v).configured = s.configured := rfl
@[simp] theorem State.loadModulus_validated (s : State) (v : Slot) : (s.loadModulus v).validated = s.validated := rfl
@[simp] theorem State.loadModulus_slots (s : State) (v : Slot) : (s.loadModulus v).slots = s.slots := rfl
@[simp] theorem State.loadModulus_twf (s : State) (v : Slot) : (s.loadModulus v).twf = s.twf := rfl
@[simp] theorem State.loadModulus_twi (s : State) (v : Slot) : (s.loadModulus v).twi = s.twi := rfl
@[simp] theorem State.loadModulus_poly (s : State) (v : Slot) : (s.loadModulus v).poly = s.poly := rfl
@[simp] theorem State.loadModulus_ie (s : State) (v : Slot) : (s.loadModulus v).ie = s.ie := rfl
@[simp] theorem State.loadModulus_busy (s : State) (v : Slot) : (s.loadModulus v).busy = s.busy := rfl
@[simp] theorem State.loadModulus_done (s : State) (v : Slot) : (s.loadModulus v).done = s.done := rfl
@[simp] theorem State.loadModulus_hazard (s : State) (v : Slot) : (s.loadModulus v).hazard = s.hazard := rfl
@[simp] theorem State.loadModulus_addrerr (s : State) (v : Slot) : (s.loadModulus v).addrerr = s.addrerr := rfl
@[simp] theorem State.loadModulus_errcode (s : State) (v : Slot) : (s.loadModulus v).errcode = s.errcode := rfl
@[simp] theorem State.loadModulus_lastcmd (s : State) (v : Slot) : (s.loadModulus v).lastcmd = s.lastcmd := rfl
@[simp] theorem State.loadModulus_errslot (s : State) (v : Slot) : (s.loadModulus v).errslot = s.errslot := rfl
@[simp] theorem State.loadModulus_errval (s : State) (v : Slot) : (s.loadModulus v).errval = s.errval := rfl
@[simp] theorem State.loadModulus_draws (s : State) (v : Slot) : (s.loadModulus v).draws = s.draws := rfl
@[simp] theorem State.loadModulus_epoch (s : State) (v : Slot) : (s.loadModulus v).epoch = s.epoch := rfl
@[simp] theorem State.loadModulus_rdata (s : State) (v : Slot) : (s.loadModulus v).rdata = s.rdata := rfl
@[simp] theorem State.loadModulus_events (s : State) (v : Slot) : (s.loadModulus v).events = s.events := rfl

/-! ### `State.reportSlot` -/

@[simp] theorem State.reportSlot_cfg (s : State) (i : Nat) : (s.reportSlot i).cfg = s.cfg := rfl
@[simp] theorem State.reportSlot_a (s : State) (i : Nat) : (s.reportSlot i).a = s.a := rfl
@[simp] theorem State.reportSlot_b (s : State) (i : Nat) : (s.reportSlot i).b = s.b := rfl
@[simp] theorem State.reportSlot_c (s : State) (i : Nat) : (s.reportSlot i).c = s.c := rfl
@[simp] theorem State.reportSlot_q (s : State) (i : Nat) : (s.reportSlot i).q = s.q := rfl
@[simp] theorem State.reportSlot_km (s : State) (i : Nat) : (s.reportSlot i).km = s.km := rfl
@[simp] theorem State.reportSlot_kbl (s : State) (i : Nat) : (s.reportSlot i).kbl = s.kbl := rfl
@[simp] theorem State.reportSlot_kbh (s : State) (i : Nat) : (s.reportSlot i).kbh = s.kbh := rfl
@[simp] theorem State.reportSlot_r0 (s : State) (i : Nat) : (s.reportSlot i).r0 = s.r0 := rfl
@[simp] theorem State.reportSlot_r1 (s : State) (i : Nat) : (s.reportSlot i).r1 = s.r1 := rfl
@[simp] theorem State.reportSlot_nreq (s : State) (i : Nat) : (s.reportSlot i).nreq = s.nreq := rfl
@[simp] theorem State.reportSlot_lreq (s : State) (i : Nat) : (s.reportSlot i).lreq = s.lreq := rfl
@[simp] theorem State.reportSlot_qin (s : State) (i : Nat) : (s.reportSlot i).qin = s.qin := rfl
@[simp] theorem State.reportSlot_cn (s : State) (i : Nat) : (s.reportSlot i).cn = s.cn := rfl
@[simp] theorem State.reportSlot_clogn (s : State) (i : Nat) : (s.reportSlot i).clogn = s.clogn := rfl
@[simp] theorem State.reportSlot_cl (s : State) (i : Nat) : (s.reportSlot i).cl = s.cl := rfl
@[simp] theorem State.reportSlot_configured (s : State) (i : Nat) : (s.reportSlot i).configured = s.configured := rfl
@[simp] theorem State.reportSlot_validated (s : State) (i : Nat) : (s.reportSlot i).validated = s.validated := rfl
@[simp] theorem State.reportSlot_slots (s : State) (i : Nat) : (s.reportSlot i).slots = s.slots := rfl
@[simp] theorem State.reportSlot_twf (s : State) (i : Nat) : (s.reportSlot i).twf = s.twf := rfl
@[simp] theorem State.reportSlot_twi (s : State) (i : Nat) : (s.reportSlot i).twi = s.twi := rfl
@[simp] theorem State.reportSlot_poly (s : State) (i : Nat) : (s.reportSlot i).poly = s.poly := rfl
@[simp] theorem State.reportSlot_ie (s : State) (i : Nat) : (s.reportSlot i).ie = s.ie := rfl
@[simp] theorem State.reportSlot_busy (s : State) (i : Nat) : (s.reportSlot i).busy = s.busy := rfl
@[simp] theorem State.reportSlot_done (s : State) (i : Nat) : (s.reportSlot i).done = s.done := rfl
@[simp] theorem State.reportSlot_hazard (s : State) (i : Nat) : (s.reportSlot i).hazard = s.hazard := rfl
@[simp] theorem State.reportSlot_addrerr (s : State) (i : Nat) : (s.reportSlot i).addrerr = s.addrerr := rfl
@[simp] theorem State.reportSlot_errcode (s : State) (i : Nat) : (s.reportSlot i).errcode = s.errcode := rfl
@[simp] theorem State.reportSlot_lastcmd (s : State) (i : Nat) : (s.reportSlot i).lastcmd = s.lastcmd := rfl
@[simp] theorem State.reportSlot_errslot (s : State) (i : Nat) : (s.reportSlot i).errslot = mkWord s.cfg i := rfl
@[simp] theorem State.reportSlot_errval (s : State) (i : Nat) : (s.reportSlot i).errval = (s.slot i).cq := rfl
@[simp] theorem State.reportSlot_draws (s : State) (i : Nat) : (s.reportSlot i).draws = s.draws := rfl
@[simp] theorem State.reportSlot_epoch (s : State) (i : Nat) : (s.reportSlot i).epoch = s.epoch := rfl
@[simp] theorem State.reportSlot_rdata (s : State) (i : Nat) : (s.reportSlot i).rdata = s.rdata := rfl
@[simp] theorem State.reportSlot_events (s : State) (i : Nat) : (s.reportSlot i).events = s.events := rfl

/-! ### `State.writeStatus` -/

@[simp] theorem State.writeStatus_cfg (s : State) (v : Word) : (s.writeStatus v).cfg = s.cfg := rfl
@[simp] theorem State.writeStatus_a (s : State) (v : Word) : (s.writeStatus v).a = s.a := rfl
@[simp] theorem State.writeStatus_b (s : State) (v : Word) : (s.writeStatus v).b = s.b := rfl
@[simp] theorem State.writeStatus_c (s : State) (v : Word) : (s.writeStatus v).c = s.c := rfl
@[simp] theorem State.writeStatus_q (s : State) (v : Word) : (s.writeStatus v).q = s.q := rfl
@[simp] theorem State.writeStatus_km (s : State) (v : Word) : (s.writeStatus v).km = s.km := rfl
@[simp] theorem State.writeStatus_kbl (s : State) (v : Word) : (s.writeStatus v).kbl = s.kbl := rfl
@[simp] theorem State.writeStatus_kbh (s : State) (v : Word) : (s.writeStatus v).kbh = s.kbh := rfl
@[simp] theorem State.writeStatus_r0 (s : State) (v : Word) : (s.writeStatus v).r0 = s.r0 := rfl
@[simp] theorem State.writeStatus_r1 (s : State) (v : Word) : (s.writeStatus v).r1 = s.r1 := rfl
@[simp] theorem State.writeStatus_nreq (s : State) (v : Word) : (s.writeStatus v).nreq = s.nreq := rfl
@[simp] theorem State.writeStatus_lreq (s : State) (v : Word) : (s.writeStatus v).lreq = s.lreq := rfl
@[simp] theorem State.writeStatus_qin (s : State) (v : Word) : (s.writeStatus v).qin = s.qin := rfl
@[simp] theorem State.writeStatus_cn (s : State) (v : Word) : (s.writeStatus v).cn = s.cn := rfl
@[simp] theorem State.writeStatus_clogn (s : State) (v : Word) : (s.writeStatus v).clogn = s.clogn := rfl
@[simp] theorem State.writeStatus_cl (s : State) (v : Word) : (s.writeStatus v).cl = s.cl := rfl
@[simp] theorem State.writeStatus_configured (s : State) (v : Word) : (s.writeStatus v).configured = s.configured := rfl
@[simp] theorem State.writeStatus_validated (s : State) (v : Word) : (s.writeStatus v).validated = s.validated := rfl
@[simp] theorem State.writeStatus_slots (s : State) (v : Word) : (s.writeStatus v).slots = s.slots := rfl
@[simp] theorem State.writeStatus_twf (s : State) (v : Word) : (s.writeStatus v).twf = s.twf := rfl
@[simp] theorem State.writeStatus_twi (s : State) (v : Word) : (s.writeStatus v).twi = s.twi := rfl
@[simp] theorem State.writeStatus_poly (s : State) (v : Word) : (s.writeStatus v).poly = s.poly := rfl
@[simp] theorem State.writeStatus_ie (s : State) (v : Word) : (s.writeStatus v).ie = s.ie := rfl
@[simp] theorem State.writeStatus_busy (s : State) (v : Word) : (s.writeStatus v).busy = s.busy := rfl
@[simp] theorem State.writeStatus_done (s : State) (v : Word) : (s.writeStatus v).done = (s.done && !v.getLsbD 1) := rfl
@[simp] theorem State.writeStatus_hazard (s : State) (v : Word) : (s.writeStatus v).hazard = (s.hazard && !v.getLsbD 3) := rfl
@[simp] theorem State.writeStatus_addrerr (s : State) (v : Word) : (s.writeStatus v).addrerr = (s.addrerr && !v.getLsbD 4) := rfl
@[simp] theorem State.writeStatus_errcode (s : State) (v : Word) : (s.writeStatus v).errcode = s.errcode := rfl
@[simp] theorem State.writeStatus_lastcmd (s : State) (v : Word) : (s.writeStatus v).lastcmd = s.lastcmd := rfl
@[simp] theorem State.writeStatus_errslot (s : State) (v : Word) : (s.writeStatus v).errslot = s.errslot := rfl
@[simp] theorem State.writeStatus_errval (s : State) (v : Word) : (s.writeStatus v).errval = s.errval := rfl
@[simp] theorem State.writeStatus_draws (s : State) (v : Word) : (s.writeStatus v).draws = s.draws := rfl
@[simp] theorem State.writeStatus_epoch (s : State) (v : Word) : (s.writeStatus v).epoch = s.epoch := rfl
@[simp] theorem State.writeStatus_rdata (s : State) (v : Word) : (s.writeStatus v).rdata = s.rdata := rfl
@[simp] theorem State.writeStatus_events (s : State) (v : Word) : (s.writeStatus v).events = s.events := rfl

/-! ### `State.writeCtrl` -/

@[simp] theorem State.writeCtrl_cfg (s : State) (v : Word) : (s.writeCtrl v).cfg = s.cfg := rfl
@[simp] theorem State.writeCtrl_a (s : State) (v : Word) : (s.writeCtrl v).a = s.a := rfl
@[simp] theorem State.writeCtrl_b (s : State) (v : Word) : (s.writeCtrl v).b = s.b := rfl
@[simp] theorem State.writeCtrl_c (s : State) (v : Word) : (s.writeCtrl v).c = s.c := rfl
@[simp] theorem State.writeCtrl_q (s : State) (v : Word) : (s.writeCtrl v).q = s.q := rfl
@[simp] theorem State.writeCtrl_km (s : State) (v : Word) : (s.writeCtrl v).km = s.km := rfl
@[simp] theorem State.writeCtrl_kbl (s : State) (v : Word) : (s.writeCtrl v).kbl = s.kbl := rfl
@[simp] theorem State.writeCtrl_kbh (s : State) (v : Word) : (s.writeCtrl v).kbh = s.kbh := rfl
@[simp] theorem State.writeCtrl_r0 (s : State) (v : Word) : (s.writeCtrl v).r0 = s.r0 := rfl
@[simp] theorem State.writeCtrl_r1 (s : State) (v : Word) : (s.writeCtrl v).r1 = s.r1 := rfl
@[simp] theorem State.writeCtrl_nreq (s : State) (v : Word) : (s.writeCtrl v).nreq = s.nreq := rfl
@[simp] theorem State.writeCtrl_lreq (s : State) (v : Word) : (s.writeCtrl v).lreq = s.lreq := rfl
@[simp] theorem State.writeCtrl_qin (s : State) (v : Word) : (s.writeCtrl v).qin = s.qin := rfl
@[simp] theorem State.writeCtrl_cn (s : State) (v : Word) : (s.writeCtrl v).cn = s.cn := rfl
@[simp] theorem State.writeCtrl_clogn (s : State) (v : Word) : (s.writeCtrl v).clogn = s.clogn := rfl
@[simp] theorem State.writeCtrl_cl (s : State) (v : Word) : (s.writeCtrl v).cl = s.cl := rfl
@[simp] theorem State.writeCtrl_configured (s : State) (v : Word) : (s.writeCtrl v).configured = s.configured := rfl
@[simp] theorem State.writeCtrl_validated (s : State) (v : Word) : (s.writeCtrl v).validated = s.validated := rfl
@[simp] theorem State.writeCtrl_slots (s : State) (v : Word) : (s.writeCtrl v).slots = s.slots := rfl
@[simp] theorem State.writeCtrl_twf (s : State) (v : Word) : (s.writeCtrl v).twf = s.twf := rfl
@[simp] theorem State.writeCtrl_twi (s : State) (v : Word) : (s.writeCtrl v).twi = s.twi := rfl
@[simp] theorem State.writeCtrl_poly (s : State) (v : Word) : (s.writeCtrl v).poly = s.poly := rfl
@[simp] theorem State.writeCtrl_ie (s : State) (v : Word) : (s.writeCtrl v).ie = v.getLsbD 0 := rfl
@[simp] theorem State.writeCtrl_busy (s : State) (v : Word) : (s.writeCtrl v).busy = s.busy := rfl
@[simp] theorem State.writeCtrl_done (s : State) (v : Word) : (s.writeCtrl v).done = s.done := rfl
@[simp] theorem State.writeCtrl_hazard (s : State) (v : Word) : (s.writeCtrl v).hazard = s.hazard := rfl
@[simp] theorem State.writeCtrl_addrerr (s : State) (v : Word) : (s.writeCtrl v).addrerr = s.addrerr := rfl
@[simp] theorem State.writeCtrl_errcode (s : State) (v : Word) : (s.writeCtrl v).errcode = s.errcode := rfl
@[simp] theorem State.writeCtrl_lastcmd (s : State) (v : Word) : (s.writeCtrl v).lastcmd = s.lastcmd := rfl
@[simp] theorem State.writeCtrl_errslot (s : State) (v : Word) : (s.writeCtrl v).errslot = s.errslot := rfl
@[simp] theorem State.writeCtrl_errval (s : State) (v : Word) : (s.writeCtrl v).errval = s.errval := rfl
@[simp] theorem State.writeCtrl_draws (s : State) (v : Word) : (s.writeCtrl v).draws = s.draws := rfl
@[simp] theorem State.writeCtrl_epoch (s : State) (v : Word) : (s.writeCtrl v).epoch = s.epoch := rfl
@[simp] theorem State.writeCtrl_rdata (s : State) (v : Word) : (s.writeCtrl v).rdata = s.rdata := rfl
@[simp] theorem State.writeCtrl_events (s : State) (v : Word) : (s.writeCtrl v).events = s.events := rfl

/-! ### `State.setAddrErr` -/

@[simp] theorem State.setAddrErr_cfg (s : State) : (s.setAddrErr).cfg = s.cfg := rfl
@[simp] theorem State.setAddrErr_a (s : State) : (s.setAddrErr).a = s.a := rfl
@[simp] theorem State.setAddrErr_b (s : State) : (s.setAddrErr).b = s.b := rfl
@[simp] theorem State.setAddrErr_c (s : State) : (s.setAddrErr).c = s.c := rfl
@[simp] theorem State.setAddrErr_q (s : State) : (s.setAddrErr).q = s.q := rfl
@[simp] theorem State.setAddrErr_km (s : State) : (s.setAddrErr).km = s.km := rfl
@[simp] theorem State.setAddrErr_kbl (s : State) : (s.setAddrErr).kbl = s.kbl := rfl
@[simp] theorem State.setAddrErr_kbh (s : State) : (s.setAddrErr).kbh = s.kbh := rfl
@[simp] theorem State.setAddrErr_r0 (s : State) : (s.setAddrErr).r0 = s.r0 := rfl
@[simp] theorem State.setAddrErr_r1 (s : State) : (s.setAddrErr).r1 = s.r1 := rfl
@[simp] theorem State.setAddrErr_nreq (s : State) : (s.setAddrErr).nreq = s.nreq := rfl
@[simp] theorem State.setAddrErr_lreq (s : State) : (s.setAddrErr).lreq = s.lreq := rfl
@[simp] theorem State.setAddrErr_qin (s : State) : (s.setAddrErr).qin = s.qin := rfl
@[simp] theorem State.setAddrErr_cn (s : State) : (s.setAddrErr).cn = s.cn := rfl
@[simp] theorem State.setAddrErr_clogn (s : State) : (s.setAddrErr).clogn = s.clogn := rfl
@[simp] theorem State.setAddrErr_cl (s : State) : (s.setAddrErr).cl = s.cl := rfl
@[simp] theorem State.setAddrErr_configured (s : State) : (s.setAddrErr).configured = s.configured := rfl
@[simp] theorem State.setAddrErr_validated (s : State) : (s.setAddrErr).validated = s.validated := rfl
@[simp] theorem State.setAddrErr_slots (s : State) : (s.setAddrErr).slots = s.slots := rfl
@[simp] theorem State.setAddrErr_twf (s : State) : (s.setAddrErr).twf = s.twf := rfl
@[simp] theorem State.setAddrErr_twi (s : State) : (s.setAddrErr).twi = s.twi := rfl
@[simp] theorem State.setAddrErr_poly (s : State) : (s.setAddrErr).poly = s.poly := rfl
@[simp] theorem State.setAddrErr_ie (s : State) : (s.setAddrErr).ie = s.ie := rfl
@[simp] theorem State.setAddrErr_busy (s : State) : (s.setAddrErr).busy = s.busy := rfl
@[simp] theorem State.setAddrErr_done (s : State) : (s.setAddrErr).done = s.done := rfl
@[simp] theorem State.setAddrErr_hazard (s : State) : (s.setAddrErr).hazard = s.hazard := rfl
@[simp] theorem State.setAddrErr_addrerr (s : State) : (s.setAddrErr).addrerr = true := rfl
@[simp] theorem State.setAddrErr_errcode (s : State) : (s.setAddrErr).errcode = s.errcode := rfl
@[simp] theorem State.setAddrErr_lastcmd (s : State) : (s.setAddrErr).lastcmd = s.lastcmd := rfl
@[simp] theorem State.setAddrErr_errslot (s : State) : (s.setAddrErr).errslot = s.errslot := rfl
@[simp] theorem State.setAddrErr_errval (s : State) : (s.setAddrErr).errval = s.errval := rfl
@[simp] theorem State.setAddrErr_draws (s : State) : (s.setAddrErr).draws = s.draws := rfl
@[simp] theorem State.setAddrErr_epoch (s : State) : (s.setAddrErr).epoch = s.epoch := rfl
@[simp] theorem State.setAddrErr_rdata (s : State) : (s.setAddrErr).rdata = s.rdata := rfl
@[simp] theorem State.setAddrErr_events (s : State) : (s.setAddrErr).events = s.events := rfl

/-! ### `State.setHazard` -/

@[simp] theorem State.setHazard_cfg (s : State) : (s.setHazard).cfg = s.cfg := rfl
@[simp] theorem State.setHazard_a (s : State) : (s.setHazard).a = s.a := rfl
@[simp] theorem State.setHazard_b (s : State) : (s.setHazard).b = s.b := rfl
@[simp] theorem State.setHazard_c (s : State) : (s.setHazard).c = s.c := rfl
@[simp] theorem State.setHazard_q (s : State) : (s.setHazard).q = s.q := rfl
@[simp] theorem State.setHazard_km (s : State) : (s.setHazard).km = s.km := rfl
@[simp] theorem State.setHazard_kbl (s : State) : (s.setHazard).kbl = s.kbl := rfl
@[simp] theorem State.setHazard_kbh (s : State) : (s.setHazard).kbh = s.kbh := rfl
@[simp] theorem State.setHazard_r0 (s : State) : (s.setHazard).r0 = s.r0 := rfl
@[simp] theorem State.setHazard_r1 (s : State) : (s.setHazard).r1 = s.r1 := rfl
@[simp] theorem State.setHazard_nreq (s : State) : (s.setHazard).nreq = s.nreq := rfl
@[simp] theorem State.setHazard_lreq (s : State) : (s.setHazard).lreq = s.lreq := rfl
@[simp] theorem State.setHazard_qin (s : State) : (s.setHazard).qin = s.qin := rfl
@[simp] theorem State.setHazard_cn (s : State) : (s.setHazard).cn = s.cn := rfl
@[simp] theorem State.setHazard_clogn (s : State) : (s.setHazard).clogn = s.clogn := rfl
@[simp] theorem State.setHazard_cl (s : State) : (s.setHazard).cl = s.cl := rfl
@[simp] theorem State.setHazard_configured (s : State) : (s.setHazard).configured = s.configured := rfl
@[simp] theorem State.setHazard_validated (s : State) : (s.setHazard).validated = s.validated := rfl
@[simp] theorem State.setHazard_slots (s : State) : (s.setHazard).slots = s.slots := rfl
@[simp] theorem State.setHazard_twf (s : State) : (s.setHazard).twf = s.twf := rfl
@[simp] theorem State.setHazard_twi (s : State) : (s.setHazard).twi = s.twi := rfl
@[simp] theorem State.setHazard_poly (s : State) : (s.setHazard).poly = s.poly := rfl
@[simp] theorem State.setHazard_ie (s : State) : (s.setHazard).ie = s.ie := rfl
@[simp] theorem State.setHazard_busy (s : State) : (s.setHazard).busy = s.busy := rfl
@[simp] theorem State.setHazard_done (s : State) : (s.setHazard).done = s.done := rfl
@[simp] theorem State.setHazard_hazard (s : State) : (s.setHazard).hazard = true := rfl
@[simp] theorem State.setHazard_addrerr (s : State) : (s.setHazard).addrerr = s.addrerr := rfl
@[simp] theorem State.setHazard_errcode (s : State) : (s.setHazard).errcode = s.errcode := rfl
@[simp] theorem State.setHazard_lastcmd (s : State) : (s.setHazard).lastcmd = s.lastcmd := rfl
@[simp] theorem State.setHazard_errslot (s : State) : (s.setHazard).errslot = s.errslot := rfl
@[simp] theorem State.setHazard_errval (s : State) : (s.setHazard).errval = s.errval := rfl
@[simp] theorem State.setHazard_draws (s : State) : (s.setHazard).draws = s.draws := rfl
@[simp] theorem State.setHazard_epoch (s : State) : (s.setHazard).epoch = s.epoch := rfl
@[simp] theorem State.setHazard_rdata (s : State) : (s.setHazard).rdata = s.rdata := rfl
@[simp] theorem State.setHazard_events (s : State) : (s.setHazard).events = s.events := rfl

/-! ### `State.answer` -/

@[simp] theorem State.answer_cfg (s : State) (w : Word) : (s.answer w).cfg = s.cfg := rfl
@[simp] theorem State.answer_a (s : State) (w : Word) : (s.answer w).a = s.a := rfl
@[simp] theorem State.answer_b (s : State) (w : Word) : (s.answer w).b = s.b := rfl
@[simp] theorem State.answer_c (s : State) (w : Word) : (s.answer w).c = s.c := rfl
@[simp] theorem State.answer_q (s : State) (w : Word) : (s.answer w).q = s.q := rfl
@[simp] theorem State.answer_km (s : State) (w : Word) : (s.answer w).km = s.km := rfl
@[simp] theorem State.answer_kbl (s : State) (w : Word) : (s.answer w).kbl = s.kbl := rfl
@[simp] theorem State.answer_kbh (s : State) (w : Word) : (s.answer w).kbh = s.kbh := rfl
@[simp] theorem State.answer_r0 (s : State) (w : Word) : (s.answer w).r0 = s.r0 := rfl
@[simp] theorem State.answer_r1 (s : State) (w : Word) : (s.answer w).r1 = s.r1 := rfl
@[simp] theorem State.answer_nreq (s : State) (w : Word) : (s.answer w).nreq = s.nreq := rfl
@[simp] theorem State.answer_lreq (s : State) (w : Word) : (s.answer w).lreq = s.lreq := rfl
@[simp] theorem State.answer_qin (s : State) (w : Word) : (s.answer w).qin = s.qin := rfl
@[simp] theorem State.answer_cn (s : State) (w : Word) : (s.answer w).cn = s.cn := rfl
@[simp] theorem State.answer_clogn (s : State) (w : Word) : (s.answer w).clogn = s.clogn := rfl
@[simp] theorem State.answer_cl (s : State) (w : Word) : (s.answer w).cl = s.cl := rfl
@[simp] theorem State.answer_configured (s : State) (w : Word) : (s.answer w).configured = s.configured := rfl
@[simp] theorem State.answer_validated (s : State) (w : Word) : (s.answer w).validated = s.validated := rfl
@[simp] theorem State.answer_slots (s : State) (w : Word) : (s.answer w).slots = s.slots := rfl
@[simp] theorem State.answer_twf (s : State) (w : Word) : (s.answer w).twf = s.twf := rfl
@[simp] theorem State.answer_twi (s : State) (w : Word) : (s.answer w).twi = s.twi := rfl
@[simp] theorem State.answer_poly (s : State) (w : Word) : (s.answer w).poly = s.poly := rfl
@[simp] theorem State.answer_ie (s : State) (w : Word) : (s.answer w).ie = s.ie := rfl
@[simp] theorem State.answer_busy (s : State) (w : Word) : (s.answer w).busy = s.busy := rfl
@[simp] theorem State.answer_done (s : State) (w : Word) : (s.answer w).done = s.done := rfl
@[simp] theorem State.answer_hazard (s : State) (w : Word) : (s.answer w).hazard = s.hazard := rfl
@[simp] theorem State.answer_addrerr (s : State) (w : Word) : (s.answer w).addrerr = s.addrerr := rfl
@[simp] theorem State.answer_errcode (s : State) (w : Word) : (s.answer w).errcode = s.errcode := rfl
@[simp] theorem State.answer_lastcmd (s : State) (w : Word) : (s.answer w).lastcmd = s.lastcmd := rfl
@[simp] theorem State.answer_errslot (s : State) (w : Word) : (s.answer w).errslot = s.errslot := rfl
@[simp] theorem State.answer_errval (s : State) (w : Word) : (s.answer w).errval = s.errval := rfl
@[simp] theorem State.answer_draws (s : State) (w : Word) : (s.answer w).draws = s.draws := rfl
@[simp] theorem State.answer_epoch (s : State) (w : Word) : (s.answer w).epoch = s.epoch := rfl
@[simp] theorem State.answer_rdata (s : State) (w : Word) : (s.answer w).rdata = w := rfl
@[simp] theorem State.answer_events (s : State) (w : Word) : (s.answer w).events = s.events := rfl

/-! ### `State.accept` -/

@[simp] theorem State.accept_cfg (s : State) (v : Word) : (s.accept v).cfg = s.cfg := rfl
@[simp] theorem State.accept_a (s : State) (v : Word) : (s.accept v).a = s.a := rfl
@[simp] theorem State.accept_b (s : State) (v : Word) : (s.accept v).b = s.b := rfl
@[simp] theorem State.accept_c (s : State) (v : Word) : (s.accept v).c = s.c := rfl
@[simp] theorem State.accept_q (s : State) (v : Word) : (s.accept v).q = s.q := rfl
@[simp] theorem State.accept_km (s : State) (v : Word) : (s.accept v).km = s.km := rfl
@[simp] theorem State.accept_kbl (s : State) (v : Word) : (s.accept v).kbl = s.kbl := rfl
@[simp] theorem State.accept_kbh (s : State) (v : Word) : (s.accept v).kbh = s.kbh := rfl
@[simp] theorem State.accept_r0 (s : State) (v : Word) : (s.accept v).r0 = s.r0 := rfl
@[simp] theorem State.accept_r1 (s : State) (v : Word) : (s.accept v).r1 = s.r1 := rfl
@[simp] theorem State.accept_nreq (s : State) (v : Word) : (s.accept v).nreq = s.nreq := rfl
@[simp] theorem State.accept_lreq (s : State) (v : Word) : (s.accept v).lreq = s.lreq := rfl
@[simp] theorem State.accept_qin (s : State) (v : Word) : (s.accept v).qin = s.qin := rfl
@[simp] theorem State.accept_cn (s : State) (v : Word) : (s.accept v).cn = s.cn := rfl
@[simp] theorem State.accept_clogn (s : State) (v : Word) : (s.accept v).clogn = s.clogn := rfl
@[simp] theorem State.accept_cl (s : State) (v : Word) : (s.accept v).cl = s.cl := rfl
@[simp] theorem State.accept_configured (s : State) (v : Word) : (s.accept v).configured = s.configured := rfl
@[simp] theorem State.accept_validated (s : State) (v : Word) : (s.accept v).validated = s.validated := rfl
@[simp] theorem State.accept_slots (s : State) (v : Word) : (s.accept v).slots = s.slots := rfl
@[simp] theorem State.accept_twf (s : State) (v : Word) : (s.accept v).twf = s.twf := rfl
@[simp] theorem State.accept_twi (s : State) (v : Word) : (s.accept v).twi = s.twi := rfl
@[simp] theorem State.accept_poly (s : State) (v : Word) : (s.accept v).poly = s.poly := rfl
@[simp] theorem State.accept_ie (s : State) (v : Word) : (s.accept v).ie = s.ie := rfl
@[simp] theorem State.accept_busy (s : State) (v : Word) : (s.accept v).busy = true := rfl
@[simp] theorem State.accept_done (s : State) (v : Word) : (s.accept v).done = s.done := rfl
@[simp] theorem State.accept_hazard (s : State) (v : Word) : (s.accept v).hazard = s.hazard := rfl
@[simp] theorem State.accept_addrerr (s : State) (v : Word) : (s.accept v).addrerr = s.addrerr := rfl
@[simp] theorem State.accept_errcode (s : State) (v : Word) : (s.accept v).errcode = s.errcode := rfl
@[simp] theorem State.accept_lastcmd (s : State) (v : Word) : (s.accept v).lastcmd = v := rfl
@[simp] theorem State.accept_errslot (s : State) (v : Word) : (s.accept v).errslot = s.errslot := rfl
@[simp] theorem State.accept_errval (s : State) (v : Word) : (s.accept v).errval = s.errval := rfl
@[simp] theorem State.accept_draws (s : State) (v : Word) : (s.accept v).draws = s.draws := rfl
@[simp] theorem State.accept_epoch (s : State) (v : Word) : (s.accept v).epoch = s.epoch := rfl
@[simp] theorem State.accept_rdata (s : State) (v : Word) : (s.accept v).rdata = s.rdata := rfl
@[simp] theorem State.accept_events (s : State) (v : Word) : (s.accept v).events = s.events := rfl

/-! ### `State.setEvents` -/

@[simp] theorem State.setEvents_cfg (s : State) (es : List PortEvent) : (s.setEvents es).cfg = s.cfg := rfl
@[simp] theorem State.setEvents_a (s : State) (es : List PortEvent) : (s.setEvents es).a = s.a := rfl
@[simp] theorem State.setEvents_b (s : State) (es : List PortEvent) : (s.setEvents es).b = s.b := rfl
@[simp] theorem State.setEvents_c (s : State) (es : List PortEvent) : (s.setEvents es).c = s.c := rfl
@[simp] theorem State.setEvents_q (s : State) (es : List PortEvent) : (s.setEvents es).q = s.q := rfl
@[simp] theorem State.setEvents_km (s : State) (es : List PortEvent) : (s.setEvents es).km = s.km := rfl
@[simp] theorem State.setEvents_kbl (s : State) (es : List PortEvent) : (s.setEvents es).kbl = s.kbl := rfl
@[simp] theorem State.setEvents_kbh (s : State) (es : List PortEvent) : (s.setEvents es).kbh = s.kbh := rfl
@[simp] theorem State.setEvents_r0 (s : State) (es : List PortEvent) : (s.setEvents es).r0 = s.r0 := rfl
@[simp] theorem State.setEvents_r1 (s : State) (es : List PortEvent) : (s.setEvents es).r1 = s.r1 := rfl
@[simp] theorem State.setEvents_nreq (s : State) (es : List PortEvent) : (s.setEvents es).nreq = s.nreq := rfl
@[simp] theorem State.setEvents_lreq (s : State) (es : List PortEvent) : (s.setEvents es).lreq = s.lreq := rfl
@[simp] theorem State.setEvents_qin (s : State) (es : List PortEvent) : (s.setEvents es).qin = s.qin := rfl
@[simp] theorem State.setEvents_cn (s : State) (es : List PortEvent) : (s.setEvents es).cn = s.cn := rfl
@[simp] theorem State.setEvents_clogn (s : State) (es : List PortEvent) : (s.setEvents es).clogn = s.clogn := rfl
@[simp] theorem State.setEvents_cl (s : State) (es : List PortEvent) : (s.setEvents es).cl = s.cl := rfl
@[simp] theorem State.setEvents_configured (s : State) (es : List PortEvent) : (s.setEvents es).configured = s.configured := rfl
@[simp] theorem State.setEvents_validated (s : State) (es : List PortEvent) : (s.setEvents es).validated = s.validated := rfl
@[simp] theorem State.setEvents_slots (s : State) (es : List PortEvent) : (s.setEvents es).slots = s.slots := rfl
@[simp] theorem State.setEvents_twf (s : State) (es : List PortEvent) : (s.setEvents es).twf = s.twf := rfl
@[simp] theorem State.setEvents_twi (s : State) (es : List PortEvent) : (s.setEvents es).twi = s.twi := rfl
@[simp] theorem State.setEvents_poly (s : State) (es : List PortEvent) : (s.setEvents es).poly = s.poly := rfl
@[simp] theorem State.setEvents_ie (s : State) (es : List PortEvent) : (s.setEvents es).ie = s.ie := rfl
@[simp] theorem State.setEvents_busy (s : State) (es : List PortEvent) : (s.setEvents es).busy = s.busy := rfl
@[simp] theorem State.setEvents_done (s : State) (es : List PortEvent) : (s.setEvents es).done = s.done := rfl
@[simp] theorem State.setEvents_hazard (s : State) (es : List PortEvent) : (s.setEvents es).hazard = s.hazard := rfl
@[simp] theorem State.setEvents_addrerr (s : State) (es : List PortEvent) : (s.setEvents es).addrerr = s.addrerr := rfl
@[simp] theorem State.setEvents_errcode (s : State) (es : List PortEvent) : (s.setEvents es).errcode = s.errcode := rfl
@[simp] theorem State.setEvents_lastcmd (s : State) (es : List PortEvent) : (s.setEvents es).lastcmd = s.lastcmd := rfl
@[simp] theorem State.setEvents_errslot (s : State) (es : List PortEvent) : (s.setEvents es).errslot = s.errslot := rfl
@[simp] theorem State.setEvents_errval (s : State) (es : List PortEvent) : (s.setEvents es).errval = s.errval := rfl
@[simp] theorem State.setEvents_draws (s : State) (es : List PortEvent) : (s.setEvents es).draws = s.draws := rfl
@[simp] theorem State.setEvents_epoch (s : State) (es : List PortEvent) : (s.setEvents es).epoch = s.epoch := rfl
@[simp] theorem State.setEvents_rdata (s : State) (es : List PortEvent) : (s.setEvents es).rdata = s.rdata := rfl
@[simp] theorem State.setEvents_events (s : State) (es : List PortEvent) : (s.setEvents es).events = es := rfl

/-! ### `State.submitted` -/

@[simp] theorem State.submitted_cfg (s : State) (v : Word) : (s.submitted v).cfg = s.cfg := rfl
@[simp] theorem State.submitted_a (s : State) (v : Word) : (s.submitted v).a = s.a := rfl
@[simp] theorem State.submitted_b (s : State) (v : Word) : (s.submitted v).b = s.b := rfl
@[simp] theorem State.submitted_c (s : State) (v : Word) : (s.submitted v).c = s.c := rfl
@[simp] theorem State.submitted_q (s : State) (v : Word) : (s.submitted v).q = s.q := rfl
@[simp] theorem State.submitted_km (s : State) (v : Word) : (s.submitted v).km = s.km := rfl
@[simp] theorem State.submitted_kbl (s : State) (v : Word) : (s.submitted v).kbl = s.kbl := rfl
@[simp] theorem State.submitted_kbh (s : State) (v : Word) : (s.submitted v).kbh = s.kbh := rfl
@[simp] theorem State.submitted_r0 (s : State) (v : Word) : (s.submitted v).r0 = s.r0 := rfl
@[simp] theorem State.submitted_r1 (s : State) (v : Word) : (s.submitted v).r1 = s.r1 := rfl
@[simp] theorem State.submitted_nreq (s : State) (v : Word) : (s.submitted v).nreq = s.nreq := rfl
@[simp] theorem State.submitted_lreq (s : State) (v : Word) : (s.submitted v).lreq = s.lreq := rfl
@[simp] theorem State.submitted_qin (s : State) (v : Word) : (s.submitted v).qin = s.qin := rfl
@[simp] theorem State.submitted_cn (s : State) (v : Word) : (s.submitted v).cn = s.cn := rfl
@[simp] theorem State.submitted_clogn (s : State) (v : Word) : (s.submitted v).clogn = s.clogn := rfl
@[simp] theorem State.submitted_cl (s : State) (v : Word) : (s.submitted v).cl = s.cl := rfl
@[simp] theorem State.submitted_configured (s : State) (v : Word) : (s.submitted v).configured = s.configured := rfl
@[simp] theorem State.submitted_validated (s : State) (v : Word) : (s.submitted v).validated = s.validated := rfl
@[simp] theorem State.submitted_slots (s : State) (v : Word) : (s.submitted v).slots = s.slots := rfl
@[simp] theorem State.submitted_twf (s : State) (v : Word) : (s.submitted v).twf = s.twf := rfl
@[simp] theorem State.submitted_twi (s : State) (v : Word) : (s.submitted v).twi = s.twi := rfl
@[simp] theorem State.submitted_poly (s : State) (v : Word) : (s.submitted v).poly = s.poly := rfl
@[simp] theorem State.submitted_ie (s : State) (v : Word) : (s.submitted v).ie = s.ie := rfl
@[simp] theorem State.submitted_busy (s : State) (v : Word) : (s.submitted v).busy = true := rfl
@[simp] theorem State.submitted_done (s : State) (v : Word) : (s.submitted v).done = s.done := rfl
@[simp] theorem State.submitted_hazard (s : State) (v : Word) : (s.submitted v).hazard = s.hazard := rfl
@[simp] theorem State.submitted_addrerr (s : State) (v : Word) : (s.submitted v).addrerr = s.addrerr := rfl
@[simp] theorem State.submitted_errcode (s : State) (v : Word) : (s.submitted v).errcode = s.errcode := rfl
@[simp] theorem State.submitted_lastcmd (s : State) (v : Word) : (s.submitted v).lastcmd = v := rfl
@[simp] theorem State.submitted_errslot (s : State) (v : Word) : (s.submitted v).errslot = s.errslot := rfl
@[simp] theorem State.submitted_errval (s : State) (v : Word) : (s.submitted v).errval = s.errval := rfl
@[simp] theorem State.submitted_draws (s : State) (v : Word) : (s.submitted v).draws = s.draws := rfl
@[simp] theorem State.submitted_epoch (s : State) (v : Word) : (s.submitted v).epoch = s.epoch := rfl
@[simp] theorem State.submitted_rdata (s : State) (v : Word) : (s.submitted v).rdata = s.rdata := rfl
@[simp] theorem State.submitted_events (s : State) (v : Word) : (s.submitted v).events = .unit :: s.events := rfl

/-! ### `State.assertReset` -/

@[simp] theorem State.assertReset_cfg (s : State) : (s.assertReset).cfg = s.cfg := rfl
@[simp] theorem State.assertReset_a (s : State) : (s.assertReset).a = 0 := rfl
@[simp] theorem State.assertReset_b (s : State) : (s.assertReset).b = 0 := rfl
@[simp] theorem State.assertReset_c (s : State) : (s.assertReset).c = 0 := rfl
@[simp] theorem State.assertReset_q (s : State) : (s.assertReset).q = 0 := rfl
@[simp] theorem State.assertReset_km (s : State) : (s.assertReset).km = 0 := rfl
@[simp] theorem State.assertReset_kbl (s : State) : (s.assertReset).kbl = 0 := rfl
@[simp] theorem State.assertReset_kbh (s : State) : (s.assertReset).kbh = 0 := rfl
@[simp] theorem State.assertReset_r0 (s : State) : (s.assertReset).r0 = 0 := rfl
@[simp] theorem State.assertReset_r1 (s : State) : (s.assertReset).r1 = 0 := rfl
@[simp] theorem State.assertReset_nreq (s : State) : (s.assertReset).nreq = 0 := rfl
@[simp] theorem State.assertReset_lreq (s : State) : (s.assertReset).lreq = 0 := rfl
@[simp] theorem State.assertReset_qin (s : State) : (s.assertReset).qin = List.replicate s.cfg.lmax 0 := rfl
@[simp] theorem State.assertReset_cn (s : State) : (s.assertReset).cn = 0 := rfl
@[simp] theorem State.assertReset_clogn (s : State) : (s.assertReset).clogn = 0 := rfl
@[simp] theorem State.assertReset_cl (s : State) : (s.assertReset).cl = 0 := rfl
@[simp] theorem State.assertReset_configured (s : State) : (s.assertReset).configured = false := rfl
@[simp] theorem State.assertReset_validated (s : State) : (s.assertReset).validated = false := rfl
@[simp] theorem State.assertReset_slots (s : State) : (s.assertReset).slots = List.replicate s.cfg.lmax Slot.zero := rfl
@[simp] theorem State.assertReset_twf (s : State) : (s.assertReset).twf = [] := rfl
@[simp] theorem State.assertReset_twi (s : State) : (s.assertReset).twi = [] := rfl
@[simp] theorem State.assertReset_poly (s : State) : (s.assertReset).poly = [] := rfl
@[simp] theorem State.assertReset_ie (s : State) : (s.assertReset).ie = false := rfl
@[simp] theorem State.assertReset_busy (s : State) : (s.assertReset).busy = false := rfl
@[simp] theorem State.assertReset_done (s : State) : (s.assertReset).done = false := rfl
@[simp] theorem State.assertReset_hazard (s : State) : (s.assertReset).hazard = false := rfl
@[simp] theorem State.assertReset_addrerr (s : State) : (s.assertReset).addrerr = false := rfl
@[simp] theorem State.assertReset_errcode (s : State) : (s.assertReset).errcode = .ok := rfl
@[simp] theorem State.assertReset_lastcmd (s : State) : (s.assertReset).lastcmd = 0 := rfl
@[simp] theorem State.assertReset_errslot (s : State) : (s.assertReset).errslot = 0 := rfl
@[simp] theorem State.assertReset_errval (s : State) : (s.assertReset).errval = 0 := rfl
@[simp] theorem State.assertReset_draws (s : State) : (s.assertReset).draws = s.draws := rfl
@[simp] theorem State.assertReset_epoch (s : State) : (s.assertReset).epoch = s.epoch + 1 := rfl
@[simp] theorem State.assertReset_rdata (s : State) : (s.assertReset).rdata = 0 := rfl
@[simp] theorem State.assertReset_events (s : State) : (s.assertReset).events = s.events := rfl

/-! ### `State.resetWith` -/

@[simp] theorem State.resetWith_cfg (k : Config) : (State.resetWith k).cfg = k := rfl
@[simp] theorem State.resetWith_a (k : Config) : (State.resetWith k).a = 0 := rfl
@[simp] theorem State.resetWith_b (k : Config) : (State.resetWith k).b = 0 := rfl
@[simp] theorem State.resetWith_c (k : Config) : (State.resetWith k).c = 0 := rfl
@[simp] theorem State.resetWith_q (k : Config) : (State.resetWith k).q = 0 := rfl
@[simp] theorem State.resetWith_km (k : Config) : (State.resetWith k).km = 0 := rfl
@[simp] theorem State.resetWith_kbl (k : Config) : (State.resetWith k).kbl = 0 := rfl
@[simp] theorem State.resetWith_kbh (k : Config) : (State.resetWith k).kbh = 0 := rfl
@[simp] theorem State.resetWith_r0 (k : Config) : (State.resetWith k).r0 = 0 := rfl
@[simp] theorem State.resetWith_r1 (k : Config) : (State.resetWith k).r1 = 0 := rfl
@[simp] theorem State.resetWith_nreq (k : Config) : (State.resetWith k).nreq = 0 := rfl
@[simp] theorem State.resetWith_lreq (k : Config) : (State.resetWith k).lreq = 0 := rfl
@[simp] theorem State.resetWith_qin (k : Config) : (State.resetWith k).qin = List.replicate k.lmax 0 := rfl
@[simp] theorem State.resetWith_cn (k : Config) : (State.resetWith k).cn = 0 := rfl
@[simp] theorem State.resetWith_clogn (k : Config) : (State.resetWith k).clogn = 0 := rfl
@[simp] theorem State.resetWith_cl (k : Config) : (State.resetWith k).cl = 0 := rfl
@[simp] theorem State.resetWith_configured (k : Config) : (State.resetWith k).configured = false := rfl
@[simp] theorem State.resetWith_validated (k : Config) : (State.resetWith k).validated = false := rfl
@[simp] theorem State.resetWith_slots (k : Config) : (State.resetWith k).slots = List.replicate k.lmax Slot.zero := rfl
@[simp] theorem State.resetWith_twf (k : Config) : (State.resetWith k).twf = [] := rfl
@[simp] theorem State.resetWith_twi (k : Config) : (State.resetWith k).twi = [] := rfl
@[simp] theorem State.resetWith_poly (k : Config) : (State.resetWith k).poly = [] := rfl
@[simp] theorem State.resetWith_ie (k : Config) : (State.resetWith k).ie = false := rfl
@[simp] theorem State.resetWith_busy (k : Config) : (State.resetWith k).busy = false := rfl
@[simp] theorem State.resetWith_done (k : Config) : (State.resetWith k).done = false := rfl
@[simp] theorem State.resetWith_hazard (k : Config) : (State.resetWith k).hazard = false := rfl
@[simp] theorem State.resetWith_addrerr (k : Config) : (State.resetWith k).addrerr = false := rfl
@[simp] theorem State.resetWith_errcode (k : Config) : (State.resetWith k).errcode = .ok := rfl
@[simp] theorem State.resetWith_lastcmd (k : Config) : (State.resetWith k).lastcmd = 0 := rfl
@[simp] theorem State.resetWith_errslot (k : Config) : (State.resetWith k).errslot = 0 := rfl
@[simp] theorem State.resetWith_errval (k : Config) : (State.resetWith k).errval = 0 := rfl
@[simp] theorem State.resetWith_draws (k : Config) : (State.resetWith k).draws = 0 := rfl
@[simp] theorem State.resetWith_epoch (k : Config) : (State.resetWith k).epoch = 0 := rfl
@[simp] theorem State.resetWith_rdata (k : Config) : (State.resetWith k).rdata = 0 := rfl
@[simp] theorem State.resetWith_events (k : Config) : (State.resetWith k).events = [] := rfl

end Sys2Proof.Machine
end

