-- ==== Sys2Proof/Laws/Ops.lean ====
section
/-! SUPPORT. What each shared operation can do, said once. -/

namespace Sys2Proof.Machine

/-! ### Completion -/

theorem State.completeWith_eq_finished (s : State) (e : ErrCode) : s.completeWith e = s.finished e := rfl

/-! ### The two ways a scalar command ends (rules R14, R120) -/

theorem State.anyW_fits (s : State) (j : Nat) : (s.anyW j).toNat < s.cfg.R := mkWord_fits _ _

/-- Inside its contract a command that writes `R0` writes the value of its rule. -/
theorem State.finishR0_inside {s : State} {ok : Bool} (h : ok = true) (v : Nat) :
    s.finishR0 ok v = State.finished .ok { s with r0 := mkWord s.cfg v } := by
  simp only [State.finishR0, h, if_true]
  rfl

/-- Outside its contract it writes a free value. -/
theorem State.finishR0_outside {s : State} {ok : Bool} (h : ok = false) (v : Nat) :
    s.finishR0 ok v = State.finished .ok { s with r0 := s.anyW 0, draws := s.draws + 1 } := by
  simp only [State.finishR0, h]
  rfl

theorem State.finishR0R1_inside {s : State} {ok : Bool} (h : ok = true) (v : Nat × Nat) :
    s.finishR0R1 ok v = State.finished .ok { s with r0 := mkWord s.cfg v.1, r1 := mkWord s.cfg v.2 } := by
  simp only [State.finishR0R1, h, if_true]
  rfl

theorem State.finishR0R1_outside {s : State} {ok : Bool} (h : ok = false) (v : Nat × Nat) :
    s.finishR0R1 ok v
      = State.finished .ok { s with r0 := s.anyW 0, r1 := s.anyW 1, draws := s.draws + 2 } := by
  simp only [State.finishR0R1, h]
  rfl

/-- Everything a command that writes `R0` can do. -/
theorem State.finishR0_cases (s : State) (ok : Bool) (v : Nat) :
    ∃ w n, w.toNat < s.cfg.R ∧ s.finishR0 ok v = State.finished .ok { s with r0 := w, draws := n } := by
  cases ok with
  | true => exact ⟨_, s.draws, mkWord_fits s.cfg v, State.finishR0_inside rfl v⟩
  | false => exact ⟨_, _, s.anyW_fits 0, State.finishR0_outside rfl v⟩

/-- Everything a command that writes `R0` and `R1` can do. -/
theorem State.finishR0R1_cases (s : State) (ok : Bool) (v : Nat × Nat) :
    ∃ w x n, w.toNat < s.cfg.R ∧ x.toNat < s.cfg.R
      ∧ s.finishR0R1 ok v = State.finished .ok { s with r0 := w, r1 := x, draws := n } := by
  cases ok with
  | true => exact ⟨_, _, s.draws, mkWord_fits s.cfg v.1, mkWord_fits s.cfg v.2, State.finishR0R1_inside rfl v⟩
  | false => exact ⟨_, _, _, s.anyW_fits 0, s.anyW_fits 1, State.finishR0R1_outside rfl v⟩

/-! ### The contract tests decide the contracts of rule R120 -/

theorem coprime_two_pow {q : Nat} (h : q % 2 = 1) (k : Nat) : Nat.Coprime q (2 ^ k) := by
  apply Nat.Coprime.pow_right
  rw [Nat.coprime_comm, Nat.coprime_two_left, Nat.odd_iff]
  exact h

theorem Config.one_lt_R (c : Config) : 1 < c.R := by
  have h := Config.qmax_lt c
  have : 0 < c.qmax := Nat.two_pow_pos _
  omega

theorem montOk_iff (c : Config) (q km : Nat) : montOk c q km = true ↔ MontContract c q km := by
  simp only [montOk, MontContract, Bool.and_eq_true, beq_iff_eq, decide_eq_true_eq, montConst]
  constructor
  · rintro ⟨⟨⟨h1, h2⟩, h3⟩, h4⟩
    obtain ⟨i1, i2⟩ := invMod_spec (Config.one_lt_R c) (coprime_two_pow h1 c.W)
    exact ⟨h1, h2, h3, _, i1, i2, h4⟩
  · rintro ⟨h1, h2, h3, u, h4, h5, h6⟩
    refine ⟨⟨⟨h1, h2⟩, h3⟩, ?_⟩
    rw [invMod_unique (Config.one_lt_R c) (coprime_two_pow h1 c.W) h4 h5, h6]

theorem modOk_iff (c : Config) (q : Nat) : modOk c q = true ↔ ModContract c q := by
  simp [modOk, ModContract]

theorem barOk_iff (c : Config) (q kbl kbh : Nat) : barOk c q kbl kbh = true ↔ BarContract c q kbl kbh := by
  simp [barOk, BarContract, modOk, ModContract, barrettConst]

/-! ### The transform commands -/

@[simp] theorem State.transformSlot_cfg (tr : State → Nat → List Nat → List Nat) (buf : BitVec 4) (s : State) (i : Nat) :
    (State.transformSlot tr buf s i).cfg = s.cfg := by
  unfold State.transformSlot State.scrambleSlot
  split <;> rfl

/-- Everything one slot of a transform command can do: it writes the words of its own array, and may draw. -/
theorem State.transformSlot_cases (tr : State → Nat → List Nat → List Nat) (buf : BitVec 4) (s : State) (i : Nat) :
    ∃ ws n, (∀ w ∈ ws, w.toNat < s.cfg.R)
      ∧ (ws.length = (tr s i (s.coeffs buf i)).length ∨ ws.length = s.cn.toNat)
      ∧ State.transformSlot tr buf s i
        = { s with poly := s.poly.writeList (polyAddr s.cfg buf.toNat i 0) ws, draws := n } := by
  unfold State.transformSlot
  split
  · refine ⟨_, s.draws, ?_, .inl (by simp), rfl⟩
    intro w hw
    obtain ⟨x, -, rfl⟩ := List.mem_map.1 hw
    exact mkWord_fits _ _
  · refine ⟨_, s.draws + s.cn.toNat, ?_, .inr (by simp), rfl⟩
    intro w hw
    obtain ⟨x, -, rfl⟩ := List.mem_map.1 hw
    exact s.anyW_fits _

/-- Everything a transform command can do: an error, or every selected slot in order. -/
theorem State.transform_cases (tr : State → Nat → List Nat → List Nat) (buf : BitVec 4) (all : Bool)
    (slot : BitVec 6) (s : State) :
    (∃ e, s.transformError buf all slot = some e ∧ s.transform tr buf all slot = s.finished e)
      ∨ (s.transformError buf all slot = none
        ∧ s.transform tr buf all slot
          = ((s.selected all slot).foldl (State.transformSlot tr buf) s).finished .ok) := by
  unfold State.transform
  cases h : s.transformError buf all slot with
  | none => exact .inr ⟨rfl, rfl⟩
  | some e => exact .inl ⟨e, rfl, rfl⟩

/-! ### The precompute of `VALIDATE` -/

/-- `Precompute(i)` changes the slot file and the twiddle RAMs only. -/
theorem State.precompute_cases (s : State) (i : Nat) :
    ∃ v f g, s.precompute i = { s with slots := s.slots.set i v, twf := f, twi := g } := ⟨_, _, _, rfl⟩

/-- The precompute of every slot changes the slot file and the twiddle RAMs only, and sets `VALIDATED`. -/
theorem State.precomputeAll_cases (s : State) :
    ∃ v f g, s.precomputeAll = { s with slots := v, twf := f, twi := g, validated := true } := by
  have h : ∀ l : List Nat, ∀ t : State,
      ∃ v f g, l.foldl State.precompute t = { t with slots := v, twf := f, twi := g } := by
    intro l
    induction l with
    | nil => exact fun t => ⟨t.slots, t.twf, t.twi, rfl⟩
    | cons i l ih =>
      intro t
      obtain ⟨v, f, g, e⟩ := ih (t.precompute i)
      exact ⟨v, f, g, by rw [List.foldl_cons, e]; rfl⟩
  obtain ⟨v, f, g, e⟩ := h (List.range s.cl.toNat) s
  exact ⟨v, f, g, by rw [State.precomputeAll, e]⟩

/-! ### The context commands -/

/-- Everything `VALIDATE` can do (rules R172, R173, R178). -/
theorem execValidate_cases (s : State) :
    (s.configured = false ∧ execValidate s = .next (s.finished .notConfigured))
      ∨ (s.configured = true ∧ s.validated = true ∧ execValidate s = .next (s.finished .ok))
      ∨ (s.configured = true ∧ s.validated = false ∧ ∃ i, s.firstBadSlot = some i
        ∧ execValidate s = .next ((s.reportSlot i).finished .nonNttCompatibleModulus))
      ∨ (s.configured = true ∧ s.validated = false ∧ s.firstBadSlot = none
        ∧ execValidate s = .next (s.precomputeAll.finished .ok)) := by
  unfold execValidate
  cases hc : s.configured with
  | false => exact .inl ⟨rfl, rfl⟩
  | true =>
    cases hv : s.validated with
    | true => exact .inr (.inl ⟨rfl, rfl, rfl⟩)
    | false =>
      cases hb : s.firstBadSlot with
      | some i => exact .inr (.inr (.inl ⟨rfl, rfl, i, rfl, rfl⟩))
      | none => exact .inr (.inr (.inr ⟨rfl, rfl, rfl, rfl⟩))

/-- Everything `CTXSET` can do (rule R170). -/
theorem execCtxset_cases (s : State) :
    (s.degreeOk = false ∧ execCtxset s = .next (s.finished .invalidDegree))
      ∨ (s.degreeOk = true ∧ s.lengthOk = false ∧ execCtxset s = .next (s.finished .invalidBasisLength))
      ∨ (s.degreeOk = true ∧ s.lengthOk = true ∧ execCtxset s = .next (s.commitRequest.finished .ok)) := by
  unfold execCtxset
  cases hd : s.degreeOk with
  | false => exact .inl ⟨rfl, rfl⟩
  | true =>
    cases hl : s.lengthOk with
    | false => exact .inr (.inl ⟨rfl, rfl, rfl⟩)
    | true => exact .inr (.inr ⟨rfl, rfl, rfl⟩)

/-- Everything `CTXLD` can do (rule R179). -/
theorem execCtxld_cases (slot : BitVec 6) (s : State) :
    (s.cl.toNat ≤ slot.toNat ∧ execCtxld slot s = .next (s.finished .badSlot))
      ∨ (slot.toNat < s.cl.toNat
        ∧ execCtxld slot s = .next ((s.loadModulus (s.slot slot.toNat)).finished .ok)) := by
  unfold execCtxld
  by_cases h : s.cl.toNat ≤ slot.toNat
  · exact .inl ⟨h, by rw [if_pos h]; rfl⟩
  · exact .inr ⟨by omega, by rw [if_neg h]; rfl⟩

/-! ### The port -/

/-- Everything a host read can do (rules R63, R65, R66). -/
theorem State.hostRead_cases (addr : Nat) (s : State) :
    (s.busy = true ∧ 4 < addr ∧ s.hostRead addr = (s.answer (s.anyW 0)).spend 1)
      ∨ ((s.busy = false ∨ addr ≤ 4) ∧ ∃ l, locOf s.cfg addr = some l ∧ s.hostRead addr = s.answer (s.readLoc l))
      ∨ ((s.busy = false ∨ addr ≤ 4) ∧ locOf s.cfg addr = none ∧ s.hostRead addr = (s.answer 0).setAddrErr) := by
  unfold State.hostRead readableWhileBusy
  by_cases hb : s.busy = true ∧ 4 < addr
  · left
    refine ⟨hb.1, hb.2, ?_⟩
    simp [hb.1, hb.2]
  · right
    have hn : (s.busy && !decide (addr ≤ 4)) = false := by
      cases h : s.busy <;> simp_all
    have hor : s.busy = false ∨ addr ≤ 4 := by
      cases h : s.busy <;> simp_all
    rw [hn]
    cases hl : locOf s.cfg addr with
    | some l => exact .inl ⟨hor, l, rfl, rfl⟩
    | none => exact .inr ⟨hor, rfl, rfl⟩

/-- Everything a host write can do (rules R64 to R66). -/
theorem State.hostWriteWord_cases (addr : Nat) (v : Word) (s : State) :
    (addr = 3 ∧ s.hostWriteWord addr v = s.writeStatus v)
      ∨ (addr = 2 ∧ s.hostWriteWord addr v = s.writeCtrl v)
      ∨ (addr ≠ 3 ∧ addr ≠ 2 ∧ s.busy = true ∧ s.hostWriteWord addr v = s.setHazard)
      ∨ (addr = 4 ∧ s.busy = false ∧ s.hostWriteWord addr v = s.accept v)
      ∨ (s.busy = false ∧ ∃ l, locOf s.cfg addr = some l ∧ l.writable = true
        ∧ s.hostWriteWord addr v = s.writeLoc l v)
      ∨ (s.busy = false ∧ s.hostWriteWord addr v = s.setAddrErr) := by
  unfold State.hostWriteWord
  by_cases h3 : addr = 3
  · exact .inl ⟨h3, by rw [if_pos h3]⟩
  · rw [if_neg h3]
    by_cases h2 : addr = 2
    · exact .inr (.inl ⟨h2, by rw [if_pos h2]⟩)
    · rw [if_neg h2]
      by_cases hb : s.busy = true
      · exact .inr (.inr (.inl ⟨h3, h2, hb, by rw [if_pos hb]⟩))
      · rw [if_neg hb]
        have hb' : s.busy = false := by simpa using hb
        by_cases h4 : addr = 4
        · exact .inr (.inr (.inr (.inl ⟨h4, hb', by rw [if_pos h4]⟩)))
        · rw [if_neg h4]
          refine .inr (.inr (.inr (.inr ?_)))
          cases hl : locOf s.cfg addr with
          | none => exact .inr ⟨hb', rfl⟩
          | some l =>
            cases hw : l.writable with
            | true => exact .inl ⟨hb', l, rfl, hw, by simp [hw]⟩
            | false => exact .inr ⟨hb', by simp [hw]⟩

end Sys2Proof.Machine
end

