-- ==== Sys2Proof/Laws/Montgomery.lean ====
section
/-! SUPPORT. The law of the Montgomery reduction (rule R121): what `redcLax` and `redc` compute under `MontOK`. -/

namespace Sys2Proof.Machine

/-- `KM · Q ≡ −1 (mod 2^W)` under `MontOK`. -/
theorem MontContract.km_mul {k : Config} {q km : Nat} (h : MontContract k q km) : (km * q + 1) % k.R = 0 := by
  obtain ⟨-, -, -, u, hu, hqu, rfl⟩ := h
  have hR := Config.one_lt_R k
  have hu0 : u ≠ 0 := by
    rintro rfl
    simp at hqu
  rw [Nat.mod_eq_of_lt (show k.R - u < k.R by omega), Nat.sub_mul]
  have h1 : u * q ≤ k.R * q := Nat.mul_le_mul_right _ hu.le
  have h2 : (k.R * q - u * q + 1 + u * q) % k.R = (0 + u * q) % k.R := by
    have : k.R * q - u * q + 1 + u * q = k.R * q + 1 := by omega
    rw [this, Nat.mul_comm u q, Nat.zero_add, hqu, Nat.add_comm, Nat.add_mul_mod_self_left, Nat.mod_eq_of_lt hR]
  exact Nat.ModEq.add_right_cancel' (u * q) (h2 : _ ≡ 0 + u * q [MOD k.R])

/-- The exact lax value: `t · 2^W = T + m · Q`, with `m` as rule R121 gives it. -/
theorem redcLax_mul {k : Config} {q km : Nat} (h : MontContract k q km) (T : Nat) :
    redcLax k q km T * k.R = T + T % k.R * km % k.R * q := by
  have hdvd : k.R ∣ T + T % k.R * km % k.R * q := by
    have e : T + T % k.R * km % k.R * q ≡ T * (km * q + 1) [MOD k.R] := by
      have e1 : T % k.R * km % k.R * q ≡ T * km * q [MOD k.R] :=
        Nat.ModEq.mul_right q ((Nat.mod_modEq _ _).trans ((Nat.mod_modEq T k.R).mul_right km))
      calc T + T % k.R * km % k.R * q ≡ T + T * km * q [MOD k.R] := e1.add_left T
        _ = T * (km * q + 1) := by ring
    have e2 : T * (km * q + 1) ≡ T * 0 [MOD k.R] := Nat.ModEq.mul_left T (h.km_mul : _ ≡ 0 [MOD k.R])
    exact (Nat.modEq_zero_iff_dvd).1 (e.trans e2)
  exact Nat.div_mul_cancel hdvd

/-- `REDC_lax(T) < 2Q` for `T < Q · 2^W`, whatever `KM` is (rule R137). -/
theorem redcLax_lt {k : Config} {q km T : Nat} (hT : T < q * k.R) : redcLax k q km T < 2 * q := by
  have hm : T % k.R * km % k.R < k.R := Nat.mod_lt _ (Config.R_pos k)
  have hle : T % k.R * km % k.R * q ≤ k.R * q := Nat.mul_le_mul_right _ hm.le
  unfold redcLax
  rw [Nat.div_lt_iff_lt_mul (Config.R_pos k)]
  nlinarith

/-- The radix has an inverse modulo an odd `Q ≥ 3`. -/
theorem exists_radixInverse (k : Config) {q : Nat} (h3 : 3 ≤ q) (hodd : q % 2 = 1) : ∃ u, RadixInverse k q u := by
  obtain ⟨h1, h2⟩ := invMod_spec (a := k.R) (m := q) (by omega) (Nat.coprime_comm.1 (coprime_two_pow hodd k.W))
  exact ⟨_, h1, h2⟩

/-- `REDC_lax(T) ≡ T · inv_Q(2^W) (mod Q)` (rule R121). -/
theorem redcLax_mod {k : Config} {q km u : Nat} (h : MontContract k q km) (hu : RadixInverse k q u) (T : Nat) :
    redcLax k q km T % q = T * u % q := by
  have e := redcLax_mul h T
  have h1 : redcLax k q km T * (k.R * u) ≡ redcLax k q km T * 1 [MOD q] := by
    apply Nat.ModEq.mul_left
    have h3 : 3 ≤ q := h.2.1
    rw [Nat.ModEq, hu.2, Nat.mod_eq_of_lt (by omega)]
  have h2 : redcLax k q km T * (k.R * u) = (T + T % k.R * km % k.R * q) * u := by
    rw [← e]
    ring
  have h3 : (T + T % k.R * km % k.R * q) * u ≡ T * u [MOD q] := by
    apply Nat.ModEq.mul_right
    simp [Nat.ModEq]
  have := h1.symm.trans (h2 ▸ h3)
  simpa [Nat.ModEq] using this

/-- `REDC(T) = T · inv_Q(2^W) mod Q` for `T < Q · 2^W` (rule R121). -/
theorem redc_eq {k : Config} {q km u T : Nat} (h : MontContract k q km) (hu : RadixInverse k q u)
    (hT : T < q * k.R) : redc k q km T = T * u % q := by
  have hlt := redcLax_lt (km := km) hT
  have hq : 0 < q := by
    have := h.2.1
    omega
  rw [← redcLax_mod h hu T]
  unfold redc
  split
  · rename_i hge
    rw [Nat.mod_eq_sub_mod hge, Nat.mod_eq_of_lt (by omega)]
  · rename_i hge
    rw [Nat.mod_eq_of_lt (by omega)]

/-- A strict reduction is below `Q`. -/
theorem redc_lt {k : Config} {q km T : Nat} (hT : T < q * k.R) : redc k q km T < q := by
  have hlt := redcLax_lt (km := km) hT
  unfold redc
  split <;> omega

/-- Reducing a product with the Montgomery form of `w` multiplies by `w` (rules R12, R121). -/
theorem redc_montForm {k : Config} {q km x w : Nat} (h : MontContract k q km) (hx : x < q) :
    redc k q km (x * montForm k q w) = x * w % q := by
  obtain ⟨hodd, h3, hq, -⟩ := id h
  obtain ⟨u, hu⟩ := exists_radixInverse k h3 hodd
  have hR := Config.qmax_lt k
  have hlt : montForm k q w < q := Nat.mod_lt _ (by omega)
  have hT : x * montForm k q w < q * k.R := by
    calc x * montForm k q w ≤ x * k.R := Nat.mul_le_mul_left _ (by omega)
      _ < q * k.R := Nat.mul_lt_mul_of_pos_right hx (Config.R_pos k)
  rw [redc_eq h hu hT]
  have e1 : montForm k q w ≡ w * k.R [MOD q] := Nat.mod_modEq _ _
  have e2 : k.R * u ≡ 1 [MOD q] := by
    rw [Nat.ModEq, hu.2, Nat.mod_eq_of_lt (by omega)]
  calc x * montForm k q w * u ≡ x * (w * k.R) * u [MOD q] := (e1.mul_left x).mul_right u
    _ = x * w * (k.R * u) := by ring
    _ ≡ x * w * 1 [MOD q] := e2.mul_left _
    _ = x * w := by ring

end Sys2Proof.Machine
end

