-- ==== Sys2Proof/Laws/PerInstr.lean ====
section
/-! SUPPORT. Statements made for every instruction, one lemma per constructor. -/

namespace Sys2Proof.Laws.WordShape

/-- The opcode of rule R93 for each command. -/
def opcodeOf : Instr → Nat
  | .nop => 0x00
  | .mform => 0x10
  | .mtos => 0x11
  | .mred => 0x12
  | .mredLazy => 0x12
  | .bred => 0x13
  | .cred => 0x14
  | .madd => 0x15
  | .msub => 0x16
  | .modpow => 0x17
  | .fred => 0x18
  | .mconst => 0x19
  | .bconst => 0x1A
  | .bfct => 0x20
  | .bfgs => 0x21
  | .ctxset => 0x30
  | .validate => 0x31
  | .ctxld _ => 0x32
  | .nttf _ _ _ => 0x40
  | .ntti _ _ _ => 0x41

/-- A command's word has its opcode of rule R93 in bits 7:0 and no reserved bit set (rules R90, R91). -/
def Statement (i : Instr) : Prop := (encode i).toNat % 256 = opcodeOf i ∧ (encode i).toNat < 2 ^ 20

theorem nop : Statement .nop := by unfold Statement; decide
theorem mform : Statement .mform := by unfold Statement; decide
theorem mtos : Statement .mtos := by unfold Statement; decide
theorem mred : Statement .mred := by unfold Statement; decide
theorem mredLazy : Statement .mredLazy := by unfold Statement; decide
theorem bred : Statement .bred := by unfold Statement; decide
theorem cred : Statement .cred := by unfold Statement; decide
theorem madd : Statement .madd := by unfold Statement; decide
theorem msub : Statement .msub := by unfold Statement; decide
theorem modpow : Statement .modpow := by unfold Statement; decide
theorem fred : Statement .fred := by unfold Statement; decide
theorem mconst : Statement .mconst := by unfold Statement; decide
theorem bconst : Statement .bconst := by unfold Statement; decide
theorem bfct : Statement .bfct := by unfold Statement; decide
theorem bfgs : Statement .bfgs := by unfold Statement; decide
theorem ctxset : Statement .ctxset := by unfold Statement; decide
theorem validate : Statement .validate := by unfold Statement; decide
theorem ctxld (slot : BitVec 6) : Statement (.ctxld slot) := by revert slot; unfold Statement; decide
theorem nttf (buf : BitVec 4) (all : Bool) (slot : BitVec 6) : Statement (.nttf buf all slot) := by
  revert buf all slot; unfold Statement; decide
theorem ntti (buf : BitVec 4) (all : Bool) (slot : BitVec 6) : Statement (.ntti buf all slot) := by
  revert buf all slot; unfold Statement; decide

end Sys2Proof.Laws.WordShape
end

