-- ==== Sys2Proof/Laws/Step.lean ====
section
/-! SUPPORT. What a step can do, said once. -/

namespace Sys2Proof.Machine

/-- The unit's turn: the command in flight, an illegal word's completion, or nothing. -/
theorem unitStep_cases (s : State) :
    (s.busy = false ∧ unitStep s = .next s)
      ∨ (s.busy = true ∧ ∃ i, decode s.lastcmd = .ok i ∧ unitStep s = exec i s)
      ∨ (s.busy = true ∧ ∃ e, decode s.lastcmd = .error e ∧ unitStep s = .next (s.finished .illegalCommand)) := by
  unfold unitStep State.inFlight
  cases hb : s.busy with
  | false => exact .inl ⟨rfl, rfl⟩
  | true =>
    cases hd : decode s.lastcmd with
    | ok i => exact .inr (.inl ⟨rfl, i, rfl, rfl⟩)
    | error e => exact .inr (.inr ⟨rfl, e, rfl, rfl⟩)

/-- One step: the next event, or the unit's turn. -/
theorem step_cases (s : State) :
    ((s.events = [] ∨ ∃ es, s.events = .unit :: es) ∧ step s = unitStep (s.setEvents s.events.tail))
      ∨ (∃ addr es, s.events = .read addr :: es ∧ step s = .next ((s.setEvents es).hostRead addr.toNat))
      ∨ (∃ addr v es, s.events = .write addr v :: es ∧ step s = .next ((s.setEvents es).hostWrite addr.toNat v))
      ∨ (∃ es, s.events = .reset :: es ∧ step s = .next (s.setEvents es).assertReset) := by
  unfold step
  cases h : s.events with
  | nil =>
    refine .inl ⟨.inl rfl, ?_⟩
    have : s.setEvents [] = s := by rw [← h]; rfl
    simp [this]
  | cons e es =>
    cases e with
    | read addr => exact .inr (.inl ⟨addr, es, rfl, rfl⟩)
    | write addr v => exact .inr (.inr (.inl ⟨addr, v, es, rfl, rfl⟩))
    | reset => exact .inr (.inr (.inr ⟨es, rfl, rfl⟩))
    | unit => exact .inl ⟨.inr ⟨es, rfl⟩, rfl⟩

end Sys2Proof.Machine
end

