-- ==== Sys2Proof/Machine/Asm.lean ====
section
/-! DEFINITION. The text of a command (rule R97) and of a command word (rule R99). -/

namespace Sys2Proof.Machine

/-- The operands of `nttf` and `ntti` (rule R97): `<b>, all` or `<b>, <s>`. -/
def transformOperands (buf : BitVec 4) (all : Bool) (slot : BitVec 6) : String :=
  toString buf.toNat ++ ", " ++ (if all then "all" else toString slot.toNat)

/-- A command as rule R97 writes it. -/
def asm : Instr → String
  | .nop => "nop"
  | .mform => "mform"
  | .mtos => "mtos"
  | .mred => "mred"
  | .mredLazy => "mred.lazy"
  | .bred => "bred"
  | .cred => "cred"
  | .madd => "madd"
  | .msub => "msub"
  | .modpow => "modpow"
  | .fred => "fred"
  | .mconst => "mconst"
  | .bconst => "bconst"
  | .bfct => "bfct"
  | .bfgs => "bfgs"
  | .ctxset => "ctxset"
  | .validate => "validate"
  | .ctxld slot => "ctxld " ++ toString slot.toNat
  | .nttf buf all slot => "nttf " ++ transformOperands buf all slot
  | .ntti buf all slot => "ntti " ++ transformOperands buf all slot

/-- A word in lower-case hexadecimal, at least eight digits (95_test_vectors.md section 2.1). -/
def hexWord (v : Word) : String :=
  let digits := Nat.toDigits 16 v.toNat
  String.ofList (List.replicate (8 - digits.length) '0' ++ digits)

/-- Disassembly (rule R99): the command of a legal word, `.word 0x<v>` for an illegal one. -/
def disasm (v : Word) : String :=
  match decode v with
  | .ok i => asm i
  | .error _ => ".word 0x" ++ hexWord v

end Sys2Proof.Machine
end

