-- ==== Sys2Proof/Machine/Script.lean ====
section
/-! DEFINITION. The host as an agent: the host-script language of rule R98, whose statements are port accesses, host
assignments and host control flow, and its pseudo-instructions. The host is outside the unit (rule R60): nothing in
`State` or `step` depends on this file. -/

namespace Sys2Proof.Machine

/-- Host expressions (rule R98), over unbounded naturals; host variables are numbered. -/
inductive HostExpr where
  | num (n : Nat)
  | var (x : Nat)
  | add (l r : HostExpr)
  | sub (l r : HostExpr)
  | mul (l r : HostExpr)
  | band (l r : HostExpr)
  | lt (l r : HostExpr)
  | eq (l r : HostExpr)
  | ne (l r : HostExpr)
deriving DecidableEq, Repr

/-- The host variables: the latest binding first. -/
abbrev HostEnv := List (Nat × Nat)

/-- The value of a host variable; an unbound one is a free value (rule R98 states none; log 13). -/
def HostEnv.get (env : HostEnv) (x : Nat) : Nat :=
  match env.find? (fun p => p.1 == x) with
  | some p => p.2
  | none => Config.hostOpen 0 x

/-- Evaluation (rule R98): comparisons give 1 or 0. A difference below 0 is a free value (log 13). -/
def HostExpr.eval (env : HostEnv) : HostExpr → Nat
  | .num n => n
  | .var x => env.get x
  | .add l r => l.eval env + r.eval env
  | .sub l r =>
    if r.eval env ≤ l.eval env then l.eval env - r.eval env else Config.hostOpen (l.eval env) (r.eval env)
  | .mul l r => l.eval env * r.eval env
  | .band l r => l.eval env &&& r.eval env
  | .lt l r => if l.eval env < r.eval env then 1 else 0
  | .eq l r => if l.eval env = r.eval env then 1 else 0
  | .ne l r => if l.eval env = r.eval env then 0 else 1

/-- `<loc>` (rule R98): a register of rule R62, an indexed location, or a word address. -/
inductive HostLoc where
  | reg (l : Loc)
  | qin (s : HostExpr)
  | slot (s : HostExpr) (f : SlotField)
  | twf (s i : HostExpr)
  | twi (s i : HostExpr)
  | poly (b s i : HostExpr)
  | addr (n : Nat)
deriving DecidableEq, Repr

/-- `addr(loc)` (rule R98): the formula of rule R62's first column. DESIGN CHOICE (log 13), the spec being silent: the
formula is applied to an index outside rule R62's bounds too, so that the address may be that of another word (the next
slot's, say) or an unmapped one; the port then treats it as it treats any address (rules R62, R65). -/
def HostLoc.eval (k : Config) (env : HostEnv) : HostLoc → Nat
  | .reg l => l.addr k
  | .qin s => Loc.addr k (.qin (s.eval env))
  | .slot s f => Loc.addr k (.slot (s.eval env) f)
  | .twf s i => Loc.addr k (.twf (s.eval env) (i.eval env))
  | .twi s i => Loc.addr k (.twi (s.eval env) (i.eval env))
  | .poly b s i => Loc.addr k (.poly (b.eval env) (s.eval env) (i.eval env))
  | .addr n => n

/-- The statements of rule R98; labels are numbered. `word` is a `cmd` whose word no command encodes (`cmd 0x113`
in 95_test_vectors.md P3). -/
inductive HostStmt where
  | wr (l : HostLoc) (v : HostExpr)
  | rd (l : HostLoc)
  | rdTo (l : HostLoc) (x : Nat)
  | cmd (i : Instr)
  | word (v : Nat)
  | label (n : Nat)
  | bnz (e : HostExpr) (n : Nat)
  | assign (x : Nat) (e : HostExpr)
  | expect (l : HostLoc) (v : HostExpr)
deriving DecidableEq, Repr

/-- The host running a script: the script, the next statement, the variables, and whether every `expect` so far held. -/
structure ScriptState where
  /-- The whole script. -/
  script : List HostStmt
  /-- The index of the next statement. -/
  pos : Nat
  /-- The host variables. -/
  env : HostEnv
  /-- Every `expect` so far held; it only records, and stops nothing (log 13). -/
  passed : Bool
deriving DecidableEq, Repr

/-- The host and the unit together. -/
structure System where
  /-- The host. -/
  script : ScriptState
  /-- The unit. -/
  unit : State
deriving DecidableEq, Repr

/-- Which agent moves (rule R60). The order is open while a command runs (rule R259). -/
inductive Turn where
  | host
  | unit
deriving DecidableEq, Repr

/-- A host access as the event it is at the port. -/
def writeEvent (addr v : Nat) : PortEvent := .write (BitVec.ofNat 32 addr) (BitVec.ofNat 64 v)

/-- A host read as the event it is at the port. -/
def readEvent (addr : Nat) : PortEvent := .read (BitVec.ofNat 32 addr)

/-- The unit after one port event. `step` stops on no event (`Fault` has no constructor, no arm refuses); a stop would
leave the unit as it was. -/
def State.afterEvent (e : PortEvent) (s : State) : State :=
  match step (s.setEvents [e]) with
  | .next t => t
  | .fault _ => s
  | .refused _ => s

/-- The statement after the label `n` (rule R98, `bnz`). DESIGN CHOICE (log 13), the spec being silent: where the
script holds the label more than once, the first one in the script; where it holds none, the end of the script. -/
def ScriptState.target (p : ScriptState) (n : Nat) : Nat :=
  (p.script.findIdx (fun x => x == .label n)) + 1

/-- One statement of the host (rule R98). DESIGN CHOICE (log 13), the spec saying of `expect` only that it reads and
compares: a failing `expect` is recorded in `passed` and the script goes on with the next statement. DESIGN CHOICE
(log 13): a script that has ended does nothing more. -/
def System.hostStep (x : System) : System :=
  let p := x.script
  let next : ScriptState := { p with pos := p.pos + 1 }
  match p.script[p.pos]? with
  | none => x
  | some (.wr l v) =>
    { script := next, unit := x.unit.afterEvent (writeEvent (l.eval x.unit.cfg p.env) (v.eval p.env)) }
  | some (.rd l) => { script := next, unit := x.unit.afterEvent (readEvent (l.eval x.unit.cfg p.env)) }
  | some (.rdTo l y) =>
    let u := x.unit.afterEvent (readEvent (l.eval x.unit.cfg p.env))
    { script := { next with env := (y, u.rdata.toNat) :: p.env }, unit := u }
  | some (.cmd i) =>
    { script := next, unit := x.unit.afterEvent (writeEvent (Loc.addr x.unit.cfg .cmd) (encode i).toNat) }
  | some (.word v) => { script := next, unit := x.unit.afterEvent (writeEvent (Loc.addr x.unit.cfg .cmd) v) }
  | some (.label _) => { x with script := next }
  | some (.bnz e n) => { x with script := if e.eval p.env = 0 then next else { p with pos := p.target n } }
  | some (.assign y e) => { x with script := { next with env := (y, e.eval p.env) :: p.env } }
  | some (.expect l v) =>
    let u := x.unit.afterEvent (readEvent (l.eval x.unit.cfg p.env))
    { script := { next with passed := p.passed && u.rdata.toNat == v.eval p.env }, unit := u }

/-- One turn of the system. -/
def System.turn (x : System) : Turn → System
  | .host => x.hostStep
  | .unit => { x with unit := x.unit.afterEvent .unit }

/-- `wait` (rule R98) with its own label `n` and variable `t`: poll `STATUS` until `BUSY = 0`. -/
def waitStmts (n t : Nat) : List HostStmt :=
  [.label n, .rdTo (.reg .status) t, .bnz (.band (.var t) (.num 1)) n]

/-- `run <command>` (rule R98). -/
def runStmts (n t : Nat) (i : Instr) : List HostStmt := .cmd i :: waitStmts n t

/-- `clr` (rule R98): clears `DONE`, `HAZARD`, `ADDRERR`. -/
def clrStmts : List HostStmt := [.wr (.reg .status) (.num 0x1A)]

/-- Write a register when the operand is given. -/
def writeGiven (l : Loc) : Option HostExpr → List HostStmt
  | some e => [.wr (.reg l) e]
  | none => []

/-- `scalar <command> a, b, c` (rule R98); omitted operands are not written. -/
def scalarStmts (n t : Nat) (i : Instr) (a b c : Option HostExpr) : List HostStmt :=
  writeGiven .a a ++ writeGiven .b b ++ writeGiven .c c ++ runStmts n t i

/-- `ldk <q>` (rule R98), with labels `n`, `n + 1` and variables `t`, `k`, `l`, `h`. -/
def ldkStmts (n t k l h : Nat) (q : HostExpr) : List HostStmt :=
  .wr (.reg .q) q :: runStmts n t .mconst
    ++ [.rdTo (.reg .r0) k, .wr (.reg .km) (.var k)]
    ++ runStmts (n + 1) t .bconst
    ++ [.rdTo (.reg .r0) l, .wr (.reg .kbl) (.var l), .rdTo (.reg .r1) h, .wr (.reg .kbh) (.var h)]

/-- `ldctx <s>` (rule R98). -/
def ldctxStmts (n t : Nat) (s : BitVec 6) : List HostStmt := runStmts n t (.ctxld s)

end Sys2Proof.Machine
end

