-- ==== Sys2Proof/Tests/Slice0.lean ====
section
/-! SUPPORT. Tests. Every expected value comes from spec/: the section of 95_test_vectors.md, or the rule, that its
comment names. -/

namespace Sys2Proof.Tests

open Sys2Proof.Machine

/-! ### WellFormed: the one check of rule R94 refuses -/

theorem test_wellFormed_nttf_all_with_slot : (Instr.nttf 0 true 1).wellFormed = false := by decide
theorem test_wellFormed_ntti_all_with_slot : (Instr.ntti 3 true 63).wellFormed = false := by decide
theorem test_wellFormed_nttf_slot : (Instr.nttf 15 false 63).wellFormed = true := by decide

/-! ### Decoding: one word per command, written out from rule R93 -/

theorem test_decode_nop : decode 0x00000000 = .ok .nop := by decide
theorem test_decode_mform : decode 0x00000010 = .ok .mform := by decide
theorem test_decode_mtos : decode 0x00000011 = .ok .mtos := by decide
theorem test_decode_mred : decode 0x00000012 = .ok .mred := by decide
theorem test_decode_mredLazy : decode 0x00000112 = .ok .mredLazy := by decide
theorem test_decode_bred : decode 0x00000013 = .ok .bred := by decide
theorem test_decode_cred : decode 0x00000014 = .ok .cred := by decide
theorem test_decode_madd : decode 0x00000015 = .ok .madd := by decide
theorem test_decode_msub : decode 0x00000016 = .ok .msub := by decide
theorem test_decode_modpow : decode 0x00000017 = .ok .modpow := by decide
theorem test_decode_fred : decode 0x00000018 = .ok .fred := by decide
theorem test_decode_mconst : decode 0x00000019 = .ok .mconst := by decide
theorem test_decode_bconst : decode 0x0000001A = .ok .bconst := by decide
theorem test_decode_bfct : decode 0x00000020 = .ok .bfct := by decide
theorem test_decode_bfgs : decode 0x00000021 = .ok .bfgs := by decide
theorem test_decode_ctxset : decode 0x00000030 = .ok .ctxset := by decide
theorem test_decode_validate : decode 0x00000031 = .ok .validate := by decide
theorem test_decode_ctxld : decode 0x00000C32 = .ok (.ctxld 3) := by decide
theorem test_decode_nttf : decode 0x000FFC40 = .ok (.nttf 15 false 63) := by decide
theorem test_decode_ntti : decode 0x00021441 = .ok (.ntti 2 false 5) := by decide
theorem test_decode_nttf_all : decode 0x00010240 = .ok (.nttf 1 true 0) := by decide

/-! The illegal words of section 2.1. -/

theorem test_decode_stray_lz : decode 0x00000113 = .error .strayLz := by decide
theorem test_decode_unassigned : decode 0x0000001B = .error .unassignedOpcode := by decide
theorem test_decode_stray_all : decode 0x00000200 = .error .strayAll := by decide
theorem test_decode_stray_slot : decode 0x00000430 = .error .straySlot := by decide
theorem test_decode_stray_buf : decode 0x00010030 = .error .strayBuf := by decide
theorem test_decode_all_with_slot : decode 0x00000640 = .error .allWithSlot := by decide
theorem test_decode_reserved_20 : decode 0x00100000 = .error .reservedBits := by decide
theorem test_decode_reserved_32 : decode 0x100000000 = .error .reservedBits := by decide
theorem test_table_word : decodeTableWord 32 0x112 = some .mredLazy := by decide

/-! Text of commands (rules R97, R99; section 2.1). -/

theorem test_disasm_lazy : disasm 0x00000112 = "mred.lazy" := by decide
theorem test_disasm_all : disasm 0x00010240 = "nttf 1, all" := by decide
theorem test_disasm_slot : disasm 0x00021441 = "ntti 2, 5" := by decide
theorem test_disasm_illegal : disasm 0x00000113 = ".word 0x00000113" := by decide

/-! ### One command -/

/-- The state after a command, the state itself where it stops. -/
def after (i : Instr) (s : State) : State :=
  match exec i s with
  | .next t => t
  | .fault _ => s
  | .refused _ => s

/-- Idle after reset with modulus 97 loaded, at `W = 64` (constants of 95_test_vectors.md). -/
def s97 (a b c : Word) : State :=
  { State.reset with
    a := a, b := b, c := c, q := 97, km := 0x5C5F02A3A0FD5C5F, kbl := 0xA0FD5C5F02A3A0FD, kbh := 0x02A3A0FD5C5F02A3 }

/-- The default parameters at `W = 32`. -/
def k32 : Config := { width := .w32, lmax := 32, lognmax := 16, nbuf := 4, legal := by decide }

/-- The same with the constants of `W = 32`. -/
def s97w32 (a b c : Word) : State :=
  { State.resetWith k32 with a := a, b := b, c := c, q := 97, km := 0xA0FD5C5F, kbl := 0x5C5F02A3, kbh := 0x02A3A0FD }

/-- `M = 2^64 − 1`. -/
def allOnes : Word := 0xFFFFFFFFFFFFFFFF

/-! Scalar kernel, section 2.3 (`W = 64`) and 2.4 (`W = 32`). -/

theorem test_nop_clears_errcode :
    (after .nop { State.reset with errcode := .nonNttCompatibleModulus }).statusWord = 0x2 := by decide
theorem test_mform : (after .mform (s97 96 0 0)).r0 = 36 := by decide
theorem test_mform_w32 : (after .mform (s97w32 96 0 0)).r0 = 62 := by decide
theorem test_mtos : (after .mtos (s97 96 0 0)).r0 = 62 := by decide
theorem test_mtos_w32 : (after .mtos (s97w32 96 0 0)).r0 = 36 := by decide
theorem test_mred_lax_inputs : (after .mred (s97 193 193 0)).r0 = 35 := by decide
theorem test_mred_q15 : (after .mred { s97 3 5 0 with q := 15, km := 0x1111111111111111 }).r0 = 0 := by decide
theorem test_mredLazy_q15 : (after .mredLazy { s97 3 5 0 with q := 15, km := 0x1111111111111111 }).r0 = 15 := by decide
theorem test_mredLazy_large :
    (after .mredLazy { s97 0x3FFFFFFFFFE80000 0x3FFFFFFFFFE80000 0 with
      q := 0x3FFFFFFFFFE80001, km := 0x09FFFDBFFFE7FFFF }).r0 = 0x427FFF6FFFE11001 := by decide
theorem test_bred : (after .bred (s97 allOnes allOnes 0)).r0 = 11 := by decide
theorem test_cred_top : (after .cred (s97 193 0 0)).r0 = 96 := by decide
theorem test_cred_q : (after .cred (s97 97 0 0)).r0 = 0 := by decide
theorem test_madd_wraps : (after .madd (s97 96 96 0)).r0 = 95 := by decide
theorem test_msub_wraps : (after .msub (s97 0 1 0)).r0 = 96 := by decide
set_option maxRecDepth 20000 in
theorem test_modpow_large : (after .modpow (s97 allOnes allOnes 0)).r0 = 77 := by decide
theorem test_modpow_zero : (after .modpow (s97 0 0 0)).r0 = 1 := by decide
theorem test_fred : (after .fred { State.reset with a := 24577 }).r0 = 12288 := by decide
theorem test_fred_top : (after .fred { State.reset with a := allOnes }).r0 = 5663 := by decide
theorem test_mconst : (after .mconst (s97 0 0 0)).r0 = 0x5C5F02A3A0FD5C5F := by decide
theorem test_mconst_one : (after .mconst { State.reset with q := 1 }).r0 = allOnes := by decide
theorem test_bconst_low : (after .bconst { s97 0 0 0 with kbl := 0 }).r0 = 0xA0FD5C5F02A3A0FD := by decide
theorem test_bconst_two : (after .bconst { State.reset with q := 2 }).r1 = 0x8000000000000000 := by decide

/-! Outside a contract (section 2.3, `ANY`): no error, the operands kept, the contract-free registers untouched. -/

theorem test_cred_outside : (after .cred (s97 194 0 0)).statusWord = 0x2 := by decide
theorem test_bred_outside : (after .bred { s97 5 6 0 with q := 0, r1 := 9 }).r1 = 9 := by decide

/-! Butterflies, section 2.5. -/

theorem test_bfct_r0 : (after .bfct (s97 1 3 81)).r0 = 67 := by decide
theorem test_bfct_r1 : (after .bfct (s97 5 7 61)).r1 = 95 := by decide
theorem test_bfgs_r1 : (after .bfgs (s97 67 32 54)).r1 = 93 := by decide
theorem test_bfgs_w32 : (after .bfgs (s97w32 67 32 54)).r1 = 54 := by decide

/-! Context, sections 2.6 to 2.8. -/

/-- After reset with `NREQ`, `LREQ` and two requested moduli written. -/
def requested (n l q0 q1 : Word) : State :=
  { State.reset with nreq := n, lreq := l, qin := q0 :: q1 :: List.replicate 30 0 }

/-- The same after `CTXSET`. -/
def configured (n l q0 q1 : Word) : State := after .ctxset (requested n l q0 q1)

theorem test_ctxset_degree_first : (configured 0 0 97 0).statusWord = 0x106 := by decide
theorem test_ctxset_length : (configured 4 33 97 0).statusWord = 0x306 := by decide
theorem test_ctxset_slot :
    (configured 4 1 97 0).slot 0
      = { Slot.zero with
          cq := 0x61, mask := 0x7F, bcl := 0xA0FD5C5F02A3A0FD, bch := 0x02A3A0FD5C5F02A3, mc := 0x5C5F02A3A0FD5C5F
          hasmont := true } := by decide
theorem test_ctxset_power_of_two : ((configured 4 1 64 0).slot 0).bch = 0x0400000000000000 := by decide
theorem test_validate_slot :
    (let v := (after .validate (configured 4 1 97 0)).slot 0
     (v.g, v.psi, v.psiinv, v.ninv)) = (5, 0x18, 0x36, 0x58) := by decide
theorem test_validate_tables :
    (let s := after .validate (configured 4 1 97 0)
     ((List.range 4).map (s.twfWord 0), (List.range 4).map (s.twiWord 0)))
      = ([61, 81, 24, 43], [61, 16, 54, 73]) := by decide
theorem test_validate_names_slot :
    (let s := after .validate (configured 4 2 97 15)
     (s.statusWord, s.errslot, s.errval)) = (0x246, 1, 15) := by decide
theorem test_validate_not_configured : (after .validate State.reset).statusWord = 0x506 := by decide
theorem test_ctxld : (after (.ctxld 1) (configured 4 2 97 17)).q = 17 := by decide
theorem test_ctxld_bad_slot : (after (.ctxld 2) (configured 4 2 97 17)).statusWord = 0x746 := by decide

/-! Transforms, section 2.9, on `POLY[0][0]` and `POLY[0][1]`, moduli 97 and 17. -/

/-- Validated for degree 4 on `[97, 17]`, the same four coefficients in both slots of buffer 0. -/
def loaded (x0 x1 x2 x3 : Word) : State :=
  { after .validate (configured 4 2 97 17) with
    poly := [(0x10000000, x0), (0x10000001, x1), (0x10000002, x2), (0x10000003, x3),
      (0x10010000, x0), (0x10010001, x1), (0x10010002, x2), (0x10010003, x3)] }

theorem test_nttf_one_slot :
    (let s := after (.nttf 0 false 0) (loaded 1 2 3 4)
     ((List.range 4).map (s.polyWord 0 0), (List.range 4).map (s.polyWord 0 1)))
      = ([7, 30, 0, 64], [1, 2, 3, 4]) := by decide
theorem test_nttf_all :
    (let s := after (.nttf 0 true 0) (loaded 1 2 3 4)
     (List.range 4).map (s.polyWord 0 1)) = [16, 13, 11, 15] := by decide
theorem test_ntti_one_slot :
    (let s := after (.ntti 0 false 0) (loaded 7 30 0 64)
     (List.range 4).map (s.polyWord 0 0)) = [1, 2, 3, 4] := by decide
theorem test_ntti_bad_slot : (after (.ntti 0 false 2) (loaded 1 2 3 4)).statusWord = 0x766 := by decide
theorem test_nttf_out_of_range : (after (.nttf 0 false 0) (loaded 1 2 97 4)).statusWord = 0x62 := by decide
theorem test_nttf_bad_buffer_first : (after (.nttf 4 false 2) (loaded 1 2 3 4)).statusWord = 0x866 := by decide

/-! ### The step and the host port, sections 2.1, 2.2 and 2.10 -/

/-- The state after one step, the state itself where it stops. -/
def stepped (s : State) : State :=
  match step s with
  | .next t => t
  | .fault _ => s
  | .refused _ => s

/-- `s` with one event to come. -/
def facing (e : PortEvent) (s : State) : State := { s with events := [e] }

theorem test_step_runs_fetched_word : (stepped (State.reset.withFetchWord 32 0x31)).statusWord = 0x506 := by decide
theorem test_step_illegal_word : (stepped (State.reset.withFetchWord 32 0x640)).statusWord = 0x606 := by decide
theorem test_submit : (stepped (facing (.write 4 0x12) State.reset)).statusWord = 0x1 := by decide
theorem test_submit_lastcmd : (stepped (facing (.write 4 0x12) State.reset)).lastcmd = 0x12 := by decide
theorem test_read_id : (stepped (facing (.read 0) State.reset)).rdata = 0x4D525531 := by decide
theorem test_read_cfg : (stepped (facing (.read 1) State.reset)).rdata = 0x04102040 := by decide
theorem test_read_cfg_w32 : (stepped (facing (.read 1) (State.resetWith k32))).rdata = 0x04102020 := by decide
theorem test_read_unmapped : (stepped (facing (.read 7) { State.reset with rdata := 5 })).rdata = 0 := by decide
theorem test_read_unmapped_status : (stepped (facing (.read 7) State.reset)).statusWord = 0x10 := by decide
theorem test_write_read_only : (stepped (facing (.write 0x18 5) State.reset)).statusWord = 0x10 := by decide
theorem test_write_slot_gap : (stepped (facing (.write 0x100A 1) State.reset)).statusWord = 0x10 := by decide
theorem test_read_twf_past_end :
    (stepped (facing (.read 0x01200000) State.reset)).statusWord = 0x10 := by decide
theorem test_write_a : (stepped (facing (.write 0x10 7) State.reset)).a = 7 := by decide
theorem test_write_poly_top :
    (stepped (facing (.write 0x131FFFFF 9) State.reset)).polyWord 3 31 65535 = 9 := by decide
theorem test_busy_write_dropped :
    (let s := stepped (facing (.write 0x10 5) { State.reset with busy := true, a := 3 })
     (s.a, s.statusWord)) = (3, 0x9) := by decide
theorem test_busy_read_unmapped :
    (stepped (facing (.read 7) { State.reset with busy := true })).addrerr = false := by decide
theorem test_busy_clear_hazard :
    (stepped (facing (.write 3 0x8) { State.reset with busy := true, hazard := true })).hazard = false := by decide
theorem test_busy_write_ctrl : (stepped (facing (.write 2 1) { State.reset with busy := true })).ie = true := by decide
theorem test_status_bit0_not_clearable :
    (stepped (facing (.write 3 0x1) { State.reset with done := true })).statusWord = 0x2 := by decide
theorem test_errcode_sticky :
    (stepped (facing (.write 3 0x1A) { State.reset with done := true, errcode := .illegalCommand })).statusWord
      = 0x604 := by decide
theorem test_irq : (after .nop { State.reset with ie := true }).irq = true := by decide
theorem test_reset_while_busy :
    (stepped (facing .reset { State.reset with busy := true, a := 3, errcode := .badSlot })).statusWord = 0 := by decide

/-! The host script (rule R98): `wait` polls `STATUS`; `clr` is the write of section 1 of rule R98. -/

theorem test_script_clr : clrStmts = [.wr (.reg .status) (.num 0x1A)] := by decide
theorem test_script_wait_loops :
    (System.hostStep
      { script := { script := waitStmts 0 1, pos := 2, env := [(1, 1)], passed := true }, unit := State.reset }).script.pos
      = 1 := by decide

end Sys2Proof.Tests
end

