-- ==== Sys2Proof/Tests/Witnesses.lean ====
section
/-! SUPPORT. Witnesses: for each obligation with hypotheses, concrete states and operands that meet all of them
together, at the boundaries of each clause. The numbers are those of 95_test_vectors.md where it has them. -/

namespace Sys2Proof.Tests

open Sys2Proof.Machine

/-! ### Encoding and the step -/

theorem witness_DecodeOfEncode : (Instr.nttf 15 false 63).wellFormed = true ∧ (Instr.nttf 15 true 0).wellFormed = true := by
  decide

theorem witness_EncodeOfDecode : decode 0x000FFC41 = .ok (.ntti 15 false 63) := by decide

/-- Idle after reset with a command word accepted. -/
def inFlight (w : Word) : State := { State.reset with lastcmd := w, busy := true }

/-! One illegal word for each reason of rule R94: a bit above 19, an unassigned opcode, `LZ`, `ALL`, `SLOT`, `BUF`,
and `ALL` with a slot. -/

theorem witness_IllegalWordsComplete_reserved :
    (inFlight 0x100000).busy = true ∧ (inFlight 0x100000).UnitTurn ∧ IllegalWordR94 (inFlight 0x100000).lastcmd.toNat :=
  ⟨rfl, .inl rfl, by unfold IllegalWordR94; decide⟩

theorem witness_IllegalWordsComplete_opcode :
    (inFlight 0x1B).busy = true ∧ (inFlight 0x1B).UnitTurn ∧ IllegalWordR94 (inFlight 0x1B).lastcmd.toNat :=
  ⟨rfl, .inl rfl, by unfold IllegalWordR94; decide⟩

theorem witness_IllegalWordsComplete_lz :
    (inFlight 0x113).busy = true ∧ (inFlight 0x113).UnitTurn ∧ IllegalWordR94 (inFlight 0x113).lastcmd.toNat :=
  ⟨rfl, .inl rfl, by unfold IllegalWordR94; decide⟩

theorem witness_IllegalWordsComplete_all :
    (inFlight 0x200).busy = true ∧ (inFlight 0x200).UnitTurn ∧ IllegalWordR94 (inFlight 0x200).lastcmd.toNat :=
  ⟨rfl, .inl rfl, by unfold IllegalWordR94; decide⟩

theorem witness_IllegalWordsComplete_slot :
    (inFlight 0x430).busy = true ∧ (inFlight 0x430).UnitTurn ∧ IllegalWordR94 (inFlight 0x430).lastcmd.toNat :=
  ⟨rfl, .inl rfl, by unfold IllegalWordR94; decide⟩

theorem witness_IllegalWordsComplete_buf :
    (inFlight 0x10030).busy = true ∧ (inFlight 0x10030).UnitTurn ∧ IllegalWordR94 (inFlight 0x10030).lastcmd.toNat :=
  ⟨rfl, .inl rfl, by unfold IllegalWordR94; decide⟩

theorem witness_IllegalWordsComplete_all_slot :
    (inFlight 0x640).busy = true ∧ (inFlight 0x640).UnitTurn ∧ IllegalWordR94 (inFlight 0x640).lastcmd.toNat :=
  ⟨rfl, .inl rfl, by unfold IllegalWordR94; decide⟩

theorem witness_IllegalWordsComplete_legal_zero :
    (inFlight 0x0).busy = true ∧ (inFlight 0x0).UnitTurn ∧ ¬ IllegalWordR94 (inFlight 0x0).lastcmd.toNat :=
  ⟨rfl, .inl rfl, by unfold IllegalWordR94; decide⟩

theorem witness_IllegalWordsComplete_legal_lazy :
    (inFlight 0x112).busy = true ∧ (inFlight 0x112).UnitTurn ∧ ¬ IllegalWordR94 (inFlight 0x112).lastcmd.toNat :=
  ⟨rfl, .inl rfl, by unfold IllegalWordR94; decide⟩

theorem witness_IllegalWordsComplete_legal_top :
    (inFlight 0xFFC41).busy = true ∧ (inFlight 0xFFC41).UnitTurn ∧ ¬ IllegalWordR94 (inFlight 0xFFC41).lastcmd.toNat :=
  ⟨rfl, .inl rfl, by unfold IllegalWordR94; decide⟩

/-! The completion as the next event, with another event behind it. -/

theorem witness_IllegalWordsComplete_unit :
    (let s := { inFlight 0x640 with events := [.unit, .read 3] }
     s.busy = true ∧ s.UnitTurn ∧ IllegalWordR94 s.lastcmd.toNat) :=
  ⟨rfl, .inr ⟨_, rfl⟩, by unfold IllegalWordR94; decide⟩

theorem witness_IllegalWordsComplete_legal_unit :
    (let s := { inFlight 0xFFC41 with events := [.unit, .read 3] }
     s.busy = true ∧ s.UnitTurn ∧ ¬ IllegalWordR94 s.lastcmd.toNat) :=
  ⟨rfl, .inr ⟨_, rfl⟩, by unfold IllegalWordR94; decide⟩

theorem witness_StepRunsDecoded :
    (inFlight 0x12).busy = true ∧ decode (inFlight 0x12).lastcmd = .ok .mred ∧ (inFlight 0x12).events = [] := by decide

theorem witness_StepRunsDecoded_unit :
    (State.reset.withFetchWord 32 0xFFC41).busy = true
      ∧ decode (State.reset.withFetchWord 32 0xFFC41).lastcmd = .ok (.ntti 15 false 63)
      ∧ (State.reset.withFetchWord 32 0xFFC41).events = [.unit] := by decide

theorem witness_SubmittedCommandRuns :
    (Instr.ctxld 63).wellFormed = true
      ∧ { State.reset with events := [.write 4 (encode (.ctxld 63)), .unit] }.busy = false
      ∧ { State.reset with events := [.write 4 (encode (.ctxld 63)), .unit] }.events
        = .write 0x00000004 (encode (.ctxld 63)) :: .unit :: [] := by decide

theorem witness_IdleUnitWaits :
    (State.reset.busy = false ∧ State.reset.UnitTurn)
      ∧ (facing .unit State.reset).busy = false ∧ (facing .unit State.reset).UnitTurn :=
  ⟨⟨rfl, .inl rfl⟩, rfl, .inr ⟨[], rfl⟩⟩

/-! ### The host port -/

theorem witness_AddressMapRoundTrip_mapped :
    ∀ l ∈ [Loc.id, .cl, .qin 0, .qin 31, .slot 31 .ninv, .twf 31 65535, .twi 0 0, .twi 31 65535, .poly 3 31 65535],
      l.mapped Config.standard = true := by decide

theorem witness_AddressMapRoundTrip_found :
    0x131FFFFF < 2 ^ 32 ∧ locOf Config.standard 0x131FFFFF = some (.poly 3 31 65535) := by decide

theorem witness_HostReadEffects_busy :
    (facing (.read 5) (inFlight 0x12)).events = .read 5 :: [] ∧ (facing (.read 5) (inFlight 0x12)).busy = true
      ∧ 4 < (5 : BitVec 32).toNat := by decide

theorem witness_HostReadEffects_mapped :
    ((facing (.read 0x24) State.reset).busy = false ∧ locOf Config.standard 0x24 = some .cl)
      ∧ (facing (.read 4) (inFlight 0x12)).busy = true ∧ (4 : BitVec 32).toNat ≤ 4
      ∧ locOf Config.standard 4 = some .cmd := by decide

theorem witness_HostReadEffects_unmapped :
    ((facing (.read 7) State.reset).busy = false
        ∧ locOf (facing (.read 7) State.reset).cfg (7 : BitVec 32).toNat = none)
      ∧ ∀ x ∈ [0x17, 0x25, 0x120, 0x100A, 0x01200000, 0x02200000, 0x10200000, 0x14000000, 0xFFFFFFFF],
        locOf Config.standard x = none := by decide

/-- The first and the last fixed register, the one while busy, and `CMD` at the edge of what busy allows. -/
theorem witness_HostReadWords_fixed :
    ((facing (.read 0x24) State.reset).busy = false ∧ (0x24 : BitVec 32).toNat = 0x24)
      ∧ ((facing (.read 4) (inFlight 0x12)).busy = true ∧ (4 : BitVec 32).toNat ≤ 4)
      ∧ (facing (.read 0) State.reset).busy = false ∧ (0 : BitVec 32).toNat = 0x00 := by decide

/-- The last word of each indexed region of the default map. -/
theorem witness_HostReadWords_indexed :
    (31 < State.reset.cfg.lmax ∧ (0x11F : BitVec 32).toNat = 0x100 + 31)
      ∧ (0x11F9 : BitVec 32).toNat = 0x1000 + 16 * 31 + 9
      ∧ 65535 < State.reset.cfg.nmax ∧ 3 < State.reset.cfg.nbuf
      ∧ (0x011FFFFF : BitVec 32).toNat = 0x01000000 + 31 * State.reset.cfg.nmax + 65535
      ∧ (0x021FFFFF : BitVec 32).toNat = 0x02000000 + 31 * State.reset.cfg.nmax + 65535
      ∧ (0x131FFFFF : BitVec 32).toNat = 0x10000000 + 3 * 2 ^ 24 + 31 * State.reset.cfg.nmax + 65535
      ∧ (facing (.read 0x131FFFFF) State.reset).busy = false
      ∧ (facing (.read 0x131FFFFF) State.reset).events = .read 0x131FFFFF :: [] := by decide

theorem witness_HostWriteEffects_status :
    fits State.reset.cfg 0x1A ∧ (facing (.write 3 0x1A) State.reset).events = .write 3 0x1A :: []
      ∧ (3 : BitVec 32).toNat = Loc.addr State.reset.cfg .status := by decide

theorem witness_HostWriteEffects_ctrl :
    fits State.reset.cfg allOnes ∧ (facing (.write 2 allOnes) State.reset).events = .write 2 allOnes :: []
      ∧ (2 : BitVec 32).toNat = Loc.addr State.reset.cfg .ctrl := by decide

theorem witness_HostWriteEffects_busy :
    fits State.reset.cfg 5 ∧ (facing (.write 4 5) (inFlight 0)).events = .write 4 5 :: []
      ∧ (4 : BitVec 32).toNat ≠ Loc.addr State.reset.cfg .status
      ∧ (4 : BitVec 32).toNat ≠ Loc.addr State.reset.cfg .ctrl ∧ (facing (.write 4 5) (inFlight 0)).busy = true := by
  decide

theorem witness_HostWriteEffects_cmd :
    (facing (.write 4 allOnes) State.reset).busy = false ∧ fits State.reset.cfg allOnes
      ∧ (4 : BitVec 32).toNat = Loc.addr State.reset.cfg .cmd := by decide

theorem witness_HostWriteEffects_writable :
    ((facing (.write 0x11F 7) State.reset).busy = false ∧ fits State.reset.cfg 7
        ∧ (0x11F : BitVec 32).toNat ≠ Loc.addr State.reset.cfg .status
        ∧ (0x11F : BitVec 32).toNat ≠ Loc.addr State.reset.cfg .ctrl
        ∧ locOf State.reset.cfg (0x11F : BitVec 32).toNat = some (.qin 31) ∧ (Loc.qin 31).writable = true)
      ∧ ∀ p ∈ [(0x10, Loc.a), (0x21, .lreq), (0x10000000, .poly 0 0 0), (0x131FFFFF, .poly 3 31 65535)],
        locOf State.reset.cfg p.1 = some p.2 ∧ p.2.writable = true := by decide

theorem witness_HostWriteEffects_refused :
    (facing (.write 0x18 7) State.reset).busy = false ∧ fits State.reset.cfg 7
      ∧ (0x18 : BitVec 32).toNat ≠ Loc.addr State.reset.cfg .status
      ∧ (0x18 : BitVec 32).toNat ≠ Loc.addr State.reset.cfg .ctrl
      ∧ (0x18 : BitVec 32).toNat ≠ Loc.addr State.reset.cfg .cmd
      ∧ ∀ l, locOf State.reset.cfg (0x18 : BitVec 32).toNat = some l → l.writable = false := by
  refine ⟨rfl, by decide, by decide, by decide, by decide, fun l hl => ?_⟩
  obtain rfl := Option.some.inj (hl.symm.trans (by decide : _ = some Loc.r0))
  rfl

theorem witness_HostWriteEffects_unmapped :
    (facing (.write 0xFFFFFFFF 7) State.reset).busy = false ∧ fits State.reset.cfg 7
      ∧ (0xFFFFFFFF : BitVec 32).toNat ≠ Loc.addr State.reset.cfg .cmd
      ∧ ∀ l, locOf State.reset.cfg (0xFFFFFFFF : BitVec 32).toNat = some l → l.writable = false :=
  ⟨rfl, by decide, by decide, fun _ hl => nomatch hl.symm.trans (by decide : _ = none)⟩

theorem witness_StatusClearing_write :
    step (facing (.write 3 0x1A) { State.reset with done := true }) = .next State.reset
      ∧ (facing (.write 3 0x1A) { State.reset with done := true }).events = .write 3 0x1A :: [] := ⟨rfl, rfl⟩

theorem witness_StatusClearing_errcode :
    step (inFlight 0x1B) = .next (stepped (inFlight 0x1B))
      ∧ (stepped (inFlight 0x1B)).errcode ≠ (inFlight 0x1B).errcode := ⟨rfl, by decide⟩

/-- A context whose second modulus fails, and `VALIDATE` in flight. -/
def failing : State := { configured 4 2 97 15 with lastcmd := 0x31, busy := true }

theorem witness_StatusClearing_errslot :
    step failing = .next (stepped failing) ∧ (stepped failing).errslot ≠ failing.errslot
      ∧ (stepped failing).errval ≠ failing.errval := ⟨rfl, by decide⟩

theorem witness_StatusClearing_accept :
    step (facing (.write 4 0x12) { State.reset with done := true })
        = .next { State.reset with done := true, busy := true, lastcmd := 0x12 }
      ∧ (facing (.write 4 0x12) { State.reset with done := true }).busy = false := ⟨rfl, rfl⟩

theorem witness_StatusClearing_nop :
    (inFlight 0).Runs .nop ∧ step (inFlight 0) = .next (stepped (inFlight 0)) := ⟨⟨.inl rfl, rfl, by decide⟩, rfl⟩

theorem witness_StatusWordBits :
    State.reset.errcode = .ok ∧ { State.reset with errcode := .entropyUnavailable }.errcode = .entropyUnavailable := by
  decide

theorem witness_IdentificationConstants : step State.reset = .next State.reset := rfl

theorem witness_ErrorsPerCommand :
    exec .ctxset State.reset = .next (after .ctxset State.reset)
      ∧ exec (.nttf 4 true 0) (loaded 1 2 3 4) = .next (after (.nttf 4 true 0) (loaded 1 2 3 4)) := ⟨rfl, rfl⟩

theorem witness_ResetClearsRegisters :
    (facing .reset (inFlight 0x12)).ResetNext ∧ (facing .reset (inFlight 0x12)).busy = true
      ∧ Loc.mapped Config.standard (.qin 31) = true ∧ Loc.isRam (.qin 31) = false ∧ Loc.qin 31 ≠ .id ∧ Loc.qin 31 ≠ .cfg :=
  ⟨⟨[], rfl⟩, rfl, by decide, rfl, by decide, by decide⟩

/-! ### The scalar kernel -/

/-- The Montgomery contract with the constant of 95_test_vectors.md for `Q = 97`, `W = 64`. -/
theorem mont97 (a b c : Word) : MontContract (s97 a b c).cfg (s97 a b c).q.toNat (s97 a b c).km.toNat := by
  refine ⟨?_, ?_, ?_, 11790702397628785569, ?_, ?_, ?_⟩ <;>
    simp only [s97, State.reset, State.resetWith, Config.standard] <;> decide

/-- The same at `W = 32`. -/
theorem mont97w32 (a b c : Word) : MontContract (s97w32 a b c).cfg (s97w32 a b c).q.toNat (s97w32 a b c).km.toNat := by
  refine ⟨?_, ?_, ?_, 2^32 - 0xA0FD5C5F, ?_, ?_, ?_⟩ <;>
    simp only [s97w32, k32, State.resetWith] <;> decide

theorem bar97 (a b c : Word) :
    BarContract (s97 a b c).cfg (s97 a b c).q.toNat (s97 a b c).kbl.toNat (s97 a b c).kbh.toNat := by
  refine ⟨⟨?_, ?_⟩, ?_⟩ <;>
    simp only [s97, State.reset, State.resetWith, Config.standard] <;> decide

/-- No Montgomery contract: the constant is off by one. -/
def badKm (a b c : Word) : State := { s97 a b c with km := 0x5C5F02A3A0FD5C5E }

theorem not_mont_badKm (a b c : Word) :
    ¬ MontContract (badKm a b c).cfg (badKm a b c).q.toNat (badKm a b c).km.toNat := by
  rw [← montOk_iff]
  simp only [badKm, s97, State.reset, State.resetWith, Config.standard]
  decide

theorem witness_MformResult_inside :
    BarContract (s97 96 0 0).cfg (s97 96 0 0).q.toNat (s97 96 0 0).kbl.toNat (s97 96 0 0).kbh.toNat
      ∧ (s97 96 0 0).a.toNat < (s97 96 0 0).q.toNat := ⟨bar97 _ _ _, by decide⟩

theorem witness_MformResult_outside :
    ¬ (BarContract (s97 97 0 0).cfg (s97 97 0 0).q.toNat (s97 97 0 0).kbl.toNat (s97 97 0 0).kbh.toNat
      ∧ (s97 97 0 0).a.toNat < (s97 97 0 0).q.toNat) := fun h => absurd h.2 (by decide)

theorem witness_MtosResult_inside :
    MontContract (s97 96 0 0).cfg (s97 96 0 0).q.toNat (s97 96 0 0).km.toNat
      ∧ BarContract (s97 96 0 0).cfg (s97 96 0 0).q.toNat (s97 96 0 0).kbl.toNat (s97 96 0 0).kbh.toNat
      ∧ (s97 96 0 0).a.toNat < (s97 96 0 0).q.toNat := ⟨mont97 _ _ _, bar97 _ _ _, by decide⟩

theorem witness_MtosResult_outside :
    ¬ (MontContract (s97 97 0 0).cfg (s97 97 0 0).q.toNat (s97 97 0 0).km.toNat
      ∧ (s97 97 0 0).a.toNat < (s97 97 0 0).q.toNat) := fun h => absurd h.2 (by decide)

/-- The largest product inside the contract of `MRED` with `B = 97`, and the next one outside it. -/
theorem witness_MredResult_inside :
    MontContract (s97 allOnes 97 0).cfg (s97 allOnes 97 0).q.toNat (s97 allOnes 97 0).km.toNat
      ∧ (s97 allOnes 97 0).a.toNat * (s97 allOnes 97 0).b.toNat
        < (s97 allOnes 97 0).q.toNat * 2 ^ (s97 allOnes 97 0).cfg.W := ⟨mont97 _ _ _, by decide⟩

theorem witness_MredResult_outside :
    ¬ (MontContract (s97 allOnes 98 0).cfg (s97 allOnes 98 0).q.toNat (s97 allOnes 98 0).km.toNat
      ∧ (s97 allOnes 98 0).a.toNat * (s97 allOnes 98 0).b.toNat
        < (s97 allOnes 98 0).q.toNat * 2 ^ (s97 allOnes 98 0).cfg.W) := fun h => absurd h.2 (by decide)

theorem witness_MredLazyResult_inside :
    MontContract (s97w32 193 193 0).cfg (s97w32 193 193 0).q.toNat (s97w32 193 193 0).km.toNat
      ∧ (s97w32 193 193 0).a.toNat * (s97w32 193 193 0).b.toNat
        < (s97w32 193 193 0).q.toNat * 2 ^ (s97w32 193 193 0).cfg.W := ⟨mont97w32 _ _ _, by decide⟩

theorem witness_MredLazyResult_outside :
    ¬ (MontContract (badKm 1 1 0).cfg (badKm 1 1 0).q.toNat (badKm 1 1 0).km.toNat
      ∧ (badKm 1 1 0).a.toNat * (badKm 1 1 0).b.toNat < (badKm 1 1 0).q.toNat * 2 ^ (badKm 1 1 0).cfg.W) :=
  fun h => not_mont_badKm _ _ _ h.1

theorem witness_BredResult_inside :
    BarContract (s97 allOnes allOnes 0).cfg (s97 allOnes allOnes 0).q.toNat (s97 allOnes allOnes 0).kbl.toNat
      (s97 allOnes allOnes 0).kbh.toNat := bar97 _ _ _

theorem witness_BredResult_outside :
    ¬ BarContract { s97 5 6 0 with kbl := 0 }.cfg { s97 5 6 0 with kbl := 0 }.q.toNat
      { s97 5 6 0 with kbl := 0 }.kbl.toNat { s97 5 6 0 with kbl := 0 }.kbh.toNat := by
  rw [← barOk_iff]; decide

theorem witness_CredResult :
    (ModContract (s97 193 0 0).cfg (s97 193 0 0).q.toNat ∧ (s97 193 0 0).a.toNat < 2 * (s97 193 0 0).q.toNat)
      ∧ ¬ (ModContract (s97 194 0 0).cfg (s97 194 0 0).q.toNat
        ∧ (s97 194 0 0).a.toNat < 2 * (s97 194 0 0).q.toNat) := by
  unfold ModContract; decide

theorem witness_MaddMsubResult :
    (ModContract (s97 96 96 0).cfg (s97 96 96 0).q.toNat ∧ (s97 96 96 0).a.toNat < (s97 96 96 0).q.toNat
        ∧ (s97 96 96 0).b.toNat < (s97 96 96 0).q.toNat)
      ∧ ¬ (ModContract (s97 96 97 0).cfg (s97 96 97 0).q.toNat ∧ (s97 96 97 0).a.toNat < (s97 96 97 0).q.toNat
        ∧ (s97 96 97 0).b.toNat < (s97 96 97 0).q.toNat) := by
  unfold ModContract; decide

/-- `s97` with another modulus. -/
def modulus (q : Word) : State := { s97 0 0 0 with q := q }

/-- `ModOK` at its lower bound 2 and its upper bound `QMAX − 1`; 1 and `QMAX` are outside. -/
theorem witness_ModpowResult :
    ModContract (modulus 2).cfg (modulus 2).q.toNat
      ∧ ModContract (modulus 0x3FFFFFFFFFFFFFFF).cfg (modulus 0x3FFFFFFFFFFFFFFF).q.toNat
      ∧ ¬ ModContract (modulus 1).cfg (modulus 1).q.toNat
      ∧ ¬ ModContract (modulus 0x4000000000000000).cfg (modulus 0x4000000000000000).q.toNat := by
  simp [ModContract, modulus, s97, State.reset, State.resetWith, Config.standard]
  decide

theorem witness_MconstResult :
    { s97 0 0 0 with q := 1 }.q.toNat % 2 = 1 ∧ { s97 0 0 0 with q := allOnes }.q.toNat % 2 = 1
      ∧ State.reset.q.toNat % 2 = 0 := by decide

theorem witness_BconstResult :
    2 ≤ { s97 0 0 0 with q := 2 }.q.toNat ∧ 2 ≤ { s97 0 0 0 with q := allOnes }.q.toNat
      ∧ { s97 0 0 0 with q := 1 }.q.toNat < 2 := by decide

theorem witness_MontgomeryDomainLaw_both :
    MontContract (s97 36 61 0).cfg (s97 36 61 0).q.toNat (s97 36 61 0).km.toNat
      ∧ 96 < (s97 36 61 0).q.toNat ∧ 1 < (s97 36 61 0).q.toNat
      ∧ (s97 36 61 0).a.toNat = 96 * 2 ^ (s97 36 61 0).cfg.W % (s97 36 61 0).q.toNat
      ∧ (s97 36 61 0).b.toNat = 1 * 2 ^ (s97 36 61 0).cfg.W % (s97 36 61 0).q.toNat :=
  ⟨mont97 _ _ _, by decide⟩

theorem witness_MontgomeryDomainLaw_one :
    MontContract (s97 36 96 0).cfg (s97 36 96 0).q.toNat (s97 36 96 0).km.toNat
      ∧ 96 < (s97 36 96 0).q.toNat
      ∧ (s97 36 96 0).a.toNat = 96 * 2 ^ (s97 36 96 0).cfg.W % (s97 36 96 0).q.toNat
      ∧ (s97 36 96 0).b.toNat = 96 := ⟨mont97 _ _ _, by decide⟩

theorem witness_MontgomeryDomainLaw_none :
    MontContract (s97 96 96 0).cfg (s97 96 96 0).q.toNat (s97 96 96 0).km.toNat
      ∧ 96 < (s97 96 96 0).q.toNat ∧ (s97 96 96 0).a.toNat = 96 ∧ (s97 96 96 0).b.toNat = 96 :=
  ⟨mont97 _ _ _, by decide⟩

theorem witness_MontgomeryBound :
    97 < Config.standard.qmax ∧ 193 < 2 * 97 ∧ 97 * 2 ^ Config.standard.W - 1 < 97 * 2 ^ Config.standard.W := by decide

/-! ### The butterflies -/

theorem witness_BfctResult :
    (MontContract (s97 96 96 96).cfg (s97 96 96 96).q.toNat (s97 96 96 96).km.toNat
        ∧ (s97 96 96 96).a.toNat < (s97 96 96 96).q.toNat ∧ (s97 96 96 96).b.toNat < (s97 96 96 96).q.toNat
        ∧ (s97 96 96 96).c.toNat < (s97 96 96 96).q.toNat)
      ∧ ¬ (MontContract (s97 96 96 97).cfg (s97 96 96 97).q.toNat (s97 96 96 97).km.toNat
        ∧ (s97 96 96 97).a.toNat < (s97 96 96 97).q.toNat ∧ (s97 96 96 97).b.toNat < (s97 96 96 97).q.toNat
        ∧ (s97 96 96 97).c.toNat < (s97 96 96 97).q.toNat) :=
  ⟨⟨mont97 _ _ _, by decide⟩, fun h => absurd h.2.2.2 (by decide)⟩

theorem witness_BfgsResult :
    (MontContract (s97w32 0 96 0).cfg (s97w32 0 96 0).q.toNat (s97w32 0 96 0).km.toNat
        ∧ (s97w32 0 96 0).a.toNat < (s97w32 0 96 0).q.toNat ∧ (s97w32 0 96 0).b.toNat < (s97w32 0 96 0).q.toNat
        ∧ (s97w32 0 96 0).c.toNat < (s97w32 0 96 0).q.toNat)
      ∧ ¬ (MontContract (badKm 1 1 1).cfg (badKm 1 1 1).q.toNat (badKm 1 1 1).km.toNat
        ∧ (badKm 1 1 1).a.toNat < (badKm 1 1 1).q.toNat ∧ (badKm 1 1 1).b.toNat < (badKm 1 1 1).q.toNat
        ∧ (badKm 1 1 1).c.toNat < (badKm 1 1 1).q.toNat) :=
  ⟨⟨mont97w32 _ _ _, by decide⟩, fun h => not_mont_badKm _ _ _ h.1⟩

/-- The twiddle 33 and its inverse 50 modulo 97. -/
theorem witness_ButterflyInversion :
    MontContract (s97 96 1 73).cfg (s97 96 1 73).q.toNat (s97 96 1 73).km.toNat
      ∧ (s97 96 1 73).a.toNat < (s97 96 1 73).q.toNat ∧ (s97 96 1 73).b.toNat < (s97 96 1 73).q.toNat
      ∧ 33 * 50 % (s97 96 1 73).q.toNat = 1
      ∧ (s97 96 1 73).c.toNat = 33 * 2 ^ (s97 96 1 73).cfg.W % (s97 96 1 73).q.toNat :=
  ⟨mont97 _ _ _, by decide⟩

end Sys2Proof.Tests
end

