-- ==== Sys2Proof/Tests/ContextWitnesses.lean ====
section
/-! SUPPORT. Witnesses for the obligations about the context and the transforms, on the smallest configuration that
has every boundary: two slots, degrees 1 and 2, one buffer. -/

namespace Sys2Proof.Tests

open Sys2Proof.Machine

/-- `W = 64`, `LMAX = 2`, `NMAX = 2`, `NBUF = 1`. -/
def tiny : Config := { width := .w64, lmax := 2, lognmax := 1, nbuf := 1, legal := by decide }

theorem fits_tiny (w : Word) : fits tiny w := w.isLt

/-- After reset with a request written. -/
def asking (n l q0 q1 : Word) : State :=
  { State.resetWith tiny with nreq := n, lreq := l, qin := [q0, q1] }

/-- A request committed, as `CTXSET` commits it, for degree 2. -/
def committed (l q0 q1 : Word) : State := (asking 2 l q0 q1).commitRequest

/-- Degree 2 on the modulus 5, not yet validated, with coefficients `1, 4` in the one buffer. -/
def pending : State := { committed 1 5 0 with poly := [(0x10000000, 1), (0x10000001, 4)] }

/-- The same, validated. -/
def ready : State := pending.precomputeAll

/-! ### The state invariant -/

theorem sound_empty (lo hi : Nat) : Ram.Sound tiny lo hi [] :=
  ⟨rfl, fun _ h => absurd h List.not_mem_nil, fun _ h => absurd h List.not_mem_nil⟩

theorem sound_two (a : Nat) (v w : Word) {lo hi : Nat} (h : lo ≤ a ∧ a + 1 < hi) :
    Ram.Sound tiny lo hi [(a, v), (a + 1, w)] where
  wf := by simp [Ram.wf, Ram.risesFrom]
  inside p hp := by
    simp only [List.mem_cons, List.not_mem_nil, or_false] at hp
    rcases hp with rfl | rfl <;> simp only <;> omega
  fit _ _ := fits_tiny _

theorem inv_asking (n l q0 q1 : Word) : (asking n l q0 q1).Inv where
  registers _ _ := fits_tiny _
  qinLength := rfl
  qinFit _ _ := fits_tiny _
  slotsLength := rfl
  slotsFit _ _ _ _ := fits_tiny _
  twf := sound_empty _ _
  twi := sound_empty _ _
  poly := sound_empty _ _
  validated h := nomatch h
  empty _ := ⟨rfl, rfl, rfl⟩
  degree h := nomatch h
  length h := nomatch h
  unused i _ := match i with
    | 0 => rfl
    | 1 => rfl
    | _ + 2 => rfl
  errcode := ⟨(fun h => nomatch h), (fun h => nomatch h)⟩

theorem inv_committed {l : Word} (hl : l = 1 ∨ l = 2) (q0 q1 : Word) : (committed l q0 q1).Inv where
  registers _ _ := fits_tiny _
  qinLength := rfl
  qinFit _ _ := fits_tiny _
  slotsLength := rfl
  slotsFit _ _ _ _ := fits_tiny _
  twf := sound_empty _ _
  twi := sound_empty _ _
  poly := sound_empty _ _
  validated h := nomatch h
  empty h := nomatch h
  degree _ := by
    show (2 : Word).toNat = 2 ^ (mkWord tiny (Nat.log2 (2 : Word).toNat)).toNat ∧ (2 : Word).toNat ≤ tiny.nmax
    decide
  length _ := by
    show 1 ≤ l.toNat ∧ l.toNat ≤ tiny.lmax
    rcases hl with rfl | rfl <;> decide
  unused i h := by
    have h : l.toNat ≤ i := h
    rcases hl with rfl | rfl
    · match i with
      | 0 => exact absurd h (by decide)
      | 1 => rfl
      | _ + 2 => rfl
    · match i with
      | 0 => exact absurd h (by decide)
      | 1 => exact absurd h (by decide)
      | _ + 2 => rfl
  errcode := ⟨(fun h => nomatch h), (fun h => nomatch h)⟩

theorem inv_pending : pending.Inv :=
  let h := inv_committed (.inl rfl) 5 0
  { registers := fun _ _ => fits_tiny _
    qinLength := h.qinLength
    qinFit := fun _ _ => fits_tiny _
    slotsLength := h.slotsLength
    slotsFit := fun _ _ _ _ => fits_tiny _
    twf := sound_empty _ _
    twi := sound_empty _ _
    poly := sound_two 0x10000000 1 4 (by decide)
    validated := h.validated
    empty := h.empty
    degree := h.degree
    length := h.length
    unused := h.unused
    errcode := h.errcode }

/-! The values of `VALIDATE` for `q = 5`, `N = 2`: `G = 2`, `ψ = 2`, `ψ⁻¹ = 3`, `N⁻¹ = 3`, `R mod 5 = 1`. -/

/-- The slot of the modulus 5, with its roots. -/
def slotFive (g psi psiinv ninv : Word) : Slot :=
  { cq := 5, mask := 7, bcl := 0x3333333333333333, bch := 0x3333333333333333, mc := 0x3333333333333333
    hasmont := true, g := g, psi := psi, psiinv := psiinv, ninv := ninv }

theorem pending_slot : pending.slot 0 = slotFive 0 0 0 0 := by decide
theorem ready_slot : ready.slot 0 = slotFive 2 2 3 3 := by decide
theorem ready_twf : ready.twf = [(0x01000000, 1), (0x01000001, 2)] := by decide
theorem ready_twi : ready.twi = [(0x02000000, 1), (0x02000001, 3)] := by decide

theorem inv_ready : ready.Inv where
  registers _ _ := fits_tiny _
  qinLength := rfl
  qinFit _ _ := fits_tiny _
  slotsLength := rfl
  slotsFit _ _ _ _ := fits_tiny _
  twf := by rw [ready_twf]; exact sound_two 0x01000000 1 2 (by decide)
  twi := by rw [ready_twi]; exact sound_two 0x02000000 1 3 (by decide)
  poly := sound_two 0x10000000 1 4 (by decide)
  validated _ := rfl
  empty h := nomatch h
  degree _ := by decide
  length _ := by decide
  unused i h := match i with
    | 0 => absurd h (by decide)
    | 1 => rfl
    | _ + 2 => rfl
  errcode := by decide

/-! ### The context invariant -/

theorem not_power_five : ¬ ∃ e, (5 : Word).toNat = 2 ^ e := by
  rw [← ispow2_iff]; decide

theorem constants_five (g psi psiinv ninv : Word) : (slotFive g psi psiinv ninv).ConstantsOk tiny where
  mask := by simp only [slotFive]; decide
  barrett _ := by simp only [slotFive]; decide
  hasmont := ⟨fun _ => not_power_five, fun _ => rfl⟩
  powerOfTwo h := absurd h not_power_five
  montgomery _ _ := by simp only [slotFive]; decide

theorem context_pending : pending.ContextOk where
  constants _ i h := match i with
    | 0 => by rw [pending_slot]; exact constants_five _ _ _ _
    | i + 1 => absurd h (by show ¬ i + 1 < 1; omega)
  roots h := nomatch h
  tables h := nomatch h

theorem isGen_two_five : IsGen 2 5 := by
  refine ⟨by norm_num, ?_⟩
  have : Fact (Nat.Prime 2) := ⟨Nat.prime_two⟩
  exact orderOf_eq_prime_pow (p := 2) (n := 1) (by decide) (by decide)

theorem roots_five : (slotFive 2 2 3 3).RootsOk tiny 2 where
  prime := by show Nat.Prime 5; norm_num
  congruent := by decide
  small := by decide
  generator := ⟨by decide, isGen_two_five, fun _ h2 hlt => absurd (Nat.lt_of_le_of_lt h2 hlt) (by decide)⟩
  psi := by decide
  psiinv := by decide
  ninv := by decide

theorem tables_ready : ready.TablesOk 0 := by
  intro j hj
  have h : j = 0 ∨ j = 1 := by
    have : j < 2 := hj
    omega
  rcases h with rfl | rfl <;> decide

theorem context_ready : ready.ContextOk where
  constants _ i h := match i with
    | 0 => by rw [ready_slot]; exact constants_five _ _ _ _
    | i + 1 => absurd h (by show ¬ i + 1 < 1; omega)
  roots _ i h := match i with
    | 0 => by rw [ready_slot]; exact roots_five
    | i + 1 => absurd h (by show ¬ i + 1 < 1; omega)
  tables _ i h := match i with
    | 0 => tables_ready
    | i + 1 => absurd h (by show ¬ i + 1 < 1; omega)

/-! ### Witnesses: the host port and the status -/

/-- A host write of the last word of the buffer is next. -/
def writing : State := { asking 2 1 5 0 with events := [.write (BitVec.ofNat 32 (Loc.addr tiny (.poly 0 1 1))) 7] }

theorem witness_WriteThenRead :
    writing.Inv ∧ writing.busy = false ∧ fits writing.cfg 7 ∧ Loc.mapped writing.cfg (.poly 0 1 1) = true
      ∧ Loc.writable (.poly 0 1 1) = true
      ∧ writing.events = .write (BitVec.ofNat 32 (Loc.addr writing.cfg (.poly 0 1 1))) 7 :: []
      ∧ Loc.mapped writing.cfg (.poly 0 1 0) = true ∧ Loc.poly 0 1 0 ≠ .poly 0 1 1 :=
  ⟨{ inv_asking 2 1 5 0 with
      registers := fun _ _ => fits_tiny _
      unused := (inv_asking 2 1 5 0).unused },
    by decide⟩

/-! ### Witnesses: the context commands -/

theorem witness_CtxsetResult_degree_zero :
    (asking 0 1 5 0).Inv ∧ ¬ ∃ e, (asking 0 1 5 0).nreq.toNat = 2 ^ e :=
  ⟨inv_asking _ _ _ _, by rw [← ispow2_iff]; decide⟩

theorem witness_CtxsetResult_degree_not_power :
    (asking 3 1 5 0).Inv ∧ ¬ ∃ e, (asking 3 1 5 0).nreq.toNat = 2 ^ e :=
  ⟨inv_asking _ _ _ _, by rw [← ispow2_iff]; decide⟩

theorem witness_CtxsetResult_degree_above :
    (asking 4 1 5 0).Inv ∧ (asking 4 1 5 0).cfg.nmax < (asking 4 1 5 0).nreq.toNat :=
  ⟨inv_asking _ _ _ _, by decide⟩

theorem witness_CtxsetResult_length_zero :
    (asking 2 0 5 0).Inv ∧ (∃ e, (asking 2 0 5 0).nreq.toNat = 2 ^ e)
      ∧ (asking 2 0 5 0).nreq.toNat ≤ (asking 2 0 5 0).cfg.nmax ∧ (asking 2 0 5 0).lreq.toNat = 0 :=
  ⟨inv_asking _ _ _ _, ⟨1, rfl⟩, by decide⟩

theorem witness_CtxsetResult_length_above :
    (asking 2 3 5 0).Inv ∧ (∃ e, (asking 2 3 5 0).nreq.toNat = 2 ^ e)
      ∧ (asking 2 3 5 0).nreq.toNat ≤ (asking 2 3 5 0).cfg.nmax
      ∧ (asking 2 3 5 0).cfg.lmax < (asking 2 3 5 0).lreq.toNat :=
  ⟨inv_asking _ _ _ _, ⟨1, rfl⟩, by decide⟩

theorem witness_CtxsetResult_commits :
    (asking 2 2 5 4).Inv ∧ (asking 2 2 5 4).nreq.toNat = 2 ^ 1
      ∧ (asking 2 2 5 4).nreq.toNat ≤ (asking 2 2 5 4).cfg.nmax ∧ 1 ≤ (asking 2 2 5 4).lreq.toNat
      ∧ (asking 2 2 5 4).lreq.toNat ≤ (asking 2 2 5 4).cfg.lmax :=
  ⟨inv_asking _ _ _ _, by decide⟩

theorem witness_CtxsetResult_commits_lowest :
    (asking 1 1 0 0).Inv ∧ (asking 1 1 0 0).nreq.toNat = 2 ^ 0
      ∧ (asking 1 1 0 0).nreq.toNat ≤ (asking 1 1 0 0).cfg.nmax ∧ 1 ≤ (asking 1 1 0 0).lreq.toNat
      ∧ (asking 1 1 0 0).lreq.toNat ≤ (asking 1 1 0 0).cfg.lmax :=
  ⟨inv_asking _ _ _ _, by decide⟩

theorem witness_CtxsetIgnoresUnrequestedModuli :
    (∀ i, i < (asking 2 1 5 0).lreq.toNat → [(5 : Word), 9].getD i 0 = (asking 2 1 5 0).qinAt i)
      ∧ exec .ctxset (asking 2 1 5 0) = .next (after .ctxset (asking 2 1 5 0)) := by
  refine ⟨fun i hi => ?_, rfl⟩
  obtain rfl : i = 0 := by
    have : i < 1 := hi
    omega
  rfl

theorem witness_ValidateGuards :
    State.reset.configured = false ∧ ready.configured = true ∧ ready.validated = true := by decide

theorem good_five : GoodModulus tiny 2 5 := ⟨by norm_num, by decide, by decide⟩

/-- The first modulus fails: a power of two, an odd composite, and a prime that is not 1 modulo `2N`. -/
theorem witness_ValidateRejects_first :
    ∀ q ∈ [(4 : Word), 9, 7], (committed 1 q 0).Inv ∧ (committed 1 q 0).configured = true
      ∧ (committed 1 q 0).validated = false ∧ 0 < (committed 1 q 0).cl.toNat
      ∧ ¬ GoodModulus (committed 1 q 0).cfg (committed 1 q 0).cn.toNat ((committed 1 q 0).slot 0).cq.toNat := by
  intro q hq
  refine ⟨inv_committed (.inl rfl) q 0, rfl, rfl, by show 0 < 1; omega, ?_⟩
  show ¬ GoodModulus tiny 2 q.toNat
  simp only [List.mem_cons, List.not_mem_nil, or_false] at hq
  rcases hq with rfl | rfl | rfl
  · exact fun h => absurd h.2.1 (by decide)
  · exact fun h => absurd h.1 (by show ¬ Nat.Prime 9; norm_num)
  · exact fun h => absurd h.2.1 (by decide)

theorem witness_ValidateRejects_second :
    (committed 2 5 4).Inv ∧ (committed 2 5 4).configured = true ∧ (committed 2 5 4).validated = false
      ∧ 1 < (committed 2 5 4).cl.toNat
      ∧ (∀ j, j < 1 →
        GoodModulus (committed 2 5 4).cfg (committed 2 5 4).cn.toNat ((committed 2 5 4).slot j).cq.toNat)
      ∧ ¬ GoodModulus (committed 2 5 4).cfg (committed 2 5 4).cn.toNat ((committed 2 5 4).slot 1).cq.toNat := by
  refine ⟨inv_committed (.inr rfl) 5 4, rfl, rfl, by decide, fun j hj => ?_, fun h => absurd h.2.1 (by decide)⟩
  obtain rfl : j = 0 := by omega
  exact good_five

theorem witness_ValidateAccepts :
    pending.Inv ∧ pending.ContextOk ∧ pending.configured = true ∧ pending.validated = false
      ∧ ∀ i, i < pending.cl.toNat → GoodModulus pending.cfg pending.cn.toNat (pending.slot i).cq.toNat := by
  refine ⟨inv_pending, context_pending, by decide, by decide, fun i hi => ?_⟩
  obtain rfl : i = 0 := by
    have : i < 1 := hi
    omega
  exact good_five

theorem witness_PrimalityIsExact :
    isPrime 2 = true ∧ isPrime 97 = true ∧ isPrime 0 = false ∧ isPrime 1 = false ∧ isPrime 9 = false := by decide

theorem witness_SmallestGeneratorIsLeast :
    Nat.Prime 3 ∧ 3 ≤ 3 ∧ Nat.Prime 97 ∧ 3 ≤ 97 ∧ 2 ≤ 4 ∧ 4 < smallestGenerator 97 := by
  refine ⟨by norm_num, by norm_num, by norm_num, by norm_num, by norm_num, by decide⟩

theorem witness_RootOfUnityOrder : 1 ≤ 2 ∧ (ready.slot 0).RootsOk tiny 2 :=
  ⟨by norm_num, by rw [ready_slot]; exact roots_five⟩

theorem witness_CtxldResult : ready.cl.toNat ≤ (1 : BitVec 6).toNat ∧ (0 : BitVec 6).toNat < ready.cl.toNat := by decide

/-- `ready` with a command in flight. -/
def running (w : Word) : State := { ready with lastcmd := w, busy := true }

theorem not_resetNext_running (w : Word) : ¬ (running w).ResetNext := fun ⟨_, h⟩ => nomatch (h : [] = _)

theorem witness_ValidatedContextIsReadOnly :
    (running 0x40).configured = true ∧ (running 0x40).validated = true ∧ ¬ (running 0x40).ResetNext
      ∧ step (running 0x40) = .next (stepped (running 0x40)) := ⟨rfl, rfl, not_resetNext_running _, rfl⟩

theorem witness_ValidatedContextIsReadOnly_ctxset :
    (running 0x30).configured = true ∧ (running 0x30).validated = true ∧ ¬ (running 0x30).ResetNext
      ∧ step (running 0x30) = .next (stepped (running 0x30)) := ⟨rfl, rfl, not_resetNext_running _, rfl⟩

/-! ### Witnesses: the transforms -/

theorem witness_TransformChecks :
    State.reset.validated = false
      ∧ (ready.validated = true ∧ ready.cfg.nbuf ≤ (1 : BitVec 4).toNat)
      ∧ (ready.validated = true ∧ (0 : BitVec 4).toNat < ready.cfg.nbuf ∧ ready.cl.toNat ≤ (1 : BitVec 6).toNat) := by
  decide

theorem witness_TransformFrame_one : ready.TransformReady 0 false 0 := ⟨rfl, by decide, fun _ => by decide⟩

theorem witness_TransformFrame_all : ready.TransformReady 0 true 0 := ⟨rfl, by decide, fun h => nomatch h⟩

theorem witness_TransformFrame_outside :
    ∀ x ∈ ready.selected false 0, ∀ j, j < ready.cn.toNat → 0x10000002 ≠ polyAddr ready.cfg (0 : BitVec 4).toNat x j := by
  decide

/-- The second coefficient is the modulus itself. -/
def outOfRange : State := { ready with poly := [(0x10000000, 1), (0x10000001, 5)] }

theorem witness_OutOfRangeInputDraws :
    outOfRange.TransformReady 0 false 0 ∧ ¬ outOfRange.CoeffsBelow (0 : BitVec 4).toNat (0 : BitVec 6).toNat :=
  ⟨⟨rfl, by decide, fun _ => by decide⟩, fun h => absurd (h 1 (by decide)) (by decide)⟩

theorem coeffs_ready : ready.CoeffsBelow (0 : BitVec 4).toNat 0 := by
  intro j hj
  have h : j = 0 ∨ j = 1 := by
    have : j < 2 := hj
    omega
  rcases h with rfl | rfl <;> decide

/-- `ready` with what no transform of its slot reads changed: table words of index 0, the other slot, registers. -/
def disguised : State :=
  { ready with
    a := 7, q := 9, slots := [ready.slot 0, slotFive 1 1 1 1]
    twf := [(0x01000000, 9), (0x01000001, 2)], twi := [(0x02000000, 8), (0x02000001, 3)] }

theorem disguised_words :
    ∀ x ∈ ready.selected true 0, (disguised.slot x).cq = (ready.slot x).cq ∧ (disguised.slot x).mc = (ready.slot x).mc
      ∧ (disguised.slot x).ninv = (ready.slot x).ninv
      ∧ (∀ j, j < ready.cn.toNat →
        disguised.polyWord (0 : BitVec 4).toNat x j = ready.polyWord (0 : BitVec 4).toNat x j)
      ∧ (∀ i, i < ready.cn.toNat → 1 ≤ i → disguised.twfWord x i = ready.twfWord x i)
      ∧ ∀ i, i < ready.cn.toNat → 1 ≤ i → disguised.twiWord x i = ready.twiWord x i := by decide

theorem witness_TransformReads :
    ready.Inv ∧ ready.TransformReady 0 true 0 ∧ disguised.cfg = ready.cfg ∧ disguised.validated = true
      ∧ disguised.cn = ready.cn ∧ disguised.clogn = ready.clogn ∧ disguised.cl = ready.cl
      ∧ (∀ x ∈ ready.selected true 0, ready.CoeffsBelow (0 : BitVec 4).toNat x
        ∧ (disguised.slot x).cq = (ready.slot x).cq ∧ (disguised.slot x).mc = (ready.slot x).mc
        ∧ (disguised.slot x).ninv = (ready.slot x).ninv
        ∧ ∀ j, j < ready.cn.toNat →
          disguised.polyWord (0 : BitVec 4).toNat x j = ready.polyWord (0 : BitVec 4).toNat x j)
      ∧ (∀ x ∈ ready.selected true 0, ∀ i, 1 ≤ i → i < ready.cn.toNat → disguised.twfWord x i = ready.twfWord x i)
      ∧ ∀ x ∈ ready.selected true 0, ∀ i, 1 ≤ i → i < ready.cn.toNat → disguised.twiWord x i = ready.twiWord x i := by
  refine ⟨inv_ready, ⟨rfl, by decide, fun h => nomatch h⟩, rfl, rfl, rfl, rfl, rfl, fun x hx => ?_, fun x hx i h1 h2 => ?_,
    fun x hx i h1 h2 => ?_⟩
  · obtain rfl : x = 0 := by
      have : x ∈ [0] := hx
      simpa using this
    have h := disguised_words 0 hx
    exact ⟨coeffs_ready, h.1, h.2.1, h.2.2.1, h.2.2.2.1⟩
  · exact (disguised_words x hx).2.2.2.2.1 i h2 h1
  · exact (disguised_words x hx).2.2.2.2.2 i h2 h1

theorem witness_AllSlotsInTurn : ready.Inv ∧ ready.TransformReady 0 true 0 := ⟨inv_ready, witness_TransformFrame_all⟩

theorem witness_ForwardClosedForm :
    ready.Inv ∧ ready.ContextOk ∧ ready.TransformReady 0 true 0 ∧ 0 ∈ ready.selected true 0
      ∧ ready.CoeffsBelow (0 : BitVec 4).toNat 0 :=
  ⟨inv_ready, context_ready, witness_TransformFrame_all, by decide, coeffs_ready⟩

theorem witness_InverseClosedForm :
    ready.Inv ∧ ready.ContextOk ∧ ready.TransformReady 0 false 0 ∧ 0 ∈ ready.selected false 0
      ∧ ready.CoeffsBelow (0 : BitVec 4).toNat 0 :=
  ⟨inv_ready, context_ready, witness_TransformFrame_one, by decide, coeffs_ready⟩

theorem witness_TransformRoundTrip :
    ready.Inv ∧ ready.ContextOk ∧ ready.TransformReady 0 false 0
      ∧ ready.CoeffsBelow (0 : BitVec 4).toNat (0 : BitVec 6).toNat :=
  ⟨inv_ready, context_ready, witness_TransformFrame_one, coeffs_ready⟩

theorem witness_NegacyclicConvolution :
    ready.Inv ∧ ready.ContextOk ∧ ready.validated = true ∧ 0 < ready.cl.toNat
      ∧ [4, 4].length = ready.cn.toNat ∧ ∀ y ∈ [4, 4], y < (ready.slot 0).cq.toNat :=
  ⟨inv_ready, context_ready, by decide⟩

/-! ### Witnesses: the rules over all commands and steps -/

theorem witness_RegisterWriters :
    exec (.ctxld 0) ready = .next (after (.ctxld 0) ready) ∧ (after (.ctxld 0) ready).q ≠ ready.q
      ∧ exec (.nttf 0 true 0) ready = .next (after (.nttf 0 true 0) ready)
      ∧ (after (.nttf 0 true 0) ready).poly ≠ ready.poly :=
  ⟨rfl, by decide, rfl, by decide⟩

theorem witness_RegisterWriters_results :
    exec .bconst { ready with q := 5 } = .next (after .bconst { ready with q := 5 })
      ∧ (after .bconst { ready with q := 5 }).r0 ≠ ready.r0 ∧ (after .bconst { ready with q := 5 }).r1 ≠ ready.r1 :=
  ⟨rfl, by decide⟩

theorem witness_RegisterWriters_context :
    exec .validate pending = .next (after .validate pending) ∧ (after .validate pending).twf ≠ pending.twf
      ∧ exec .ctxset (asking 2 1 5 0) = .next (after .ctxset (asking 2 1 5 0))
      ∧ (after .ctxset (asking 2 1 5 0)).slots ≠ (asking 2 1 5 0).slots
      ∧ (after .ctxset (asking 2 1 5 0)).cn ≠ (asking 2 1 5 0).cn :=
  ⟨rfl, by decide, rfl, by decide⟩

theorem witness_RegisterWriters_validate :
    exec .validate failing = .next (after .validate failing) ∧ (after .validate failing).errslot ≠ failing.errslot
      ∧ (after .validate failing).errval ≠ failing.errval
      ∧ exec .ctxset ready = .next (after .ctxset ready) ∧ (after .validate pending).validated ≠ pending.validated :=
  ⟨rfl, by decide, by decide, rfl, by decide⟩

theorem witness_StepKeepsInv : ready.Inv ∧ step ready = .next ready := ⟨inv_ready, rfl⟩

theorem witness_StepKeepsContext : ready.Inv ∧ ready.ContextOk ∧ step ready = .next ready :=
  ⟨inv_ready, context_ready, rfl⟩

end Sys2Proof.Tests
end

section
/-! The state invariant: the state after reset meets it (O57) and every step keeps it (O58). -/

namespace Sys2Proof.Machine

/-! ### Words that fit -/

theorem fits_zero (k : Config) : fits k 0 := Config.R_pos k

theorem Config.two_pow_32_le_R (k : Config) : 2 ^ 32 ≤ k.R := by
  unfold Config.R
  rcases Config.W_eq k with h | h <;> simp [h]

/-- A word below `2^32` fits at both widths (rule R3). -/
theorem fits_ofNat_of_lt {k : Config} {n : Nat} (h : n < 2 ^ 32) : fits k (BitVec.ofNat 64 n) := by
  have hR := Config.two_pow_32_le_R k
  have hmod := Nat.mod_le n (2 ^ 64)
  rw [fits, BitVec.toNat_ofNat]
  omega

theorem cfgWord_fits (k : Config) : fits k (cfgWord k) := by
  obtain ⟨hl, hl64, hsize, hb, hb16⟩ := k.legal
  have hlogn : k.lognmax < 25 := by
    have hpow : 2 ^ k.lognmax ≤ 2 ^ 24 := (Nat.le_mul_of_pos_left _ hl).trans hsize
    have := (Nat.pow_le_pow_iff_right (by decide)).1 hpow
    omega
  have hW : k.W < 2 ^ 32 := by rcases Config.W_eq k with h | h <;> (rw [h]; decide)
  refine fits_ofNat_of_lt ?_
  refine Nat.or_lt_two_pow (Nat.or_lt_two_pow (Nat.or_lt_two_pow hW ?_) ?_) ?_ <;>
    (rw [Nat.shiftLeft_eq]; omega)

theorem ErrCode.code_le (e : ErrCode) : e.code ≤ 17 := by cases e <;> decide

theorem statusWord_fits (k : Config) (s : State) : fits k s.statusWord := by
  have hcode := s.errcode.code_le
  have hbusy := s.busy.toNat_le
  have hdone := s.done.toNat_le
  have herr := s.err.toNat_le
  have hhazard := s.hazard.toNat_le
  have haddr := s.addrerr.toNat_le
  have hval := s.validated.toNat_le
  have hconf := s.configured.toNat_le
  exact fits_ofNat_of_lt (by omega)

theorem boolWord_fits (k : Config) (b : Bool) : fits k (BitVec.ofNat 64 b.toNat) :=
  fits_ofNat_of_lt (b.toNat_le.trans_lt (by decide))

/-! ### The address map: what it answers exists, and each array stays in its region -/

theorem fixedLoc_mapped {k : Config} {addr : Nat} {l : Loc} (h : fixedLoc addr = some l) : l.mapped k = true := by
  unfold fixedLoc at h
  split at h <;> cases h <;> rfl

theorem Loc.ifMapped_mapped {k : Config} {l l' : Loc} (h : l.ifMapped k = some l') : l'.mapped k = true := by
  unfold Loc.ifMapped at h
  split at h
  next hm => cases h; exact hm
  next => cases h

/-- The address map answers only locations that exist (rule R62). -/
theorem locOf_mapped {k : Config} {addr : Nat} {l : Loc} (h : locOf k addr = some l) : l.mapped k = true := by
  unfold locOf at h
  split at h
  · exact fixedLoc_mapped h
  split at h
  · exact Loc.ifMapped_mapped h
  split at h
  · obtain ⟨f, -, hf⟩ := Option.bind_eq_some_iff.1 h
    exact Loc.ifMapped_mapped hf
  split at h
  · exact Loc.ifMapped_mapped h
  split at h
  · exact Loc.ifMapped_mapped h
  split at h
  · cases h
  · exact Loc.ifMapped_mapped h

/-- A slot's array of `n ≤ NMAX` words ends before the words of slot `LMAX` would begin. -/
theorem slotArray_le {k : Config} {i n : Nat} (hi : i < k.lmax) (hn : n ≤ k.nmax) :
    i * k.nmax + n ≤ k.lmax * k.nmax := by
  calc i * k.nmax + n ≤ i * k.nmax + k.nmax := Nat.add_le_add_left hn _
    _ = (i + 1) * k.nmax := by ring
    _ ≤ k.lmax * k.nmax := Nat.mul_le_mul_right _ hi

theorem twfArray_inside {k : Config} {i n : Nat} (hi : i < k.lmax) (hn : n ≤ k.nmax) :
    twfAddr k 0 0 ≤ twfAddr k i 0 ∧ twfAddr k i 0 + n ≤ twfAddr k k.lmax 0 := by
  have := slotArray_le hi hn
  simp only [twfAddr]
  omega

theorem twiArray_inside {k : Config} {i n : Nat} (hi : i < k.lmax) (hn : n ≤ k.nmax) :
    twiAddr k 0 0 ≤ twiAddr k i 0 ∧ twiAddr k i 0 + n ≤ twiAddr k k.lmax 0 := by
  have := slotArray_le hi hn
  simp only [twiAddr]
  omega

/-- A buffer's `LMAX * NMAX` words are at most `2^24` (rule R5), so an array of buffer `b` ends before the next. -/
theorem polyArray_inside {k : Config} {b i n : Nat} (hb : b < k.nbuf) (hi : i < k.lmax) (hn : n ≤ k.nmax) :
    polyAddr k 0 0 0 ≤ polyAddr k b i 0 ∧ polyAddr k b i 0 + n ≤ polyAddr k k.nbuf 0 0 := by
  obtain ⟨-, -, hsize, -, -⟩ := k.legal
  have hslot : i * k.nmax + n ≤ 2 ^ 24 := (slotArray_le hi hn).trans hsize
  simp only [polyAddr]
  omega

theorem polyWord_inside {k : Config} {b i j : Nat} (h : (Loc.poly b i j).mapped k = true) :
    polyAddr k 0 0 0 ≤ polyAddr k b i j ∧ polyAddr k b i j < polyAddr k k.nbuf 0 0 := by
  simp only [Loc.mapped, Bool.and_eq_true, decide_eq_true_eq] at h
  obtain ⟨⟨hb, hi⟩, hj⟩ := h
  obtain ⟨hlow, hhigh⟩ := polyArray_inside hb hi (Nat.succ_le_of_lt hj)
  simp only [polyAddr] at hlow hhigh ⊢
  omega

/-! ### Sound RAMs -/

theorem Ram.sound_nil (k : Config) (lo hi : Nat) : Ram.Sound k lo hi [] :=
  ⟨rfl, fun _ h => absurd h List.not_mem_nil, fun _ h => absurd h List.not_mem_nil⟩

theorem Ram.Sound.write {k : Config} {lo hi a : Nat} {r : Ram} {w : Word} (h : r.Sound k lo hi)
    (ha : lo ≤ a ∧ a < hi) (hw : fits k w) : (r.write a w).Sound k lo hi where
  wf := Ram.write_wf a w h.wf
  inside p hp := by
    rcases Ram.mem_write hp with rfl | hp
    · exact ha
    · exact h.inside p hp
  fit p hp := by
    rcases Ram.mem_write hp with rfl | hp
    · exact hw
    · exact h.fit p hp

theorem Ram.Sound.writeList {k : Config} {lo hi a : Nat} {r : Ram} {ws : List Word} (h : r.Sound k lo hi)
    (hlo : lo ≤ a) (hhi : a + ws.length ≤ hi) (hws : ∀ w ∈ ws, fits k w) : (r.writeList a ws).Sound k lo hi where
  wf := Ram.writeList_wf a ws h.wf
  inside p hp := by
    rcases Ram.mem_writeList hp with ⟨h1, h2, -⟩ | hp
    · omega
    · exact h.inside p hp
  fit p hp := by
    rcases Ram.mem_writeList hp with ⟨-, -, hw⟩ | hp
    · exact hws _ hw
    · exact h.fit p hp

theorem Ram.Sound.fillTable {k : Config} {lo hi base e : Nat} {r : Ram} (h : r.Sound k lo hi)
    (hbase : lo ≤ base ∧ base + 2 ^ e ≤ hi) (q km step count j p : Nat) :
    (fillTable k q km step e base count j p r).Sound k lo hi where
  wf := fillTable_wf k q km step e base count j p h.wf
  inside x hx := by
    rcases fillTable_mem hx with ⟨h1, h2, -⟩ | hx
    · omega
    · exact h.inside x hx
  fit x hx := by
    rcases fillTable_mem hx with ⟨-, -, n, hn⟩ | hx
    · exact hn ▸ mkWord_fits k n
    · exact h.fit x hx

theorem State.ramWord_fits {s : State} {r : Ram} {lo hi : Nat} (h : r.Sound s.cfg lo hi) (a : Nat) :
    fits s.cfg (s.ramWord r a) := by
  cases hf : r.find a with
  | none => simpa [State.ramWord, hf] using mkWord_fits _ _
  | some w => exact State.ramWord_of_find hf ▸ h.fit _ (Ram.mem_of_find hf)

/-! ### What the invariant says of a single word -/

theorem Slot.words_zero_fit (k : Config) : ∀ w ∈ Slot.zero.words, fits k w := by
  simp [Slot.words, Slot.zero, Config.R_pos k]

theorem State.Inv.slot_fits {s : State} (h : s.Inv) (i : Nat) : ∀ w ∈ (s.slot i).words, fits s.cfg w := by
  rw [State.slot, List.getD_eq_getElem?_getD]
  cases hi : s.slots[i]? with
  | none => exact Slot.words_zero_fit s.cfg
  | some v => exact h.slotsFit v (List.mem_of_getElem? hi)

theorem State.Inv.qinAt_fits {s : State} (h : s.Inv) (i : Nat) : fits s.cfg (s.qinAt i) := by
  rw [State.qinAt, List.getD_eq_getElem?_getD]
  cases hi : s.qin[i]? with
  | none => exact fits_zero s.cfg
  | some v => exact h.qinFit v (List.mem_of_getElem? hi)

theorem Slot.field_fits {k : Config} {v : Slot} (h : ∀ w ∈ v.words, fits k w) (f : SlotField) : fits k (v.field f) := by
  cases f with
  | hasmont => exact boolWord_fits k v.hasmont
  | _ => exact h _ (by simp [Slot.field, Slot.words])

/-- The host reads `W`-bit words everywhere (rules R8, R62). -/
theorem State.Inv.readLoc_fits {s : State} (h : s.Inv) (l : Loc) : fits s.cfg (s.readLoc l) := by
  cases l with
  | id => exact fits_ofNat_of_lt (n := 0x4D525531) (by decide)
  | cfg => exact cfgWord_fits s.cfg
  | ctrl => exact boolWord_fits s.cfg s.ie
  | status => exact statusWord_fits s.cfg s
  | qin i => exact h.qinAt_fits i
  | slot i f => exact Slot.field_fits (h.slot_fits i) f
  | twf i j => exact State.ramWord_fits h.twf _
  | twi i j => exact State.ramWord_fits h.twi _
  | poly b i j => exact State.ramWord_fits h.poly _
  | _ => exact h.registers _ (by simp [State.readLoc, State.registers])

/-- A committed basis lies inside the slot file. -/
theorem State.Inv.lt_lmax {s : State} (h : s.Inv) (hc : s.configured = true) {i : Nat} (hi : i < s.cl.toNat) :
    i < s.cfg.lmax :=
  hi.trans_le (h.length hc).2

/-- Registers that each hold an old value or a `W`-bit one are `W`-bit registers. -/
theorem State.Inv.registers_of_old_or_fits {s t : State} (h : s.Inv) (hcfg : t.cfg = s.cfg)
    (hreg : ∀ w ∈ t.registers, w ∈ s.registers ∨ fits s.cfg w) : ∀ w ∈ t.registers, fits t.cfg w :=
  fun w hw => hcfg ▸ (hreg w hw).elim (h.registers w) id

theorem forall_mem_set {α : Type} {P : α → Prop} {l : List α} (h : ∀ x ∈ l, P x) (i : Nat) {v : α} (hv : P v) :
    ∀ x ∈ l.set i v, P x :=
  fun x hx => (List.mem_or_eq_of_mem_set hx).elim (h x) (fun e => e ▸ hv)

/-! ### The state after reset -/

theorem State.resetWith_inv (k : Config) : (State.resetWith k).Inv where
  registers := by simp [State.registers, Config.R_pos k]
  qinLength := by simp
  qinFit := by simp [Config.R_pos k]
  slotsLength := by simp
  slotsFit v hv := by
    rw [State.resetWith_slots, List.mem_replicate] at hv
    exact hv.2 ▸ Slot.words_zero_fit k
  twf := Ram.sound_nil _ _ _
  twi := Ram.sound_nil _ _ _
  poly := Ram.sound_nil _ _ _
  validated := by simp
  empty := by simp
  degree := by simp
  length := by simp
  unused i _ := by
    rw [State.slot, State.resetWith_slots, List.getD_eq_getElem?_getD, List.getElem?_replicate]
    split <;> rfl
  errcode := by simp

/-- Right after reset nothing is configured, so the context invariant asks nothing. -/
theorem State.resetWith_contextOk (k : Config) : (State.resetWith k).ContextOk where
  constants h := by simp at h
  roots h := by simp at h
  tables h := by simp at h

/-- Settles O57. -/
theorem resetMeetsInvariants : Obligations.ResetMeetsInvariants :=
  fun k => ⟨State.resetWith_inv k, State.resetWith_contextOk k⟩

/-! ### The host's side of a step keeps the invariant -/

theorem State.Inv.setEvents {s : State} (h : s.Inv) (es : List PortEvent) : (s.setEvents es).Inv := { h with }

theorem State.assertReset_inv (s : State) : s.assertReset.Inv := { State.resetWith_inv s.cfg with }

theorem State.Inv.answer {s : State} (h : s.Inv) {w : Word} (hw : fits s.cfg w) : (s.answer w).Inv :=
  { h with registers := h.registers_of_old_or_fits rfl (by simp [State.registers, hw]) }

theorem State.Inv.accept {s : State} (h : s.Inv) {w : Word} (hw : fits s.cfg w) : (s.accept w).Inv :=
  { h with registers := h.registers_of_old_or_fits rfl (by simp [State.registers, hw]) }

theorem State.Inv.hostRead {s : State} (h : s.Inv) (addr : Nat) : (s.hostRead addr).Inv := by
  rcases State.hostRead_cases addr s with ⟨-, -, e⟩ | ⟨-, l, -, e⟩ | ⟨-, -, e⟩ <;> rw [e]
  · exact { h.answer (s.anyW_fits 0) with }
  · exact h.answer (h.readLoc_fits l)
  · exact { h.answer (fits_zero s.cfg) with }

theorem State.Inv.writeLoc {s : State} (h : s.Inv) {l : Loc} {w : Word} (hl : l.mapped s.cfg = true)
    (hw : fits s.cfg w) : (s.writeLoc l w).Inv := by
  cases l with
  | a | b | c | q | km | kbl | kbh | nreq | lreq =>
    exact { h with registers := h.registers_of_old_or_fits rfl (by simp [State.writeLoc, State.registers, hw]) }
  | qin i =>
    exact { h with
      qinLength := (List.length_set ..).trans h.qinLength
      qinFit := forall_mem_set h.qinFit i hw }
  | poly b i j => exact { h with poly := h.poly.write (polyWord_inside hl) hw }
  | _ => exact h

theorem State.Inv.hostWrite {s : State} (h : s.Inv) (addr : Nat) (v : Word) : (s.hostWrite addr v).Inv := by
  have hw : fits s.cfg (mkWord s.cfg v.toNat) := mkWord_fits _ _
  rw [State.hostWrite]
  rcases State.hostWriteWord_cases addr (mkWord s.cfg v.toNat) s with
    ⟨-, e⟩ | ⟨-, e⟩ | ⟨-, -, -, e⟩ | ⟨-, -, e⟩ | ⟨-, l, hl, -, e⟩ | ⟨-, e⟩ <;> rw [e]
  · exact { h with }
  · exact { h with }
  · exact { h with }
  · exact h.accept hw
  · exact h.writeLoc (locOf_mapped hl) hw
  · exact { h with }

/-! ### The commands keep the invariant: completion and the scalar kernel -/

theorem State.Inv.finished {s : State} (h : s.Inv) {e : ErrCode} (he : e ≠ .sizeMismatch ∧ e ≠ .entropyUnavailable) :
    (s.finished e).Inv :=
  { h with errcode := he }

theorem State.Inv.finishedOk {s : State} (h : s.Inv) : (s.finished .ok).Inv := h.finished (by decide)

theorem State.Inv.finishR0 {s : State} (h : s.Inv) (ok : Bool) (v : Nat) : (s.finishR0 ok v).Inv := by
  obtain ⟨w, n, hw, e⟩ := State.finishR0_cases s ok v
  rw [e]
  refine State.Inv.finishedOk ?_
  exact { h with registers := h.registers_of_old_or_fits rfl (by simp [State.registers, hw]) }

theorem State.Inv.finishR0R1 {s : State} (h : s.Inv) (ok : Bool) (v : Nat × Nat) : (s.finishR0R1 ok v).Inv := by
  obtain ⟨w, x, n, hw, hx, e⟩ := State.finishR0R1_cases s ok v
  rw [e]
  refine State.Inv.finishedOk ?_
  exact { h with registers := h.registers_of_old_or_fits rfl (by simp [State.registers, hw, hx]) }

/-! ### `CTXSET` and `CTXLD` -/

theorem fits_ite {k : Config} {p : Prop} [Decidable p] {v w : Word} (hv : fits k v) (hw : fits k w) :
    fits k (if p then v else w) := by
  split <;> assumption

theorem State.slotConst_fits (s : State) (i : Nat) {w : Word} (hw : fits s.cfg w) :
    ∀ x ∈ (s.slotConst i w).words, fits s.cfg x := by
  have hbcl : fits s.cfg (s.slotConst i w).bcl := fits_ite (mkWord_fits _ _) (s.anyW_fits _)
  have hbch : fits s.cfg (s.slotConst i w).bch := fits_ite (mkWord_fits _ _) (s.anyW_fits _)
  have hmc : fits s.cfg (s.slotConst i w).mc :=
    fits_ite (fits_zero _) (fits_ite (mkWord_fits _ _) (s.anyW_fits _))
  have hmask : fits s.cfg (s.slotConst i w).mask := mkWord_fits _ _
  have hzero := fits_zero s.cfg
  simp only [Slot.words, List.forall_mem_cons]
  exact ⟨hw, hmask, hbcl, hbch, hmc, hzero, hzero, hzero, hzero, fun _ h => absurd h List.not_mem_nil⟩

theorem State.degreeOk_iff (s : State) :
    s.degreeOk = true ↔ (∃ e, s.nreq.toNat = 2 ^ e) ∧ s.nreq.toNat ≤ s.cfg.nmax := by
  simp [State.degreeOk, ispow2_iff]

theorem State.lengthOk_iff (s : State) : s.lengthOk = true ↔ 1 ≤ s.lreq.toNat ∧ s.lreq.toNat ≤ s.cfg.lmax := by
  simp [State.lengthOk]

theorem State.requestedSlots_length (s : State) : s.requestedSlots.length = s.cfg.lmax := by
  simp [State.requestedSlots]

theorem State.Inv.requestedSlots_fit {s : State} (h : s.Inv) :
    ∀ v ∈ s.requestedSlots, ∀ w ∈ v.words, fits s.cfg w := by
  intro v hv
  obtain ⟨i, -, rfl⟩ := List.mem_map.1 hv
  split
  · exact s.slotConst_fits i (h.qinAt_fits i)
  · exact Slot.words_zero_fit s.cfg

/-- A slot from `LREQ` on is zero after a successful `CTXSET` (rule R170). -/
theorem State.commitRequest_slot_unused (s : State) {i : Nat} (hi : s.lreq.toNat ≤ i) :
    s.commitRequest.slot i = Slot.zero := by
  rw [State.slot, State.commitRequest_slots, State.requestedSlots, List.getD_eq_getElem?_getD, List.getElem?_map]
  cases hr : (List.range s.cfg.lmax)[i]? with
  | none => rfl
  | some j =>
    obtain ⟨_, rfl⟩ := List.getElem?_eq_some_iff.1 hr
    simp [hi]

/-- The committed `CLOGN` is the logarithm of the committed degree (rules R25, R170). -/
theorem State.commitRequest_degree {s : State} (h : s.degreeOk = true) :
    s.commitRequest.cn.toNat = 2 ^ s.commitRequest.clogn.toNat := by
  obtain ⟨⟨e, he⟩, -⟩ := s.degreeOk_iff.1 h
  have helt : e < 64 := (Nat.pow_lt_pow_iff_right (by decide)).1 (he ▸ s.nreq.isLt)
  have heR : e < s.cfg.R := helt.trans_le ((by decide : 64 ≤ 2 ^ 32).trans (Config.two_pow_32_le_R _))
  rw [State.commitRequest_cn, State.commitRequest_clogn, he, Nat.log2_two_pow, mkWord_toNat_of_lt heR]

theorem State.Inv.commitRequest {s : State} (h : s.Inv) (hd : s.degreeOk = true) (hl : s.lengthOk = true) :
    s.commitRequest.Inv :=
  { h with
    registers := h.registers_of_old_or_fits rfl (by simp [State.registers, mkWord_fits])
    slotsLength := s.requestedSlots_length
    slotsFit := h.requestedSlots_fit
    validated := by simp
    empty := by simp
    degree := fun _ => ⟨State.commitRequest_degree hd, (s.degreeOk_iff.1 hd).2⟩
    length := fun _ => s.lengthOk_iff.1 hl
    unused := fun _ => s.commitRequest_slot_unused }

theorem State.Inv.loadModulus {s : State} (h : s.Inv) {v : Slot} (hv : ∀ w ∈ v.words, fits s.cfg w) :
    (s.loadModulus v).Inv := by
  simp only [Slot.words, List.forall_mem_cons] at hv
  obtain ⟨hcq, -, hbcl, hbch, hmc, -⟩ := hv
  exact { h with registers := h.registers_of_old_or_fits rfl (by simp [State.registers, hcq, hbcl, hbch, hmc]) }

/-! ### The loops over the slots of the basis -/

/-- What the loops of `VALIDATE` and of the transforms keep from the state `s` they start in: the state invariant, in
a context committed with the same parameters and the same basis length. -/
structure State.LoopInv (s t : State) : Prop where
  inv : t.Inv
  configured : t.configured = true
  cfg : t.cfg = s.cfg
  cl : t.cl = s.cl

theorem State.LoopInv.start {s : State} (h : s.Inv) (hc : s.configured = true) : s.LoopInv s := ⟨h, hc, rfl, rfl⟩

theorem State.LoopInv.lt_lmax {s t : State} (h : s.LoopInv t) {i : Nat} (hi : i < s.cl.toNat) : i < t.cfg.lmax :=
  h.inv.lt_lmax h.configured (h.cl ▸ hi)

theorem State.LoopInv.cn_le {s t : State} (h : s.LoopInv t) : t.cn.toNat ≤ t.cfg.nmax := (h.inv.degree h.configured).2

theorem State.LoopInv.foldl {s : State} {f : State → Nat → State} {l : List Nat}
    (hf : ∀ t i, i < s.cl.toNat → s.LoopInv t → s.LoopInv (f t i)) (hl : ∀ i ∈ l, i < s.cl.toNat)
    (h : s.LoopInv s) : s.LoopInv (l.foldl f s) :=
  List.foldlRecOn l f h fun t ht i hi => hf t i (hl i hi) ht

/-! ### `VALIDATE` -/

theorem State.Inv.reportSlot {s : State} (h : s.Inv) (i : Nat) : (s.reportSlot i).Inv := by
  have hcq : fits s.cfg (s.slot i).cq := h.slot_fits i _ (by simp [Slot.words])
  exact { h with registers := h.registers_of_old_or_fits rfl (by simp [State.registers, mkWord_fits, hcq]) }

theorem Slot.withRoots_fits {k : Config} {v : Slot} (n : Nat) (h : ∀ w ∈ v.words, fits k w) :
    ∀ w ∈ (v.withRoots k n).words, fits k w := by
  simp only [Slot.words, List.forall_mem_cons] at h ⊢
  obtain ⟨hcq, hmask, hbcl, hbch, hmc, -⟩ := h
  exact ⟨hcq, hmask, hbcl, hbch, hmc, mkWord_fits _ _, mkWord_fits _ _, mkWord_fits _ _, mkWord_fits _ _,
    fun _ h => absurd h List.not_mem_nil⟩

theorem State.slot_set_other (s : State) {i j : Nat} (v : Slot) (h : i ≠ j) :
    (s.slots.set i v).getD j Slot.zero = s.slot j := by
  simp [State.slot, List.getD_eq_getElem?_getD, List.getElem?_set_ne h]

/-- Each table of `Precompute(i)` has `2^CLOGN = CN` words, so it stays in slot `i`'s part of its RAM. -/
theorem State.LoopInv.precompute {s t : State} (h : s.LoopInv t) {i : Nat} (hi : i < s.cl.toNat) :
    s.LoopInv (t.precompute i) := by
  have hlmax := h.lt_lmax hi
  have hsize : 2 ^ t.clogn.toNat ≤ t.cfg.nmax := (h.inv.degree h.configured).1 ▸ h.cn_le
  refine ⟨{ h.inv with
    slotsLength := (List.length_set ..).trans h.inv.slotsLength
    slotsFit := forall_mem_set h.inv.slotsFit i (Slot.withRoots_fits _ (h.inv.slot_fits i))
    twf := h.inv.twf.fillTable (twfArray_inside hlmax hsize) ..
    twi := h.inv.twi.fillTable (twiArray_inside hlmax hsize) ..
    unused := fun j hj => ?_ }, h.configured, h.cfg, h.cl⟩
  have hij : i ≠ j := (hi.trans_le (h.cl ▸ hj)).ne
  exact (t.slot_set_other _ hij).trans (h.inv.unused j hj)

theorem State.Inv.precomputeAll {s : State} (h : s.Inv) (hc : s.configured = true) : s.precomputeAll.Inv := by
  have hloop : s.LoopInv ((List.range s.cl.toNat).foldl State.precompute s) :=
    State.LoopInv.foldl (fun _ _ hi ht => ht.precompute hi) (fun _ => List.mem_range.1) (.start h hc)
  exact { hloop.inv with validated := fun _ => hloop.configured }

/-! ### The transform commands -/

theorem length_foldl_eq {α β : Type} {f : List α → β → List α} (hf : ∀ a x, (f a x).length = a.length) (l : List β)
    (a : List α) : (l.foldl f a).length = a.length :=
  List.foldlRecOn l f (motive := fun b => b.length = a.length) rfl fun b hb x _ => (hf b x).trans hb

theorem pairInPlace_length (f : Nat → Nat → Nat × Nat) (t j : Nat) (a : List Nat) :
    (pairInPlace f t j a).length = a.length := by
  simp [pairInPlace]

theorem blockInPlace_length (f : Nat → Nat → Nat × Nat) (t j : Nat) (a : List Nat) :
    (blockInPlace f t j a).length = a.length :=
  length_foldl_eq (fun _ _ => pairInPlace_length ..) _ a

theorem stageInPlace_length (f : Nat → Nat → Nat → Nat × Nat) (tw : Nat → Nat) (blocks t : Nat) (a : List Nat) :
    (stageInPlace f tw blocks t a).length = a.length :=
  length_foldl_eq (fun _ _ => blockInPlace_length ..) _ a

theorem forwardStages_length (f : Nat → Nat → Nat → Nat × Nat) (tw : Nat → Nat) (stages m t : Nat) (a : List Nat) :
    (forwardStages f tw stages m t a).length = a.length := by
  induction stages generalizing m t a with
  | zero => rfl
  | succ stages ih => rw [forwardStages, ih, stageInPlace_length]

theorem inverseStages_length (f : Nat → Nat → Nat → Nat × Nat) (tw : Nat → Nat) (stages m t : Nat) (a : List Nat) :
    (inverseStages f tw stages m t a).length = a.length := by
  induction stages generalizing m t a with
  | zero => rfl
  | succ stages ih => rw [inverseStages, ih, stageInPlace_length]

theorem State.forwardSlot_length (s : State) (i : Nat) (a : List Nat) : (s.forwardSlot i a).length = a.length :=
  forwardStages_length ..

theorem State.inverseSlot_length (s : State) (i : Nat) (a : List Nat) : (s.inverseSlot i a).length = a.length :=
  List.length_map (as := inverseStages ..) _ |>.trans (inverseStages_length ..)

theorem State.coeffs_length (s : State) (buf : BitVec 4) (i : Nat) : (s.coeffs buf i).length = s.cn.toNat := by
  simp [State.coeffs, State.polyArray]

/-- The checks of rule R200 in the words of the statements. -/
theorem State.transformError_eq_none_iff (s : State) (buf : BitVec 4) (all : Bool) (slot : BitVec 6) :
    s.transformError buf all slot = none ↔ s.TransformReady buf all slot := by
  unfold State.transformError State.TransformReady
  cases s.validated with
  | false => simp
  | true =>
    by_cases hb : s.cfg.nbuf ≤ buf.toNat
    · simp [hb, Nat.not_lt.2 hb]
    · cases all <;> simp [hb, Nat.lt_of_not_le hb]

/-- The errors of rule R200. -/
theorem State.transformError_mem {s : State} {buf : BitVec 4} {all : Bool} {slot : BitVec 6} {e : ErrCode}
    (h : s.transformError buf all slot = some e) : e = .notValidated ∨ e = .badBuffer ∨ e = .badSlot := by
  unfold State.transformError at h
  split at h
  · exact .inl (Option.some.inj h).symm
  split at h
  · exact .inr (.inl (Option.some.inj h).symm)
  split at h
  · exact .inr (.inr (Option.some.inj h).symm)
  · cases h

theorem State.TransformReady.selected_lt {s : State} {buf : BitVec 4} {all : Bool} {slot : BitVec 6}
    (h : s.TransformReady buf all slot) : ∀ i ∈ s.selected all slot, i < s.cl.toNat := by
  obtain ⟨-, -, hslot⟩ := h
  cases all with
  | true => exact fun _ => List.mem_range.1
  | false => exact fun i hi => List.mem_singleton.1 hi ▸ hslot rfl

section Transform

variable {tr : State → Nat → List Nat → List Nat} (htr : ∀ s i a, (tr s i a).length = a.length)
include htr

/-- A transformed array has `CN` words, so it stays in its slot's part of its buffer. -/
theorem State.LoopInv.transformSlot {s t : State} (h : s.LoopInv t) {buf : BitVec 4} (hb : buf.toNat < s.cfg.nbuf)
    {i : Nat} (hi : i < s.cl.toNat) : s.LoopInv (State.transformSlot tr buf t i) := by
  obtain ⟨ws, n, hws, hlen, e⟩ := State.transformSlot_cases tr buf t i
  rw [htr, State.coeffs_length, or_self] at hlen
  obtain ⟨hlow, hhigh⟩ := polyArray_inside (h.cfg ▸ hb) (h.lt_lmax hi) h.cn_le
  rw [e]
  exact ⟨{ h.inv with poly := h.inv.poly.writeList hlow (hlen ▸ hhigh) hws }, h.configured, h.cfg, h.cl⟩

theorem State.Inv.transform {s : State} (h : s.Inv) (buf : BitVec 4) (all : Bool) (slot : BitVec 6) :
    (s.transform tr buf all slot).Inv := by
  rcases State.transform_cases tr buf all slot s with ⟨e, he, heq⟩ | ⟨hnone, heq⟩ <;> rw [heq]
  · refine h.finished ?_
    rcases State.transformError_mem he with rfl | rfl | rfl <;> decide
  · have hready := (s.transformError_eq_none_iff buf all slot).1 hnone
    obtain ⟨hvalidated, hb, -⟩ := id hready
    have hloop : s.LoopInv ((s.selected all slot).foldl (State.transformSlot tr buf) s) :=
      State.LoopInv.foldl (fun _ _ hi ht => ht.transformSlot htr hb hi) hready.selected_lt
        (.start h (h.validated hvalidated))
    exact hloop.inv.finishedOk

end Transform

/-! ### Every command, and every step -/

/-- The outcome is no state, or one that meets the state invariant. -/
def AnswersInv (o : Host.Outcome State Fault Refusal) : Prop := ∀ t, o = .next t → t.Inv

theorem State.Inv.answersInv_next {s : State} (h : s.Inv) : AnswersInv (.next s) := by
  intro t ht
  cases ht
  exact h

theorem State.Inv.execCtxset_answersInv {s : State} (h : s.Inv) : AnswersInv (execCtxset s) := by
  rcases execCtxset_cases s with ⟨-, e⟩ | ⟨-, -, e⟩ | ⟨hd, hl, e⟩ <;> rw [e]
  · exact (h.finished (by decide)).answersInv_next
  · exact (h.finished (by decide)).answersInv_next
  · exact (h.commitRequest hd hl).finishedOk.answersInv_next

theorem State.Inv.execValidate_answersInv {s : State} (h : s.Inv) : AnswersInv (execValidate s) := by
  rcases execValidate_cases s with ⟨-, e⟩ | ⟨-, -, e⟩ | ⟨-, -, i, -, e⟩ | ⟨hc, -, -, e⟩ <;> rw [e]
  · exact (h.finished (by decide)).answersInv_next
  · exact h.finishedOk.answersInv_next
  · exact ((h.reportSlot i).finished (by decide)).answersInv_next
  · exact (h.precomputeAll hc).finishedOk.answersInv_next

theorem State.Inv.execCtxld_answersInv {s : State} (h : s.Inv) (slot : BitVec 6) : AnswersInv (execCtxld slot s) := by
  rcases execCtxld_cases slot s with ⟨-, e⟩ | ⟨-, e⟩ <;> rw [e]
  · exact (h.finished (by decide)).answersInv_next
  · exact (h.loadModulus (h.slot_fits _)).finishedOk.answersInv_next

theorem State.Inv.exec_answersInv {s : State} (h : s.Inv) (i : Instr) : AnswersInv (exec i s) := by
  cases i with
  | nop => exact h.finishedOk.answersInv_next
  | mform | mtos | mred | mredLazy | bred | cred | madd | msub | modpow | fred | mconst =>
    exact (h.finishR0 _ _).answersInv_next
  | bconst | bfct | bfgs => exact (h.finishR0R1 _ _).answersInv_next
  | ctxset => exact h.execCtxset_answersInv
  | validate => exact h.execValidate_answersInv
  | ctxld slot => exact h.execCtxld_answersInv slot
  | nttf buf all slot => exact (h.transform State.forwardSlot_length buf all slot).answersInv_next
  | ntti buf all slot => exact (h.transform State.inverseSlot_length buf all slot).answersInv_next

theorem State.Inv.unitStep_answersInv {s : State} (h : s.Inv) : AnswersInv (unitStep s) := by
  rcases unitStep_cases s with ⟨-, e⟩ | ⟨-, i, -, e⟩ | ⟨-, -, -, e⟩ <;> rw [e]
  · exact h.answersInv_next
  · exact h.exec_answersInv i
  · exact (h.finished (by decide)).answersInv_next

theorem State.Inv.step_answersInv {s : State} (h : s.Inv) : AnswersInv (step s) := by
  rcases step_cases s with ⟨-, e⟩ | ⟨addr, es, -, e⟩ | ⟨addr, v, es, -, e⟩ | ⟨es, -, e⟩ <;> rw [e]
  · exact (h.setEvents _).unitStep_answersInv
  · exact ((h.setEvents es).hostRead addr.toNat).answersInv_next
  · exact ((h.setEvents es).hostWrite addr.toNat v).answersInv_next
  · exact (State.assertReset_inv _).answersInv_next

/-- Settles O58: each event, and each command on the unit's turn, keeps the invariant. -/
theorem stepKeepsInv : Obligations.StepKeepsInv := fun _ t h ht => h.step_answersInv t ht

end Sys2Proof.Machine
end

section
/-! The generator search finds the least generator (O43). -/

namespace Sys2Proof.Machine

/-! ### The generator search of rule R174 -/

theorem modPow_eq_one_iff {q : Nat} (hq : 1 < q) (g d : Nat) : modPow g d q = 1 ↔ (g : ZMod q) ^ d = 1 := by
  have hcast := ZMod.natCast_eq_natCast_iff' (g ^ d) 1 q
  rw [Nat.cast_pow, Nat.cast_one, Nat.mod_eq_of_lt hq] at hcast
  rw [modPow_eq, hcast]

/-- The search over divisor pairs from `d` on finds no proper exponent exactly when no pair `(e, n / e)` with
`d ≤ e ≤ √n` holds one; `fuel` candidates are enough to reach `√n`. -/
theorem noProperOrderFrom_iff {g q n : Nat} (fuel : Nat) : ∀ d, n < (d + fuel) * (d + fuel) →
    (noProperOrderFrom g q n fuel d = true ↔ ∀ e, d ≤ e → e * e ≤ n → e ∣ n →
      (e = n ∨ modPow g e q ≠ 1) ∧ (n / e = n ∨ modPow g (n / e) q ≠ 1)) := by
  induction fuel with
  | zero =>
    intro d hd
    refine iff_of_true rfl fun e he hn => absurd (Nat.mul_le_mul he he) ?_
    simp only [Nat.add_zero] at hd
    omega
  | succ fuel ih =>
    intro d hd
    by_cases hbig : n < d * d
    · refine iff_of_true (by simp [noProperOrderFrom, hbig]) fun e he hn => absurd (Nat.mul_le_mul he he) ?_
      omega
    · have hrec := ih (d + 1) (by rwa [Nat.add_right_comm, Nat.add_assoc])
      have hhere : (n % d != 0 || ((d == n || modPow g d q != 1) && (n / d == n || modPow g (n / d) q != 1))) = true ↔
          (d ∣ n → (d = n ∨ modPow g d q ≠ 1) ∧ (n / d = n ∨ modPow g (n / d) q ≠ 1)) := by
        simp [Nat.dvd_iff_mod_eq_zero, imp_iff_not_or]
      rw [noProperOrderFrom, if_neg hbig, Bool.and_eq_true, hhere, hrec]
      constructor
      · rintro ⟨hd, hlater⟩ e he hn hdvd
        rcases he.eq_or_lt with rfl | hlt
        · exact hd hdvd
        · exact hlater e hlt hn hdvd
      · intro hall
        exact ⟨hall d le_rfl (not_lt.1 hbig), fun e he => hall e (by omega)⟩

/-- Every divisor stands in a pair whose smaller member the search visits. -/
theorem noProperOrderFrom_one_iff {g q n : Nat} (hn : 0 < n) :
    noProperOrderFrom g q n n 1 = true ↔ ∀ d, d ∣ n → d ≠ n → modPow g d q ≠ 1 := by
  rw [noProperOrderFrom_iff n 1 (by nlinarith)]
  constructor
  · intro hpairs d hdvd hne
    have hd : 0 < d := Nat.pos_of_dvd_of_pos hdvd hn
    have hmul : d * (n / d) = n := Nat.mul_div_cancel' hdvd
    rcases le_total d (n / d) with hle | hle
    · have hsq : d * d ≤ n := (Nat.mul_le_mul_left d hle).trans_eq hmul
      exact (hpairs d hd hsq hdvd).1.resolve_left hne
    · have hsq : n / d * (n / d) ≤ n := (Nat.mul_le_mul_right _ hle).trans_eq hmul
      have hpair := (hpairs (n / d) (Nat.div_pos (Nat.le_of_dvd hn hdvd) hd) hsq (Nat.div_dvd_of_dvd hdvd)).2
      rw [Nat.div_div_self hdvd hn.ne'] at hpair
      exact hpair.resolve_left hne
  · intro hall e he hsq hdvd
    exact ⟨or_iff_not_imp_left.2 (hall e hdvd), or_iff_not_imp_left.2 (hall (n / e) (Nat.div_dvd_of_dvd hdvd))⟩

/-- The test of rule R11 decides the order in `ZMod q`. -/
theorem hasFullOrder_iff {q : Nat} (hq : 1 < q) (g : Nat) :
    hasFullOrder g q = true ↔ orderOf (g : ZMod q) = q - 1 := by
  have hpos : 0 < q - 1 := by omega
  rw [hasFullOrder, Bool.and_eq_true, beq_iff_eq, noProperOrderFrom_one_iff hpos, modPow_eq_one_iff hq]
  simp only [ne_eq, modPow_eq_one_iff hq]
  constructor
  · rintro ⟨hpow, hproper⟩
    by_contra hne
    exact hproper _ (orderOf_dvd_of_pow_eq_one hpow) hne (pow_orderOf_eq_one _)
  · intro hord
    refine ⟨hord ▸ pow_orderOf_eq_one _, fun d hdvd hne hpow => hne (Nat.dvd_antisymm hdvd ?_)⟩
    exact hord ▸ orderOf_dvd_of_pow_eq_one hpow

theorem hasFullOrder_iff_isGen {q : Nat} (hq : Nat.Prime q) (g : Nat) : hasFullOrder g q = true ↔ IsGen g q := by
  rw [hasFullOrder_iff hq.one_lt, IsGen, and_iff_right hq]

/-- The search answers the first candidate that generates, when there is one among the `fuel` it looks at. -/
theorem findGenerator_spec {q x : Nat} (fuel : Nat) : ∀ g, g ≤ x → x < g + fuel → hasFullOrder x q = true →
    g ≤ findGenerator q fuel g ∧ findGenerator q fuel g ≤ x ∧ hasFullOrder (findGenerator q fuel g) q = true
      ∧ ∀ h, g ≤ h → h < findGenerator q fuel g → hasFullOrder h q = false := by
  induction fuel with
  | zero => intro g hle hlt; omega
  | succ fuel ih =>
    intro g hle hlt hx
    rw [findGenerator]
    split
    next hg => exact ⟨le_rfl, hle, hg, fun h h1 h2 => by omega⟩
    next hg =>
      have hgx : g ≠ x := by rintro rfl; exact hg hx
      obtain ⟨hlow, hhigh, hgen, hleast⟩ := ih (g + 1) (by omega) (by omega) hx
      refine ⟨by omega, hhigh, hgen, fun h h1 h2 => ?_⟩
      rcases h1.eq_or_lt with rfl | h1
      · simpa using hg
      · exact hleast h h1 h2

/-- The multiplicative group of a prime field is cyclic, so it has a generator among `2, …, q - 1`. -/
theorem exists_isGen {q : Nat} (hq : Nat.Prime q) (h3 : 3 ≤ q) : ∃ g, 2 ≤ g ∧ g < q ∧ IsGen g q := by
  have : Fact q.Prime := ⟨hq⟩
  obtain ⟨u, hu⟩ := IsCyclic.exists_ofOrder_eq_natCard (α := (ZMod q)ˣ)
  rw [Nat.card_eq_fintype_card, ZMod.card_units, ← orderOf_units] at hu
  have hcast : (((u : ZMod q).val : Nat) : ZMod q) = u := ZMod.natCast_zmod_val _
  have hne0 : (u : ZMod q).val ≠ 0 := by simp
  have hne1 : (u : ZMod q).val ≠ 1 := by
    intro h
    rw [h, Nat.cast_one] at hcast
    rw [← hcast, orderOf_one] at hu
    omega
  exact ⟨(u : ZMod q).val, by omega, ZMod.val_lt _, hq, by rw [hcast, hu]⟩

/-- Settles O43: the search stops at the first candidate of full order, and one stands below `q`. -/
theorem smallestGeneratorIsLeast : Obligations.SmallestGeneratorIsLeast := by
  intro q hq h3
  obtain ⟨x, h2x, hxq, hx⟩ := exists_isGen hq h3
  obtain ⟨hlow, hhigh, hgen, hleast⟩ :=
    findGenerator_spec q 2 h2x (by omega) ((hasFullOrder_iff_isGen hq x).2 hx)
  refine ⟨hlow, hhigh.trans_lt hxq, (hasFullOrder_iff_isGen hq _).1 hgen, fun h h2 hlt hisGen => ?_⟩
  have hfalse := hleast h h2 hlt
  rw [(hasFullOrder_iff_isGen hq h).2 hisGen] at hfalse
  contradiction

end Sys2Proof.Machine
end

section
/-! Bit fields of a word: a word put together from fields by `|||` and shifts is the sum of the shifted fields, and a
bit or a field of a word is read off its value by division (rule R9). -/

namespace Sys2Proof.Machine

theorem or_shiftLeft_eq_add {b k : Nat} (h : b < 2 ^ k) (a : Nat) : b ||| a <<< k = b + a * 2 ^ k := by
  rw [Nat.or_comm, ← Nat.shiftLeft_add_eq_or_of_lt h, Nat.shiftLeft_eq, Nat.add_comm]

/-- A field that stays inside the word loses no bit when it is shifted to its place. -/
theorem toNat_shiftLeft_setWidth {m k : Nat} (h : m + k ≤ 64) (x : BitVec m) :
    (x.setWidth 64 <<< k).toNat = x.toNat <<< k := by
  have hx : x.toNat < 2 ^ 64 := x.isLt.trans_le (Nat.pow_le_pow_right (by decide) (by omega))
  have hfits : x.toNat * 2 ^ k < 2 ^ 64 :=
    calc x.toNat * 2 ^ k < 2 ^ m * 2 ^ k := Nat.mul_lt_mul_of_pos_right x.isLt (Nat.two_pow_pos k)
      _ = 2 ^ (m + k) := (Nat.pow_add ..).symm
      _ ≤ 2 ^ 64 := Nat.pow_le_pow_right (by decide) h
  rw [BitVec.toNat_shiftLeft, BitVec.toNat_setWidth, Nat.mod_eq_of_lt hx, Nat.shiftLeft_eq, Nat.mod_eq_of_lt hfits]

theorem getLsbD_of_div_mod {w : Word} {n : Nat} {b : Bool} (h : w.toNat / 2 ^ n % 2 = b.toNat) : w.getLsbD n = b := by
  rw [BitVec.getLsbD, Nat.testBit_eq_decide_div_mod_eq, h]
  cases b <;> rfl

theorem getLsbD_of_toNat_lt {w : Word} {m n : Nat} (h : w.toNat < 2 ^ m) (hmn : m ≤ n) : w.getLsbD n = false :=
  Nat.testBit_lt_two_pow (h.trans_le (Nat.pow_le_pow_right (by decide) hmn))

theorem extractLsb'_of_div_mod {w : Word} {m n : Nat} {x : BitVec m} (h : w.toNat / 2 ^ n % 2 ^ m = x.toNat) :
    w.extractLsb' n m = x := by
  apply BitVec.eq_of_toNat_eq
  rw [BitVec.extractLsb'_toNat, Nat.shiftRight_eq_div_pow, h]

end Sys2Proof.Machine
end

section
/-! The decoder reads back what the encoder wrote, and a word it accepts has no reserved bit (rules R91, R94, R96). -/

namespace Sys2Proof.Machine

section Fields

variable (opc : BitVec 8) (lz all : Bool) (slot : BitVec 6) (buf : BitVec 4)

theorem encodeFields_toNat : (encodeFields opc lz all slot buf).toNat
    = opc.toNat + lz.toNat * 2 ^ 8 + all.toNat * 2 ^ 9 + slot.toNat * 2 ^ 10 + buf.toNat * 2 ^ 16 := by
  have hopc := opc.isLt
  have hlz := lz.toNat_le
  have hall := all.toNat_le
  have hslot := slot.isLt
  rw [encodeFields, BitVec.toNat_or, BitVec.toNat_or, BitVec.toNat_or, BitVec.toNat_or, BitVec.toNat_setWidth,
    Nat.mod_eq_of_lt (by omega), toNat_shiftLeft_setWidth (by decide), toNat_shiftLeft_setWidth (by decide),
    toNat_shiftLeft_setWidth (by decide), toNat_shiftLeft_setWidth (by decide), BitVec.toNat_ofBool,
    BitVec.toNat_ofBool, or_shiftLeft_eq_add (k := 8) (by omega), or_shiftLeft_eq_add (k := 9) (by omega),
    or_shiftLeft_eq_add (k := 10) (by omega), or_shiftLeft_eq_add (k := 16) (by omega)]

theorem opcField_encodeFields : opcField (encodeFields opc lz all slot buf) = opc := by
  refine extractLsb'_of_div_mod ?_
  have hopc := opc.isLt
  rw [encodeFields_toNat]
  omega

theorem lzField_encodeFields : lzField (encodeFields opc lz all slot buf) = lz := by
  refine getLsbD_of_div_mod ?_
  have hopc := opc.isLt
  have hlz := lz.toNat_le
  rw [encodeFields_toNat]
  omega

theorem allField_encodeFields : allField (encodeFields opc lz all slot buf) = all := by
  refine getLsbD_of_div_mod ?_
  have hopc := opc.isLt
  have hlz := lz.toNat_le
  have hall := all.toNat_le
  rw [encodeFields_toNat]
  omega

theorem slotField_encodeFields : slotField (encodeFields opc lz all slot buf) = slot := by
  refine extractLsb'_of_div_mod ?_
  have hopc := opc.isLt
  have hlz := lz.toNat_le
  have hall := all.toNat_le
  have hslot := slot.isLt
  rw [encodeFields_toNat]
  omega

theorem bufField_encodeFields : bufField (encodeFields opc lz all slot buf) = buf := by
  refine extractLsb'_of_div_mod ?_
  have hopc := opc.isLt
  have hlz := lz.toNat_le
  have hall := all.toNat_le
  have hslot := slot.isLt
  have hbuf := buf.isLt
  rw [encodeFields_toNat]
  omega

theorem reservedField_encodeFields : reservedField (encodeFields opc lz all slot buf) = 0 := by
  refine extractLsb'_of_div_mod ?_
  have hopc := opc.isLt
  have hlz := lz.toNat_le
  have hall := all.toNat_le
  have hslot := slot.isLt
  have hbuf := buf.isLt
  rw [encodeFields_toNat]
  show _ = 0
  omega

end Fields

theorem Opcode.ofCode_code (o : Opcode) : Opcode.ofCode o.code = some o := by cases o <;> decide

/-- The decoder on a word put together from fields is the legality test on those fields. -/
theorem decode_encodeFields (o : Opcode) (lz all : Bool) (slot : BitVec 6) (buf : BitVec 4) :
    decode (encodeFields o.code lz all slot buf) = checkFields o lz all slot buf := by
  simp only [decode, reservedField_encodeFields, opcField_encodeFields, Opcode.ofCode_code, lzField_encodeFields,
    allField_encodeFields, slotField_encodeFields, bufField_encodeFields, bne_self_eq_false, Bool.false_eq_true,
    if_false]

/-- With every operand field 0 the legality test passes at every opcode. -/
theorem decode_encodePlain (o : Opcode) : decode (encodePlain o) = .ok (o.instr false false 0 0) := by
  rw [encodePlain, decode_encodeFields]
  rfl

theorem allSlotOk_iff (all : Bool) (slot : BitVec 6) : allSlotOk all slot = true ↔ (all = true → slot = 0) := by
  cases all <;> simp [allSlotOk]

theorem decode_encode {i : Instr} (h : i.wellFormed = true) : decode (encode i) = .ok i := by
  cases i with
  | mredLazy => exact decode_encodeFields .mred true false 0 0
  | ctxld slot =>
    rw [encode, decode_encodeFields]
    simp [checkFields, Opcode.usesSlot, Opcode.instr]
  | nttf buf all slot | ntti buf all slot =>
    have hslot := (allSlotOk_iff all slot).1 h
    rw [encode, decode_encodeFields]
    simpa [checkFields, Opcode.usesAll, Opcode.usesSlot, Opcode.usesBuf, Opcode.instr] using hslot
  | _ => exact decode_encodePlain _

/-- A word the decoder accepts has no reserved bit set. -/
theorem toNat_lt_of_decode {v : Word} {i : Instr} (h : decode v = .ok i) : v.toNat < 2 ^ 20 := by
  have hres : reservedField v = 0 := by
    by_contra hne
    rw [decode, if_pos (bne_iff_ne.2 hne)] at h
    contradiction
  have hv := v.isLt
  have hzero : (reservedField v).toNat = 0 := by rw [hres]; rfl
  rw [reservedField, BitVec.extractLsb'_toNat, Nat.shiftRight_eq_div_pow] at hzero
  omega

end Sys2Proof.Machine
end

section
/-! The unit's turn (O5), and a command submitted through `CMD` (O6). -/

namespace Sys2Proof.Machine

/-! ### A step, by the event that comes next -/

theorem step_of_nil {s : State} (h : s.events = []) : step s = unitStep s := by
  unfold step
  rw [h]

theorem step_of_unit {s : State} {es : List PortEvent} (h : s.events = .unit :: es) :
    step s = unitStep (s.setEvents es) := by
  unfold step
  rw [h]

theorem step_of_read {s : State} {addr : BitVec 32} {es : List PortEvent} (h : s.events = .read addr :: es) :
    step s = .next ((s.setEvents es).hostRead addr.toNat) := by
  unfold step
  rw [h]

theorem step_of_write {s : State} {addr : BitVec 32} {v : Word} {es : List PortEvent}
    (h : s.events = .write addr v :: es) : step s = .next ((s.setEvents es).hostWrite addr.toNat v) := by
  unfold step
  rw [h]

/-! ### The command in flight -/

theorem unitStep_of_decode {s : State} {i : Instr} (hb : s.busy = true) (hd : decode s.lastcmd = .ok i) :
    unitStep s = exec i s := by
  rw [unitStep, if_pos hb, State.inFlight, hd]

/-- Settles O5. -/
theorem stepRunsDecoded : Obligations.StepRunsDecoded := by
  intro s i hb hd
  refine ⟨fun h => ?_, fun es h => ?_⟩
  · rw [step_of_nil h, unitStep_of_decode hb hd]
  · rw [step_of_unit h]
    exact unitStep_of_decode (s := s.setEvents es) hb hd

/-! ### Acceptance -/

/-- A command word loses no bit on its way to `LASTCMD`, whichever the width (rules R3, R90). -/
theorem mkWord_of_decode (k : Config) {v : Word} {i : Instr} (h : decode v = .ok i) : mkWord k v.toNat = v := by
  have hv := toNat_lt_of_decode h
  have hR := Config.two_pow_32_le_R k
  exact mkWord_self (by omega)

/-- An idle unit accepts a command word written to `CMD` (rules R36, R64). -/
theorem State.hostWrite_cmd {s : State} {v : Word} {i : Instr} (hb : s.busy = false) (hd : decode v = .ok i) :
    s.hostWrite 4 v = s.accept v := by
  simp [State.hostWrite, State.hostWriteWord, hb, mkWord_of_decode s.cfg hd]

/-- Settles O6: acceptance, then the unit's turn of O5. -/
theorem submittedCommandRuns : Obligations.SubmittedCommandRuns := by
  intro s i es hwf hb hev
  have hd := decode_encode hwf
  obtain ⟨-, hrun⟩ := stepRunsDecoded { s with lastcmd := encode i, busy := true, events := .unit :: es } i rfl hd
  refine ⟨_, ?_, rfl, hrun es rfl⟩
  rw [step_of_write hev]
  exact congrArg _ (State.hostWrite_cmd (s := s.setEvents (.unit :: es)) hb hd)

end Sys2Proof.Machine
end

section
/-! The word `STATUS` reads as (O14). -/

namespace Sys2Proof.Machine

theorem ErrCode.code_eq_zero_iff (e : ErrCode) : e.code = 0 ↔ e = .ok := by cases e <;> decide

theorem State.err_iff (s : State) : s.err = true ↔ s.errcode ≠ .ok := by
  rw [State.err, bne_iff_ne, ne_eq, ErrCode.code_eq_zero_iff]

/-- Bits 7:0 are the flags, bits 15:8 the number of `ERRCODE`, and the word ends there (rule R31). -/
theorem State.statusWord_fields (s : State) :
    (s.statusWord.getLsbD 0 = s.busy ∧ s.statusWord.getLsbD 1 = s.done ∧ s.statusWord.getLsbD 2 = s.err
      ∧ s.statusWord.getLsbD 3 = s.hazard ∧ s.statusWord.getLsbD 4 = s.addrerr
      ∧ s.statusWord.getLsbD 5 = s.validated ∧ s.statusWord.getLsbD 6 = s.configured
      ∧ s.statusWord.getLsbD 7 = false)
    ∧ (s.statusWord.extractLsb' 8 8).toNat = s.errcode.code ∧ s.statusWord.toNat < 2 ^ 16 := by
  have hbusy := s.busy.toNat_le
  have hdone := s.done.toNat_le
  have herr := s.err.toNat_le
  have hhazard := s.hazard.toNat_le
  have haddr := s.addrerr.toNat_le
  have hval := s.validated.toNat_le
  have hconf := s.configured.toNat_le
  have hcode := s.errcode.code_le
  have hw : s.statusWord.toNat = s.busy.toNat + 2 * s.done.toNat + 4 * s.err.toNat + 8 * s.hazard.toNat
      + 16 * s.addrerr.toNat + 32 * s.validated.toNat + 64 * s.configured.toNat + 256 * s.errcode.code := by
    rw [State.statusWord, BitVec.toNat_ofNat]
    omega
  have hfalse : false.toNat = 0 := rfl
  rw [BitVec.extractLsb'_toNat, Nat.shiftRight_eq_div_pow]
  refine ⟨⟨?_, ?_, ?_, ?_, ?_, ?_, ?_, ?_⟩, by omega, by omega⟩ <;> exact getLsbD_of_div_mod (by omega)

/-- Settles O14. -/
theorem statusWordBits : Obligations.StatusWordBits := by
  intro s
  obtain ⟨⟨hbusy, hdone, herr, hhazard, haddr, hval, hconf, hseven⟩, hcode, hlt⟩ := s.statusWord_fields
  refine ⟨hbusy, hdone, herr ▸ s.err_iff, hhazard, haddr, hval, hconf, hseven, fun p hp he => ?_,
    fun n => getLsbD_of_toNat_lt hlt⟩
  rw [hcode, he]
  clear he
  revert p
  decide

end Sys2Proof.Machine
end

section
/-! What a host read returns at each address of the map (O10): every location that exists is found at its address. -/

namespace Sys2Proof.Machine

/-! ### The address map, from a location to its address and back (rule R62) -/

theorem Config.lmax_le (k : Config) : k.lmax ≤ 64 := by
  obtain ⟨-, h, -⟩ := k.legal
  exact h

/-- A word of a slot's array stands below `2^24`, counted from the base of its RAM or buffer (rule R5). -/
theorem slotWord_lt {k : Config} {i j : Nat} (hi : i < k.lmax) (hj : j < k.nmax) : i * k.nmax + j < 2 ^ 24 := by
  obtain ⟨-, -, hsize, -⟩ := k.legal
  exact (slotArray_le hi hj).trans hsize

theorem slotWord_div (k : Config) (i : Nat) {j : Nat} (hj : j < k.nmax) : (i * k.nmax + j) / k.nmax = i := by
  rw [Nat.mul_comm, Nat.mul_add_div (Nat.two_pow_pos _), Nat.div_eq_of_lt hj, Nat.add_zero]

theorem slotWord_mod (k : Config) (i : Nat) {j : Nat} (hj : j < k.nmax) : (i * k.nmax + j) % k.nmax = j := by
  rw [Nat.mul_add_mod_self_right, Nat.mod_eq_of_lt hj]

theorem SlotField.offset_lt (f : SlotField) : f.offset < 16 := by cases f <;> decide

theorem SlotField.ofOffset_offset (f : SlotField) : SlotField.ofOffset f.offset = some f := by cases f <;> rfl

theorem Loc.ifMapped_of_mapped {k : Config} {l : Loc} (h : l.mapped k = true) : l.ifMapped k = some l := if_pos h

theorem locOf_qin {k : Config} {i : Nat} (h : (Loc.qin i).mapped k = true) :
    locOf k ((Loc.qin i).addr k) = some (.qin i) := by
  have hl := Config.lmax_le k
  have hi : i < k.lmax := of_decide_eq_true h
  rw [Loc.addr, locOf, if_neg (by omega), if_pos (by omega), Nat.add_sub_cancel_left]
  exact Loc.ifMapped_of_mapped h

theorem locOf_slot {k : Config} {i : Nat} {f : SlotField} (h : (Loc.slot i f).mapped k = true) :
    locOf k ((Loc.slot i f).addr k) = some (.slot i f) := by
  have hl := Config.lmax_le k
  have hi : i < k.lmax := of_decide_eq_true h
  have hf := f.offset_lt
  rw [Loc.addr, locOf, if_neg (by omega), if_neg (by omega), if_pos (by omega),
    show (0x1000 + 16 * i + f.offset - 0x1000) % 16 = f.offset by omega,
    show (0x1000 + 16 * i + f.offset - 0x1000) / 16 = i by omega, SlotField.ofOffset_offset]
  exact Loc.ifMapped_of_mapped h

theorem locOf_twf {k : Config} {i j : Nat} (h : (Loc.twf i j).mapped k = true) :
    locOf k ((Loc.twf i j).addr k) = some (.twf i j) := by
  obtain ⟨hi, hj⟩ : i < k.lmax ∧ j < k.nmax := by simpa [Loc.mapped] using h
  have hlt := slotWord_lt hi hj
  rw [Loc.addr, locOf, twfAddr, if_neg (by omega), if_neg (by omega), if_neg (by omega), if_pos (by omega),
    Nat.add_assoc, Nat.add_sub_cancel_left, slotWord_div k i hj, slotWord_mod k i hj]
  exact Loc.ifMapped_of_mapped h

theorem locOf_twi {k : Config} {i j : Nat} (h : (Loc.twi i j).mapped k = true) :
    locOf k ((Loc.twi i j).addr k) = some (.twi i j) := by
  obtain ⟨hi, hj⟩ : i < k.lmax ∧ j < k.nmax := by simpa [Loc.mapped] using h
  have hlt := slotWord_lt hi hj
  rw [Loc.addr, locOf, twiAddr, if_neg (by omega), if_neg (by omega), if_neg (by omega), if_neg (by omega),
    if_pos (by omega), Nat.add_assoc, Nat.add_sub_cancel_left, slotWord_div k i hj, slotWord_mod k i hj]
  exact Loc.ifMapped_of_mapped h

theorem locOf_poly {k : Config} {b i j : Nat} (h : (Loc.poly b i j).mapped k = true) :
    locOf k ((Loc.poly b i j).addr k) = some (.poly b i j) := by
  obtain ⟨⟨hb, hi⟩, hj⟩ : (b < k.nbuf ∧ i < k.lmax) ∧ j < k.nmax := by simpa [Loc.mapped] using h
  have hlt := slotWord_lt hi hj
  have hoff : polyAddr k b i j - 0x10000000 = b * 2 ^ 24 + (i * k.nmax + j) := by
    rw [polyAddr]
    omega
  have hbase : 0x10000000 ≤ polyAddr k b i j := by
    rw [polyAddr]
    omega
  rw [Loc.addr, locOf, if_neg (by omega), if_neg (by omega), if_neg (by omega), if_neg (by omega),
    if_neg (by omega), if_neg (by omega), hoff, show (b * 2 ^ 24 + (i * k.nmax + j)) / 2 ^ 24 = b by omega,
    show (b * 2 ^ 24 + (i * k.nmax + j)) % 2 ^ 24 = i * k.nmax + j by omega, slotWord_div k i hj,
    slotWord_mod k i hj]
  exact Loc.ifMapped_of_mapped h

/-- The address map finds every location that exists at its address (rule R62). -/
theorem locOf_addr {k : Config} {l : Loc} (h : l.mapped k = true) : locOf k (l.addr k) = some l := by
  cases l with
  | qin i => exact locOf_qin h
  | slot i f => exact locOf_slot h
  | twf i j => exact locOf_twf h
  | twi i j => exact locOf_twi h
  | poly b i j => exact locOf_poly h
  | _ => rfl

/-! ### The words of the constants and flags (rules R26, R29, R30) -/

theorem Config.lognmax_le (k : Config) : k.lognmax ≤ 24 := by
  obtain ⟨hl, -, hsize, -⟩ := k.legal
  exact (Nat.pow_le_pow_iff_right (by decide)).1 ((Nat.le_mul_of_pos_left _ hl).trans hsize)

theorem Config.W_le (k : Config) : k.W ≤ 64 := by rcases Config.W_eq k with h | h <;> omega

theorem cfgWord_eq (k : Config) :
    cfgWord k = BitVec.ofNat 64 (k.W + k.lmax * 2 ^ 8 + k.lognmax * 2 ^ 16 + k.nbuf * 2 ^ 24) := by
  have hW := Config.W_le k
  have hl := Config.lmax_le k
  have hn := Config.lognmax_le k
  rw [cfgWord, or_shiftLeft_eq_add (k := 8) (by omega), or_shiftLeft_eq_add (k := 16) (by omega),
    or_shiftLeft_eq_add (k := 24) (by omega)]

theorem ofNat_toNat_bool (b : Bool) : BitVec.ofNat 64 b.toNat = if b then (1 : Word) else 0 := by cases b <;> rfl

/-! ### The read -/

/-- No location reads the events that are waiting. -/
theorem State.readLoc_setEvents (s : State) (es : List PortEvent) (l : Loc) :
    (s.setEvents es).readLoc l = s.readLoc l := by
  cases l <;> rfl

/-- A host read of a location that exists, idle or at one of the five control registers (rules R63, R66). -/
theorem step_read_loc {s : State} {addr : BitVec 32} {es : List PortEvent} (hev : s.events = .read addr :: es)
    (hidle : s.busy = false ∨ addr.toNat ≤ 4) {l : Loc} (hl : l.mapped s.cfg = true)
    (haddr : addr.toNat = l.addr s.cfg) : step s = .next { s with rdata := s.readLoc l, events := es } := by
  have hloc : locOf (s.setEvents es).cfg addr.toNat = some l := haddr ▸ locOf_addr hl
  rw [step_of_read hev]
  rcases State.hostRead_cases addr.toNat (s.setEvents es) with ⟨hb, h4, -⟩ | ⟨-, l', hl', e⟩ | ⟨-, hnone, -⟩
  · rcases hidle with h | h
    · exact absurd (h.symm.trans hb) (by decide)
    · omega
  · obtain rfl := Option.some.inj (hloc.symm.trans hl')
    rw [e, State.readLoc_setEvents]
    rfl
  · exact nomatch hloc.symm.trans hnone

/-- Settles O10: each address the statement names is that of a location, and the word is what it reads as. -/
theorem hostReadWords : Obligations.HostReadWords := by
  intro s addr es hev hidle
  have hread : ∀ (l : Loc) (w : Word), l.mapped s.cfg = true → s.readLoc l = w → addr.toNat = l.addr s.cfg →
      step s = .next { s with rdata := w, events := es } :=
    fun l w hl hw haddr => hw ▸ step_read_loc hev hidle hl haddr
  refine ⟨?_, fun i hi => hread (.qin i) _ (decide_eq_true hi) rfl, fun i v hi hv => ?_,
    fun i j hi hj => ⟨?_, ?_, ?_⟩⟩
  · simp only [List.forall_mem_cons]
    exact ⟨hread .id _ rfl rfl, hread .cfg _ rfl (cfgWord_eq s.cfg), hread .ctrl _ rfl (ofNat_toNat_bool s.ie),
      hread .status _ rfl rfl, hread .cmd _ rfl rfl, hread .errslot _ rfl rfl, hread .errval _ rfl rfl,
      hread .a _ rfl rfl, hread .b _ rfl rfl, hread .c _ rfl rfl, hread .q _ rfl rfl, hread .km _ rfl rfl,
      hread .kbl _ rfl rfl, hread .kbh _ rfl rfl, hread .r0 _ rfl rfl, hread .r1 _ rfl rfl,
      hread .nreq _ rfl rfl, hread .lreq _ rfl rfl, hread .clogn _ rfl rfl, hread .cn _ rfl rfl,
      hread .cl _ rfl rfl, fun _ h => absurd h List.not_mem_nil⟩
  · have hslot : ∀ f w, (s.slot i).field f = w → addr.toNat = 0x1000 + 16 * i + f.offset →
        step s = .next { s with rdata := w, events := es } := fun f w => hread (.slot i f) w (decide_eq_true hi)
    subst hv
    simp only [List.forall_mem_cons]
    exact ⟨hslot .cq _ rfl, hslot .mask _ rfl, hslot .bcl _ rfl, hslot .bch _ rfl, hslot .mc _ rfl,
      hslot .hasmont _ (ofNat_toNat_bool _), hslot .g _ rfl, hslot .psi _ rfl, hslot .psiinv _ rfl,
      hslot .ninv _ rfl, fun _ h => absurd h List.not_mem_nil⟩
  · intro haddr
    exact hread (.twf i j) _ (by simp [Loc.mapped, hi, hj]) (haddr ▸ rfl) haddr
  · intro haddr
    exact hread (.twi i j) _ (by simp [Loc.mapped, hi, hj]) (haddr ▸ rfl) haddr
  · intro b hb haddr
    exact hread (.poly b i j) _ (by simp [Loc.mapped, hb, hi, hj]) (haddr ▸ rfl) haddr

end Sys2Proof.Machine
end

section
/-! What each command may write (O56); so no step changes the parameters, nor what `ID` and `CFG` read
(O15). -/

namespace Sys2Proof.Machine

/-! ### The writes of a command, said once -/

/-- The commands that write `R0` alone (rule R23). -/
def r0Commands : List Instr := [.mform, .mtos, .mred, .mredLazy, .bred, .cred, .madd, .msub, .modpow, .fred, .mconst]

/-- The commands that write `R0` and `R1` (rule R23). -/
def r0r1Commands : List Instr := [.bconst, .bfct, .bfgs]

/-- `Writes s i t`: before its completion (rule R220) the command `i` may turn `s` into `t`; one constructor per set of
registers and RAMs that some command writes. -/
inductive Writes (s : State) : Instr → State → Prop where
  /-- Nothing: `NOP`, a `VALIDATE` of a validated context, and every command that raises an error without a record. -/
  | nothing (i : Instr) : Writes s i s
  /-- `R0` (rule R23). -/
  | r0 {i : Instr} (hi : i ∈ r0Commands) (w : Word) (n : Nat) : Writes s i { s with r0 := w, draws := n }
  /-- `R0` and `R1` (rule R23). -/
  | r0r1 {i : Instr} (hi : i ∈ r0r1Commands) (w x : Word) (n : Nat) :
      Writes s i { s with r0 := w, r1 := x, draws := n }
  /-- The committed context (rule R170). -/
  | context : Writes s .ctxset s.commitRequest
  /-- `ERRSLOT` and `ERRVAL` (rule R173). -/
  | report (j : Nat) : Writes s .validate (s.reportSlot j)
  /-- The roots, the tables and `VALIDATED` (rules R174 to R178). -/
  | tables (v : List Slot) (f g : Ram) : Writes s .validate { s with slots := v, twf := f, twi := g, validated := true }
  /-- The modulus registers (rule R179). -/
  | modulus (slot : BitVec 6) (v : Slot) : Writes s (.ctxld slot) (s.loadModulus v)
  /-- `POLY` (rule R209). -/
  | coeffs {i : Instr} (hi : ∃ buf all slot, i = .nttf buf all slot ∨ i = .ntti buf all slot) (p : Ram) (n : Nat) :
      Writes s i { s with poly := p, draws := n }

/-- The outcome is a completion (rule R220), after writes that the command `i` may make. -/
def CompletesAfterWrites (s : State) (i : Instr) (o : Host.Outcome State Fault Refusal) : Prop :=
  ∃ t e, Writes s i t ∧ o = .next (t.finished e)

theorem finishR0_writes {s : State} {i : Instr} (hi : i ∈ r0Commands) (ok : Bool) (v : Nat) :
    CompletesAfterWrites s i (.next (s.finishR0 ok v)) := by
  obtain ⟨w, n, -, e⟩ := State.finishR0_cases s ok v
  exact ⟨_, .ok, .r0 hi w n, congrArg _ e⟩

theorem finishR0R1_writes {s : State} {i : Instr} (hi : i ∈ r0r1Commands) (ok : Bool) (v : Nat × Nat) :
    CompletesAfterWrites s i (.next (s.finishR0R1 ok v)) := by
  obtain ⟨w, x, n, -, -, e⟩ := State.finishR0R1_cases s ok v
  exact ⟨_, .ok, .r0r1 hi w x n, congrArg _ e⟩

theorem execCtxset_writes (s : State) : CompletesAfterWrites s .ctxset (execCtxset s) := by
  rcases execCtxset_cases s with ⟨-, e⟩ | ⟨-, -, e⟩ | ⟨-, -, e⟩
  · exact ⟨s, _, .nothing _, e⟩
  · exact ⟨s, _, .nothing _, e⟩
  · exact ⟨_, _, .context, e⟩

theorem execValidate_writes (s : State) : CompletesAfterWrites s .validate (execValidate s) := by
  rcases execValidate_cases s with ⟨-, e⟩ | ⟨-, -, e⟩ | ⟨-, -, j, -, e⟩ | ⟨-, -, -, e⟩
  · exact ⟨s, _, .nothing _, e⟩
  · exact ⟨s, _, .nothing _, e⟩
  · exact ⟨_, _, .report j, e⟩
  · obtain ⟨v, f, g, he⟩ := s.precomputeAll_cases
    exact ⟨_, _, .tables v f g, he ▸ e⟩

theorem execCtxld_writes (slot : BitVec 6) (s : State) : CompletesAfterWrites s (.ctxld slot) (execCtxld slot s) := by
  rcases execCtxld_cases slot s with ⟨-, e⟩ | ⟨-, e⟩
  · exact ⟨s, _, .nothing _, e⟩
  · exact ⟨_, _, .modulus slot _, e⟩

/-- The slots of a transform command, one after the other, change `POLY` and the model's `draws` only. -/
theorem foldl_transformSlot_cases (tr : State → Nat → List Nat → List Nat) (buf : BitVec 4) (l : List Nat)
    (s : State) : ∃ p n, l.foldl (State.transformSlot tr buf) s = { s with poly := p, draws := n } := by
  refine List.foldlRecOn l _ (motive := fun t => ∃ (p : Ram) (n : Nat), t = { s with poly := p, draws := n })
    ⟨s.poly, s.draws, rfl⟩ ?_
  rintro _ ⟨p, n, rfl⟩ i -
  obtain ⟨ws, m, -, -, e⟩ := State.transformSlot_cases tr buf { s with poly := p, draws := n } i
  exact ⟨_, m, e⟩

theorem transform_writes {s : State} {i : Instr} {buf : BitVec 4} {all : Bool} {slot : BitVec 6}
    (hi : i = .nttf buf all slot ∨ i = .ntti buf all slot) (tr : State → Nat → List Nat → List Nat) :
    CompletesAfterWrites s i (.next (s.transform tr buf all slot)) := by
  rcases State.transform_cases tr buf all slot s with ⟨c, -, e⟩ | ⟨-, e⟩
  · exact ⟨s, c, .nothing i, congrArg _ e⟩
  · obtain ⟨p, n, hfold⟩ := foldl_transformSlot_cases tr buf (s.selected all slot) s
    exact ⟨_, .ok, .coeffs ⟨buf, all, slot, hi⟩ p n, by rw [e, hfold]⟩

/-- Everything a command can do: it completes, after the writes of its kind. -/
theorem exec_writes (i : Instr) (s : State) : CompletesAfterWrites s i (exec i s) := by
  cases i with
  | nop => exact ⟨s, .ok, .nothing _, rfl⟩
  | mform | mtos | mred | mredLazy | bred | cred | madd | msub | modpow | fred | mconst =>
    exact finishR0_writes (by decide) _ _
  | bconst | bfct | bfgs => exact finishR0R1_writes (by decide) _ _
  | ctxset => exact execCtxset_writes s
  | validate => exact execValidate_writes s
  | ctxld slot => exact execCtxld_writes slot s
  | nttf buf all slot => exact transform_writes (.inl rfl) _
  | ntti buf all slot => exact transform_writes (.inr rfl) _

/-- Settles O56: each set of writes touches only registers and RAMs the statement allows its commands. -/
theorem registerWriters : Obligations.RegisterWriters := by
  intro i s t ht
  obtain ⟨u, e, hw, he⟩ := exec_writes i s
  obtain rfl := Host.Outcome.next.inj (ht.symm.trans he)
  cases hw with
  | r0 hi w n =>
    have hmem : i ∈ r0Commands ++ r0r1Commands := List.mem_append_left _ hi
    simpa [State.finished, r0Commands, r0r1Commands] using fun _ : w ≠ s.r0 => hmem
  | r0r1 hi w x n =>
    have hmem : i ∈ r0Commands ++ r0r1Commands := List.mem_append_right _ hi
    simpa [State.finished, r0Commands, r0r1Commands] using
      And.intro (fun _ : w ≠ s.r0 => hmem) (fun _ : x ≠ s.r1 => hi)
  | coeffs hi p n => simpa [State.finished] using fun _ : p ≠ s.poly => hi
  | nothing | context | report | tables | modulus => simp [State.finished]

/-! ### The parameters, `ID` and `CFG` -/

theorem exec_cfg {i : Instr} {s t : State} (h : exec i s = .next t) : t.cfg = s.cfg := by
  obtain ⟨hcfg, -⟩ := registerWriters i s t h
  exact hcfg

theorem State.hostRead_cfg (s : State) (addr : Nat) : (s.hostRead addr).cfg = s.cfg := by
  rcases State.hostRead_cases addr s with ⟨-, -, e⟩ | ⟨-, l, -, e⟩ | ⟨-, -, e⟩ <;> rw [e] <;> rfl

theorem State.writeLoc_cfg (s : State) (l : Loc) (v : Word) : (s.writeLoc l v).cfg = s.cfg := by cases l <;> rfl

theorem State.hostWrite_cfg (s : State) (addr : Nat) (v : Word) : (s.hostWrite addr v).cfg = s.cfg := by
  rw [State.hostWrite]
  rcases State.hostWriteWord_cases addr (mkWord s.cfg v.toNat) s with
    ⟨-, e⟩ | ⟨-, e⟩ | ⟨-, -, -, e⟩ | ⟨-, -, e⟩ | ⟨-, l, -, -, e⟩ | ⟨-, e⟩ <;> rw [e]
  case inr.inr.inr.inr.inl => exact s.writeLoc_cfg l _
  all_goals rfl

theorem unitStep_cfg {s t : State} (h : unitStep s = .next t) : t.cfg = s.cfg := by
  rcases unitStep_cases s with ⟨-, e⟩ | ⟨-, i, -, e⟩ | ⟨-, -, -, e⟩ <;> rw [e] at h
  · cases h
    rfl
  · exact exec_cfg h
  · cases h
    rfl

/-- No step changes the parameters (rule R5, log 5). -/
theorem step_cfg {s t : State} (h : step s = .next t) : t.cfg = s.cfg := by
  rcases step_cases s with ⟨-, e⟩ | ⟨addr, es, -, e⟩ | ⟨addr, v, es, -, e⟩ | ⟨es, -, e⟩ <;> rw [e] at h
  · exact (unitStep_cfg h).trans (State.setEvents_cfg ..)
  · cases h
    exact (s.setEvents es).hostRead_cfg addr.toNat
  · cases h
    exact (s.setEvents es).hostWrite_cfg addr.toNat v
  · cases h
    rfl

theorem cfgWord_toNat (k : Config) :
    (cfgWord k).toNat = k.W + k.lmax * 2 ^ 8 + k.lognmax * 2 ^ 16 + k.nbuf * 2 ^ 24 := by
  obtain ⟨-, hl, -, -, hb⟩ := k.legal
  have hn := Config.lognmax_le k
  have hW := Config.W_le k
  rw [cfgWord_eq, BitVec.toNat_ofNat]
  omega

/-- Settles O15: `ID` is a constant, and `CFG` a function of the parameters, which no step changes. -/
theorem identificationConstants : Obligations.IdentificationConstants :=
  ⟨fun s => ⟨rfl, cfgWord_toNat s.cfg⟩, by decide, fun _ _ h => ⟨rfl, congrArg cfgWord (step_cfg h)⟩⟩

end Sys2Proof.Machine
end

section
/-! The host port: the address map in both directions (O8), what a host read (O9) and a host write (O11) do, and that a
written location reads back (O12). -/

namespace Sys2Proof.Machine

/-! ### The address map, from an address to its location and back (rule R62) -/

/-- A buffer's words stay below `2^28` from the base of `POLY` (rule R5), so every address has 32 bits. -/
theorem Loc.addr_lt {k : Config} {l : Loc} (h : l.mapped k = true) : l.addr k < 2 ^ 32 := by
  obtain ⟨-, hlmax, -, -, hnbuf⟩ := k.legal
  cases l with
  | qin i =>
    have hi : i < k.lmax := of_decide_eq_true h
    rw [Loc.addr]
    omega
  | slot i f =>
    have hi : i < k.lmax := of_decide_eq_true h
    have hf := f.offset_lt
    rw [Loc.addr]
    omega
  | twf i j =>
    obtain ⟨hi, hj⟩ : i < k.lmax ∧ j < k.nmax := by simpa [Loc.mapped] using h
    have hword := slotWord_lt hi hj
    rw [Loc.addr, twfAddr]
    omega
  | twi i j =>
    obtain ⟨hi, hj⟩ : i < k.lmax ∧ j < k.nmax := by simpa [Loc.mapped] using h
    have hword := slotWord_lt hi hj
    rw [Loc.addr, twiAddr]
    omega
  | poly b i j =>
    obtain ⟨⟨hb, hi⟩, hj⟩ : (b < k.nbuf ∧ i < k.lmax) ∧ j < k.nmax := by simpa [Loc.mapped] using h
    have hword := slotWord_lt hi hj
    rw [Loc.addr, polyAddr]
    omega
  | _ => simp [Loc.addr]

theorem fixedLoc_addr {addr : Nat} {l : Loc} (h : fixedLoc addr = some l) (k : Config) : l.addr k = addr := by
  unfold fixedLoc at h
  split at h <;> cases h <;> rfl

theorem SlotField.offset_of_ofOffset {n : Nat} {f : SlotField} (h : SlotField.ofOffset n = some f) : f.offset = n := by
  unfold SlotField.ofOffset at h
  split at h <;> cases h <;> rfl

theorem Loc.eq_of_ifMapped {k : Config} {l l' : Loc} (h : l.ifMapped k = some l') : l = l' := by
  unfold Loc.ifMapped at h
  split at h <;> cases h
  rfl

/-- An address that names a location is that location's address (rule R62): in each region the quotients and remainders
that `locOf` takes put the address together again. -/
theorem addr_of_locOf {k : Config} {addr : Nat} {l : Loc} (h : locOf k addr = some l) : l.addr k = addr := by
  unfold locOf at h
  split at h
  next => exact fixedLoc_addr h k
  split at h
  next => -- `QIN`
    obtain rfl := Loc.eq_of_ifMapped h
    rw [Loc.addr]
    omega
  split at h
  next => -- the slot file
    obtain ⟨f, hf, hl⟩ := Option.bind_eq_some_iff.1 h
    obtain rfl := Loc.eq_of_ifMapped hl
    rw [Loc.addr, SlotField.offset_of_ofOffset hf]
    omega
  split at h
  next => -- `TWF`
    obtain rfl := Loc.eq_of_ifMapped h
    have hword := Nat.div_add_mod' (addr - 0x01000000) k.nmax
    rw [Loc.addr, twfAddr]
    omega
  split at h
  next => -- `TWI`
    obtain rfl := Loc.eq_of_ifMapped h
    have hword := Nat.div_add_mod' (addr - 0x02000000) k.nmax
    rw [Loc.addr, twiAddr]
    omega
  split at h
  next => cases h
  next => -- `POLY`
    obtain rfl := Loc.eq_of_ifMapped h
    have hword := Nat.div_add_mod' ((addr - 0x10000000) % 2 ^ 24) k.nmax
    rw [Loc.addr, polyAddr]
    omega

/-- No two locations that exist share an address. -/
theorem Loc.addr_inj {k : Config} {l l' : Loc} (h : l.mapped k = true) (h' : l'.mapped k = true)
    (heq : l.addr k = l'.addr k) : l = l' :=
  Option.some.inj ((locOf_addr h).symm.trans (heq ▸ locOf_addr h'))

/-- Settles O8. -/
theorem addressMapRoundTrip : Obligations.AddressMapRoundTrip :=
  ⟨fun _ _ h => ⟨locOf_addr h, Loc.addr_lt h⟩, fun _ _ _ _ h => ⟨addr_of_locOf h, locOf_mapped h⟩⟩

/-! ### A host read, case by case (rules R63, R65, R66) -/

theorem State.hostRead_busy {s : State} {addr : Nat} (hb : s.busy = true) (h4 : 4 < addr) :
    s.hostRead addr = (s.answer (s.anyW 0)).spend 1 := by
  rcases s.hostRead_cases addr with ⟨-, -, e⟩ | ⟨hidle, -⟩ | ⟨hidle, -⟩
  · exact e
  all_goals exact absurd hidle (by simp [hb, h4])

theorem State.hostRead_unmapped {s : State} {addr : Nat} (hidle : s.busy = false ∨ addr ≤ 4)
    (hnone : locOf s.cfg addr = none) : s.hostRead addr = (s.answer 0).setAddrErr := by
  rcases s.hostRead_cases addr with ⟨hb, h4, -⟩ | ⟨-, l, hl, -⟩ | ⟨-, -, e⟩
  · exact absurd hidle (by simp [hb, h4])
  · exact nomatch hnone.symm.trans hl
  · exact e

/-- Settles O9. -/
theorem hostReadEffects : Obligations.HostReadEffects := by
  intro s addr es hev
  refine ⟨fun hb h4 => ?_, fun hidle => ⟨fun l hl => ?_, fun hnone => ?_⟩⟩
  · refine ⟨s.anyW 0, s.draws + 1, s.anyW_fits 0, ?_⟩
    rw [step_of_read hev, State.hostRead_busy (s := s.setEvents es) hb h4]
    rfl
  · exact step_read_loc hev hidle (locOf_mapped hl) (addr_of_locOf hl).symm
  · rw [step_of_read hev, State.hostRead_unmapped (s := s.setEvents es) hidle hnone]
    rfl

/-! ### A host write, case by case (rules R64 to R66) -/

/-- A writable location is none of `CTRL`, `STATUS` and `CMD` (rule R62). -/
theorem Loc.lt_addr_of_writable {l : Loc} (hw : l.writable = true) (k : Config) : 4 < l.addr k := by
  cases l with
  | a | b | c | q | km | kbl | kbh | nreq | lreq => simp [Loc.addr]
  | qin i => rw [Loc.addr]; omega
  | poly b i j => rw [Loc.addr, polyAddr]; omega
  | _ => cases hw

theorem State.hostWriteWord_status (s : State) (v : Word) : s.hostWriteWord 3 v = s.writeStatus v := rfl

theorem State.hostWriteWord_ctrl (s : State) (v : Word) : s.hostWriteWord 2 v = s.writeCtrl v := rfl

section HostWrite

variable {s : State} {addr : Nat}

theorem State.hostWriteWord_busy (hb : s.busy = true) (h3 : addr ≠ 3) (h2 : addr ≠ 2) (v : Word) :
    s.hostWriteWord addr v = s.setHazard := by
  rw [State.hostWriteWord, if_neg h3, if_neg h2, if_pos hb]

theorem State.hostWriteWord_cmd (hb : s.busy = false) (v : Word) : s.hostWriteWord 4 v = s.accept v := by
  simp [State.hostWriteWord, hb]

theorem State.hostWriteWord_writable (hb : s.busy = false) {l : Loc} (hl : locOf s.cfg addr = some l)
    (hw : l.writable = true) (v : Word) : s.hostWriteWord addr v = s.writeLoc l v := by
  have h4 : 4 < addr := addr_of_locOf hl ▸ Loc.lt_addr_of_writable hw s.cfg
  rw [State.hostWriteWord, if_neg (by omega), if_neg (by omega), if_neg (by simp [hb]), if_neg (by omega), hl]
  exact if_pos hw

/-- An idle unit drops a write to an address that names no writable location (rule R65). -/
theorem State.hostWriteWord_dropped (hb : s.busy = false) (h3 : addr ≠ 3) (h2 : addr ≠ 2) (h4 : addr ≠ 4)
    (hro : ∀ l, locOf s.cfg addr = some l → l.writable = false) (v : Word) :
    s.hostWriteWord addr v = s.setAddrErr := by
  rw [State.hostWriteWord, if_neg h3, if_neg h2, if_neg (by simp [hb]), if_neg h4]
  cases hl : locOf s.cfg addr with
  | none => rfl
  | some l => exact if_neg (by simp [hro l hl])

end HostWrite

/-- A word of `W` bits loses nothing on its way through the port (rule R3, log 11). -/
theorem step_write_word {s : State} {addr : BitVec 32} {v : Word} {es : List PortEvent} (hv : fits s.cfg v)
    (hev : s.events = .write addr v :: es) : step s = .next ((s.setEvents es).hostWriteWord addr.toNat v) := by
  rw [step_of_write hev, State.hostWrite, State.setEvents_cfg, mkWord_self hv]

/-- An idle unit writes the word of a writable location (rule R64). -/
theorem step_write_loc {s : State} {addr : BitVec 32} {v : Word} {es : List PortEvent} {l : Loc} (hv : fits s.cfg v)
    (hev : s.events = .write addr v :: es) (hb : s.busy = false) (hl : locOf s.cfg addr.toNat = some l)
    (hw : l.writable = true) : step s = .next ((s.setEvents es).writeLoc l v) := by
  rw [step_write_word hv hev, State.hostWriteWord_writable (s := s.setEvents es) hb hl hw]

theorem State.writeLoc_setEvents (s : State) (es : List PortEvent) (l : Loc) (v : Word) :
    (s.setEvents es).writeLoc l v = (s.writeLoc l v).setEvents es := by
  cases l <;> rfl

/-- Settles O11. -/
theorem hostWriteEffects : Obligations.HostWriteEffects := by
  intro s addr v es hv hev
  rw [step_write_word hv hev]
  refine ⟨fun h => ?status, fun h => ?ctrl, fun h3 h2 => ⟨fun hb => ?busy, fun hb => ⟨fun h => ?cmd,
    fun l hl hw => ?writable, fun h4 hro => ?dropped⟩⟩⟩
  case status => rw [h, Loc.addr, State.hostWriteWord_status]; rfl
  case ctrl => rw [h, Loc.addr, State.hostWriteWord_ctrl]; rfl
  case busy => rw [State.hostWriteWord_busy (s := s.setEvents es) hb h3 h2]; rfl
  case cmd => rw [h, Loc.addr, State.hostWriteWord_cmd (s := s.setEvents es) hb]; rfl
  case writable =>
    refine ⟨_, rfl, ?_⟩
    rw [State.hostWriteWord_writable (s := s.setEvents es) hb hl hw, State.writeLoc_setEvents]
    rfl
  case dropped => rw [State.hostWriteWord_dropped (s := s.setEvents es) hb h3 h2 h4 hro]; rfl

/-! ### A read after a write (rules R69, R72) -/

theorem State.qinAt_writeLoc {s : State} {i : Nat} (hi : i < s.qin.length) (v : Word) (j : Nat) :
    (s.writeLoc (.qin i) v).qinAt j = if j = i then v else s.qinAt j := by
  change (s.qin.set i v).getD j 0 = if j = i then v else s.qin.getD j 0
  simp only [List.getD_eq_getElem?_getD]
  split
  next h => rw [h, List.getElem?_set_self hi, Option.getD_some]
  next h => rw [List.getElem?_set_ne (Ne.symm h)]

/-- What every location reads as after a write to a writable one. -/
theorem State.readLoc_writeLoc {s : State} {l l' : Loc} (hqin : s.qin.length = s.cfg.lmax)
    (hl : l.mapped s.cfg = true) (hw : l.writable = true) (hl' : l'.mapped s.cfg = true) (v : Word) :
    (s.writeLoc l v).readLoc l' = if l' = l then v else s.readLoc l' := by
  cases l with
  | a | b | c | q | km | kbl | kbh | nreq | lreq => cases l' <;> rfl
  | qin i =>
    cases l' with
    | qin j =>
      have hi : i < s.qin.length := hqin ▸ of_decide_eq_true hl
      simp only [Loc.qin.injEq]
      exact State.qinAt_writeLoc hi v j
    | _ => rfl
  | poly b i j =>
    cases l' with
    | poly b' i' j' =>
      split
      next h => cases h; exact State.ramWord_of_find (Ram.find_write_self ..)
      next h =>
        have haddr : polyAddr s.cfg b' i' j' ≠ polyAddr s.cfg b i j := fun e => h (Loc.addr_inj hl' hl e)
        exact State.ramWord_congr rfl rfl (Ram.find_write_other _ _ haddr)
    | _ => rfl
  | _ => cases hw

/-- Settles O12. -/
theorem writeThenRead : Obligations.WriteThenRead := by
  intro s l v es hinv hb hv hl hw hev
  have haddr : (BitVec.ofNat 32 (l.addr s.cfg)).toNat = l.addr s.cfg := Nat.mod_eq_of_lt (Loc.addr_lt hl)
  have hread : ∀ l', l'.mapped s.cfg = true →
      ((s.setEvents es).writeLoc l v).readLoc l' = if l' = l then v else s.readLoc l' := fun l' hl' => by
    rw [State.readLoc_writeLoc (s := s.setEvents es) hinv.qinLength hl hw hl', State.readLoc_setEvents]
  refine ⟨_, step_write_loc hv hev hb (haddr.symm ▸ locOf_addr hl) hw, ?_, fun l' hl' hne => ?_⟩
  · rw [hread l hl, if_pos rfl]
  · rw [hread l' hl', if_neg hne]

end Sys2Proof.Machine
end

section
/-! A validated context is read-only (O46). -/

namespace Sys2Proof.Machine

/-- `t` has the committed context of `s` (rule R77): its flags and registers, the slot file, and the twiddle RAMs, whose
unwritten words date from reset number `epoch` (log 2). -/
def State.SameContext (s t : State) : Prop :=
  t.validated = s.validated ∧ t.configured = s.configured ∧ t.cn = s.cn ∧ t.clogn = s.clogn ∧ t.cl = s.cl
    ∧ t.slots = s.slots ∧ t.twf = s.twf ∧ t.twi = s.twi ∧ t.epoch = s.epoch

theorem State.SameContext.refl (s : State) : s.SameContext s := ⟨rfl, rfl, rfl, rfl, rfl, rfl, rfl, rfl, rfl⟩

/-- No host read touches the context (rule R63). -/
theorem State.hostRead_sameContext (s : State) (addr : Nat) : s.SameContext (s.hostRead addr) := by
  rcases State.hostRead_cases addr s with ⟨-, -, e⟩ | ⟨-, l, -, e⟩ | ⟨-, -, e⟩ <;> rw [e] <;> exact .refl s

theorem State.writeLoc_sameContext (s : State) (l : Loc) (v : Word) : s.SameContext (s.writeLoc l v) := by
  cases l <;> exact .refl s

/-- No host write touches the context: its locations are read-only (rules R62, R64). -/
theorem State.hostWrite_sameContext (s : State) (addr : Nat) (v : Word) : s.SameContext (s.hostWrite addr v) := by
  rw [State.hostWrite]
  rcases State.hostWriteWord_cases addr (mkWord s.cfg v.toNat) s with
    ⟨-, e⟩ | ⟨-, e⟩ | ⟨-, -, -, e⟩ | ⟨-, -, e⟩ | ⟨-, l, -, -, e⟩ | ⟨-, e⟩ <;> rw [e]
  case inr.inr.inr.inr.inl => exact s.writeLoc_sameContext l _
  all_goals exact .refl s

/-- Only `CTXSET` and `VALIDATE` write the context (rules R25 to R27). -/
theorem exec_sameContext {i : Instr} {s t : State} (hset : i ≠ .ctxset) (hval : i ≠ .validate)
    (h : exec i s = .next t) : s.SameContext t := by
  obtain ⟨u, e, hwrites, he⟩ := exec_writes i s
  obtain rfl := Host.Outcome.next.inj (h.symm.trans he)
  cases hwrites with
  | context => exact absurd rfl hset
  | report | tables => exact absurd rfl hval
  | nothing | r0 | r0r1 | modulus | coeffs => exact .refl s

/-- `VALIDATE` on a validated context changes nothing of it (rule R172). -/
theorem execValidate_sameContext {s t : State} (hc : s.configured = true) (hv : s.validated = true)
    (h : execValidate s = .next t) : s.SameContext t := by
  rcases execValidate_cases s with ⟨hc', -⟩ | ⟨-, -, e⟩ | ⟨-, hv', -⟩ | ⟨-, hv', -⟩
  · exact nomatch hc.symm.trans hc'
  · obtain rfl := Host.Outcome.next.inj (h.symm.trans e)
    exact .refl s
  all_goals exact nomatch hv.symm.trans hv'

/-- `CTXSET` fails and changes nothing of the context, or succeeds and clears `VALIDATED` (rule R170). -/
theorem execCtxset_context {s t : State} (h : execCtxset s = .next t) :
    s.SameContext t ∨ (t.errcode = .ok ∧ t.validated = false ∧ t.configured = true) := by
  rcases execCtxset_cases s with ⟨-, e⟩ | ⟨-, -, e⟩ | ⟨-, -, e⟩ <;>
    obtain rfl := Host.Outcome.next.inj (h.symm.trans e)
  · exact .inl (.refl s)
  · exact .inl (.refl s)
  · exact .inr ⟨rfl, rfl, rfl⟩

/-- A command leaves a validated context as it is, or is a successful `CTXSET` (rule R77). -/
theorem exec_context {i : Instr} {s t : State} (hc : s.configured = true) (hv : s.validated = true)
    (h : exec i s = .next t) :
    s.SameContext t ∨ (i = .ctxset ∧ t.errcode = .ok ∧ t.validated = false ∧ t.configured = true) := by
  by_cases hset : i = .ctxset
  · subst hset
    exact (execCtxset_context h).imp_right (And.intro rfl)
  by_cases hval : i = .validate
  · subst hval
    exact .inl (execValidate_sameContext hc hv h)
  · exact .inl (exec_sameContext hset hval h)

/-- The unit's turn leaves a validated context as it is, or runs a successful `CTXSET` (rule R77). -/
theorem unitStep_context {s t : State} (hc : s.configured = true) (hv : s.validated = true)
    (h : unitStep s = .next t) :
    s.SameContext t ∨ ((s.busy = true ∧ decode s.lastcmd = .ok .ctxset)
      ∧ t.errcode = .ok ∧ t.validated = false ∧ t.configured = true) := by
  rcases unitStep_cases s with ⟨-, e⟩ | ⟨hb, i, hd, e⟩ | ⟨-, -, -, e⟩ <;> rw [e] at h
  · cases h
    exact .inl (.refl s)
  · exact (exec_context hc hv h).imp_right fun ⟨hi, hset⟩ => ⟨⟨hb, hi ▸ hd⟩, hset⟩
  · cases h
    exact .inl (.refl s)

/-- A step other than reset leaves a validated context as it is, or runs a successful `CTXSET` (rule R77): the host
cannot write it. -/
theorem step_context {s t : State} (hc : s.configured = true) (hv : s.validated = true) (hreset : ¬ s.ResetNext)
    (h : step s = .next t) :
    s.SameContext t ∨ (s.Runs .ctxset ∧ t.errcode = .ok ∧ t.validated = false ∧ t.configured = true) := by
  rcases step_cases s with ⟨hturn, e⟩ | ⟨addr, es, -, e⟩ | ⟨addr, v, es, -, e⟩ | ⟨es, hev, -⟩
  · have hunit := unitStep_context (s := s.setEvents s.events.tail) hc hv (e.symm.trans h)
    exact hunit.imp_right fun ⟨⟨hb, hd⟩, hset⟩ => ⟨⟨hturn, hb, hd⟩, hset⟩
  · obtain rfl := Host.Outcome.next.inj (h.symm.trans e)
    exact .inl ((s.setEvents es).hostRead_sameContext addr.toNat)
  · obtain rfl := Host.Outcome.next.inj (h.symm.trans e)
    exact .inl ((s.setEvents es).hostWrite_sameContext addr.toNat v)
  · exact absurd ⟨es, hev⟩ hreset

/-- Settles O46. -/
theorem validatedContextIsReadOnly : Obligations.ValidatedContextIsReadOnly := by
  intro s t hc hv hreset h
  refine (step_context hc hv hreset h).imp_left fun hsame => ?_
  rwa [State.SameContext, hv, hc] at hsame

end Sys2Proof.Machine
end

section
/-! The words the decoder accepts are the words of commands (O1, O2, O4), and every other word is one that rule R94
calls illegal (O3). -/

namespace Sys2Proof.Machine

/-! ### The fields of a word as naturals (rules R9, R91) -/

theorem opcField_toNat (v : Word) : (opcField v).toNat = v.toNat % 2 ^ 8 := by
  rw [opcField, BitVec.extractLsb'_toNat, Nat.shiftRight_zero]

theorem lzField_toNat (v : Word) : (lzField v).toNat = v.toNat / 2 ^ 8 % 2 := Nat.toNat_testBit ..

theorem allField_toNat (v : Word) : (allField v).toNat = v.toNat / 2 ^ 9 % 2 := Nat.toNat_testBit ..

theorem slotField_toNat (v : Word) : (slotField v).toNat = v.toNat / 2 ^ 10 % 2 ^ 6 := by
  rw [slotField, BitVec.extractLsb'_toNat, Nat.shiftRight_eq_div_pow]

theorem bufField_toNat (v : Word) : (bufField v).toNat = v.toNat / 2 ^ 16 % 2 ^ 4 := by
  rw [bufField, BitVec.extractLsb'_toNat, Nat.shiftRight_eq_div_pow]

theorem reservedField_toNat (v : Word) : (reservedField v).toNat = v.toNat / 2 ^ 20 := by
  have hv := v.isLt
  rw [reservedField, BitVec.extractLsb'_toNat, Nat.shiftRight_eq_div_pow, Nat.mod_eq_of_lt (by omega)]

/-- With no reserved bit set, the five fields hold every bit of the word. -/
theorem encodeFields_fields {v : Word} (h : reservedField v = 0) :
    encodeFields (opcField v) (lzField v) (allField v) (slotField v) (bufField v) = v := by
  have hres : v.toNat / 2 ^ 20 = 0 := by rw [← reservedField_toNat, h]; rfl
  apply BitVec.eq_of_toNat_eq
  rw [encodeFields_toNat, opcField_toNat, lzField_toNat, allField_toNat, slotField_toNat, bufField_toNat]
  omega

/-! ### The legality test on the fields of an opcode (rule R94) -/

theorem Opcode.ofCode_eq_some_iff {b : BitVec 8} {o : Opcode} : Opcode.ofCode b = some o ↔ o.code = b := by
  refine ⟨fun h => ?_, fun h => h ▸ Opcode.ofCode_code o⟩
  simpa using List.find?_some h

/-- The fields that the opcode `o` may stand with (rule R94): those it does not use are 0, and `ALL = 1` takes no
slot. -/
def FieldsOk (o : Opcode) (lz all : Bool) (slot : BitVec 6) (buf : BitVec 4) : Prop :=
  (o.usesLz = false → lz = false) ∧ (o.usesAll = false → all = false) ∧ (o.usesSlot = false → slot = 0)
    ∧ (o.usesBuf = false → buf = 0) ∧ (all = true → slot = 0)

theorem checkFields_eq_ok_iff {o : Opcode} {lz all : Bool} {slot : BitVec 6} {buf : BitVec 4} {i : Instr} :
    checkFields o lz all slot buf = .ok i ↔ FieldsOk o lz all slot buf ∧ o.instr lz all slot buf = i := by
  unfold checkFields
  split_ifs with hlz hall hslot hbuf hboth
  case neg =>
    have hfields : FieldsOk o lz all slot buf := by grind [FieldsOk]
    simp [hfields]
  all_goals
    have hnot : ¬ FieldsOk o lz all slot buf := by grind [FieldsOk]
    simp [hnot]

/-- The decoder accepts the words without a reserved bit whose opcode is assigned and may stand with their fields. -/
theorem decode_eq_ok_iff {v : Word} {i : Instr} :
    decode v = .ok i ↔ reservedField v = 0 ∧ ∃ o : Opcode, o.code = opcField v
      ∧ FieldsOk o (lzField v) (allField v) (slotField v) (bufField v)
      ∧ o.instr (lzField v) (allField v) (slotField v) (bufField v) = i := by
  unfold decode
  by_cases hres : reservedField v = 0
  · rw [if_neg (by simpa using hres)]
    cases ho : Opcode.ofCode (opcField v) with
    | none =>
      have hnone : ∀ o : Opcode, o.code ≠ opcField v := fun o h =>
        nomatch ho.symm.trans (Opcode.ofCode_eq_some_iff.2 h)
      simp [hnone]
    | some o =>
      have hcode : ∀ o' : Opcode, o'.code = opcField v ↔ o' = o := fun o' => by
        rw [← Opcode.ofCode_eq_some_iff, ho, Option.some.injEq, eq_comm]
      simp [hcode, hres, checkFields_eq_ok_iff]
  · rw [if_pos (bne_iff_ne.2 hres)]
    exact ⟨nofun, fun ⟨h, _⟩ => absurd h hres⟩

/-! ### The round trips (rule R96) -/

/-- Settles O1: the decoder reads back the fields that the encoder wrote, and they pass its test. -/
theorem decodeOfEncode : Obligations.DecodeOfEncode := fun _ h => decode_encode h

/-- Fields an opcode may stand with are those of a well-formed command, whose word is put together from them:
the fields the command does not carry are 0. -/
theorem FieldsOk.encode_instr {o : Opcode} {lz all : Bool} {slot : BitVec 6} {buf : BitVec 4}
    (h : FieldsOk o lz all slot buf) : encode (o.instr lz all slot buf) = encodeFields o.code lz all slot buf
      ∧ (o.instr lz all slot buf).wellFormed = true := by
  obtain ⟨hlz, hall, hslot, hbuf, hallSlot⟩ := h
  cases o with
  | mred =>
    obtain rfl := hall rfl
    obtain rfl := hslot rfl
    obtain rfl := hbuf rfl
    cases lz <;> exact ⟨rfl, rfl⟩
  | ctxld =>
    obtain rfl := hlz rfl
    obtain rfl := hall rfl
    obtain rfl := hbuf rfl
    exact ⟨rfl, rfl⟩
  | nttf | ntti =>
    obtain rfl := hlz rfl
    exact ⟨rfl, (allSlotOk_iff all slot).2 hallSlot⟩
  | _ =>
    obtain rfl := hlz rfl
    obtain rfl := hall rfl
    obtain rfl := hslot rfl
    obtain rfl := hbuf rfl
    exact ⟨rfl, rfl⟩

/-- Settles O2: an accepted word is put together from its fields, which its opcode may stand with. -/
theorem encodeOfDecode : Obligations.EncodeOfDecode := by
  intro v i h
  obtain ⟨hres, o, hcode, hfields, rfl⟩ := decode_eq_ok_iff.1 h
  obtain ⟨henc, hwf⟩ := hfields.encode_instr
  exact ⟨by rw [henc, hcode, encodeFields_fields hres], hwf⟩

theorem decode_of_encode_eq {v : Word} {i : Instr} (h : encode i = v) (hwf : i.wellFormed = true) :
    decode v = .ok i :=
  h ▸ decode_encode hwf

/-- Settles O4: each word is that of its command. -/
theorem knownWordsDecode : Obligations.KnownWordsDecode := by
  refine ⟨?_, ?_, ?_, ?_, ?_, ?_, ?_, ?_, ?_⟩ <;> exact decode_of_encode_eq rfl rfl

/-! ### Rule R94's test and the decoder -/

theorem mem_assignedOpcodes {n : Nat} : n ∈ assignedOpcodes ↔ ∃ o : Opcode, o.code.toNat = n := by
  have hlist : assignedOpcodes = Opcode.assigned.map fun o => o.code.toNat := rfl
  have hall : ∀ o : Opcode, o ∈ Opcode.assigned := fun o => by cases o <;> decide
  simp [hlist, hall]

theorem Opcode.usesLz_eq_false_iff (o : Opcode) : o.usesLz = false ↔ o.code.toNat ≠ 0x12 := by cases o <;> decide

theorem Opcode.usesAll_eq_false_iff (o : Opcode) : o.usesAll = false ↔ o.code.toNat ∉ [0x40, 0x41] := by
  cases o <;> decide

theorem Opcode.usesSlot_eq_false_iff (o : Opcode) : o.usesSlot = false ↔ o.code.toNat ∉ [0x32, 0x40, 0x41] := by
  cases o <;> decide

theorem Opcode.usesBuf_eq_false_iff (o : Opcode) : o.usesBuf = false ↔ o.code.toNat ∉ [0x40, 0x41] := by
  cases o <;> decide

/-- At an assigned opcode, rule R94's test on the word as a natural is the test on its fields. -/
theorem illegalWordR94_iff_of_code {v : Word} {o : Opcode} (h : o.code = opcField v) :
    IllegalWordR94 v.toNat
      ↔ ¬ (reservedField v = 0 ∧ FieldsOk o (lzField v) (allField v) (slotField v) (bufField v)) := by
  have hcode : v.toNat % 2 ^ 8 = o.code.toNat := by rw [h, opcField_toNat]
  have hassigned : o.code.toNat ∈ assignedOpcodes := mem_assignedOpcodes.2 ⟨o, rfl⟩
  have hzero : ∀ {n : Nat} (x : BitVec n), x.toNat = 0 ↔ x = 0 := fun _ => BitVec.toNat_inj (y := 0)
  rw [IllegalWordR94, FieldsOk, hcode, ← reservedField_toNat, ← lzField_toNat, ← allField_toNat, ← slotField_toNat,
    ← bufField_toNat, Opcode.usesLz_eq_false_iff, Opcode.usesAll_eq_false_iff, Opcode.usesSlot_eq_false_iff,
    Opcode.usesBuf_eq_false_iff]
  simp only [ne_eq, hzero, Bool.toNat_eq_one, ← Bool.not_eq_true, hassigned, not_true_eq_false, false_or]
  tauto

/-- Rule R94's test fails exactly on the words the decoder accepts. -/
theorem not_illegalWordR94_iff {v : Word} : ¬ IllegalWordR94 v.toNat ↔ ∃ i, decode v = .ok i := by
  simp only [decode_eq_ok_iff]
  constructor
  · intro hlegal
    have hassigned : v.toNat % 2 ^ 8 ∈ assignedOpcodes := by_contra fun h => hlegal (.inr (.inl h))
    obtain ⟨o, ho⟩ := mem_assignedOpcodes.1 hassigned
    have hcode : o.code = opcField v := BitVec.eq_of_toNat_eq (by rw [ho, opcField_toNat])
    obtain ⟨hres, hfields⟩ := not_not.1 (mt (illegalWordR94_iff_of_code hcode).2 hlegal)
    exact ⟨_, hres, o, hcode, hfields, rfl⟩
  · rintro ⟨_, hres, o, hcode, hfields, -⟩ hill
    exact (illegalWordR94_iff_of_code hcode).1 hill ⟨hres, hfields⟩

/-! ### The unit's turn with any word in flight -/

/-- On the unit's turn the event of the completion, where one is listed, is taken off the list. -/
theorem step_of_unitTurn {s : State} (h : s.UnitTurn) : step s = unitStep { s with events := s.events.tail } := by
  rcases step_cases s with ⟨-, e⟩ | ⟨addr, es, hev, -⟩ | ⟨addr, v, es, hev, -⟩ | ⟨es, hev, -⟩
  · exact e
  all_goals rcases h with h | ⟨es', h⟩ <;> exact nomatch h.symm.trans hev

/-- Rules R94, R95: a word that the decoder refuses completes with `IllegalCommand`. -/
theorem unitStep_of_decode_ne_ok {s : State} (hb : s.busy = true) (h : ∀ i, decode s.lastcmd ≠ .ok i) :
    unitStep s = .next (s.finished .illegalCommand) := by
  rcases unitStep_cases s with ⟨hidle, -⟩ | ⟨-, i, hd, -⟩ | ⟨-, -, -, e⟩
  · exact nomatch hidle.symm.trans hb
  · exact absurd hd (h i)
  · exact e

/-- Settles O3: rule R94's test decides whether the decoder reads a command, and the round trip O2 says whose word
it is. -/
theorem illegalWordsComplete : Obligations.IllegalWordsComplete := by
  intro s hb hturn
  rw [step_of_unitTurn hturn]
  refine ⟨fun hill => ?_, fun hlegal => ?_⟩
  · exact unitStep_of_decode_ne_ok hb fun i hd => not_illegalWordR94_iff.2 ⟨i, hd⟩ hill
  · obtain ⟨i, hd⟩ := not_illegalWordR94_iff.1 hlegal
    obtain ⟨henc, hwf⟩ := encodeOfDecode _ i hd
    exact ⟨i, hwf, henc, unitStep_of_decode hb hd⟩

end Sys2Proof.Machine
end

section
/-! The two ways a scalar command ends, against the contract its rule states (rules R14, R120). -/

namespace Sys2Proof.Machine

/-! ### What stays below the radix -/

theorem MontContract.modContract {k : Config} {q km : Nat} (h : MontContract k q km) : ModContract k q := by
  obtain ⟨-, h3, hq, -⟩ := h
  exact ⟨by omega, hq⟩

/-- A modulus of rule R120 leaves two bits of a word free. -/
theorem ModContract.four_mul_lt {k : Config} {q : Nat} (h : ModContract k q) : 4 * q < k.R := by
  have hR := Config.qmax_lt k
  have hq := h.2
  omega

theorem ModContract.lt_R {k : Config} {q v : Nat} (h : ModContract k q) (hv : v < q) : v < k.R := by
  have := h.four_mul_lt
  omega

theorem ModContract.mod_lt {k : Config} {q : Nat} (h : ModContract k q) (v : Nat) : v % q < q :=
  Nat.mod_lt v (Nat.zero_lt_two.trans_le h.1)

theorem ModContract.mod_lt_R {k : Config} {q : Nat} (h : ModContract k q) (v : Nat) : v % q < k.R :=
  h.lt_R (h.mod_lt v)

/-- Two operands below the modulus are inside the contract of `MRED` (rule R125). -/
theorem ModContract.mul_lt_mul_R {k : Config} {q x y : Nat} (h : ModContract k q) (hx : x < q) (hy : y < q) :
    x * y < q * k.R :=
  Nat.mul_lt_mul'' hx (h.lt_R hy)

/-! ### A command that writes `R0` alone -/

/-- The command `i` writes the value `v` to `R0` where the contract `P` holds, and a free value where it fails
(rules R14, R120). -/
def WritesR0Under (i : Instr) (s : State) (P : Prop) (v : Nat) : Prop :=
  ∃ ok, (ok = true ↔ P) ∧ exec i s = .next (s.finishR0 ok v)

theorem WritesR0Under.exec_eq {i : Instr} {s : State} {P : Prop} {v : Nat} (h : WritesR0Under i s P v) (hP : P) :
    exec i s = .next (State.finished .ok { s with r0 := mkWord s.cfg v }) := by
  obtain ⟨ok, hok, hexec⟩ := h
  rw [hexec, State.finishR0_inside (hok.2 hP)]

theorem WritesR0Under.runsTo {i : Instr} {s : State} {P : Prop} {v w : Nat} (h : WritesR0Under i s P v) (hP : P)
    (hvw : v = w) (hw : w < s.cfg.R) : RunsTo i s { s with r0 := BitVec.ofNat 64 w } := by
  rw [RunsTo, h.exec_eq hP, hvw, mkWord_of_lt hw]

theorem WritesR0Under.drawsR0 {i : Instr} {s : State} {P : Prop} {v : Nat} (h : WritesR0Under i s P v) (hP : ¬ P) :
    DrawsR0 i s := by
  obtain ⟨ok, hok, hexec⟩ := h
  have hfalse : ok = false := Bool.eq_false_iff.2 (mt hok.1 hP)
  exact ⟨_, _, s.anyW_fits 0, by rw [RunsTo, hexec, State.finishR0_outside hfalse]⟩

/-! ### The contract and the value of each command -/

theorem mform_writesR0 (s : State) : WritesR0Under .mform s
    (BarContract s.cfg s.q.toNat s.kbl.toNat s.kbh.toNat ∧ s.a.toNat < s.q.toNat)
    (montForm s.cfg s.q.toNat s.a.toNat) :=
  ⟨_, by simp [State.barOk, barOk_iff, State.aBelowQ], rfl⟩

theorem mtos_writesR0 (s : State) : WritesR0Under .mtos s
    (MontContract s.cfg s.q.toNat s.km.toNat ∧ s.a.toNat < s.q.toNat)
    (redc s.cfg s.q.toNat s.km.toNat (s.a.toNat * 1)) :=
  ⟨_, by simp [State.montOk, montOk_iff, State.aBelowQ], rfl⟩

theorem mred_writesR0 (s : State) : WritesR0Under .mred s
    (MontContract s.cfg s.q.toNat s.km.toNat ∧ s.a.toNat * s.b.toNat < s.q.toNat * s.cfg.R)
    (redc s.cfg s.q.toNat s.km.toNat (s.a.toNat * s.b.toNat)) :=
  ⟨_, by simp [State.montOk, montOk_iff, State.productFits], rfl⟩

theorem mredLazy_writesR0 (s : State) : WritesR0Under .mredLazy s
    (MontContract s.cfg s.q.toNat s.km.toNat ∧ s.a.toNat * s.b.toNat < s.q.toNat * s.cfg.R)
    (redcLax s.cfg s.q.toNat s.km.toNat (s.a.toNat * s.b.toNat)) :=
  ⟨_, by simp [State.montOk, montOk_iff, State.productFits], rfl⟩

theorem bred_writesR0 (s : State) : WritesR0Under .bred s
    (BarContract s.cfg s.q.toNat s.kbl.toNat s.kbh.toNat) (s.a.toNat * s.b.toNat % s.q.toNat) :=
  ⟨_, barOk_iff _ _ _ _, rfl⟩

theorem cred_writesR0 (s : State) : WritesR0Under .cred s
    (ModContract s.cfg s.q.toNat ∧ s.a.toNat < 2 * s.q.toNat)
    (if s.a.toNat ≥ s.q.toNat then s.a.toNat - s.q.toNat else s.a.toNat) :=
  ⟨_, by simp [State.modOk, modOk_iff], rfl⟩

theorem madd_writesR0 (s : State) : WritesR0Under .madd s
    (ModContract s.cfg s.q.toNat ∧ s.a.toNat < s.q.toNat ∧ s.b.toNat < s.q.toNat)
    (addMod s.q.toNat s.a.toNat s.b.toNat) :=
  ⟨_, by simp [State.modOk, modOk_iff, State.aBelowQ, State.bBelowQ, and_assoc], rfl⟩

theorem msub_writesR0 (s : State) : WritesR0Under .msub s
    (ModContract s.cfg s.q.toNat ∧ s.a.toNat < s.q.toNat ∧ s.b.toNat < s.q.toNat)
    (subMod s.q.toNat s.a.toNat s.b.toNat) :=
  ⟨_, by simp [State.modOk, modOk_iff, State.aBelowQ, State.bBelowQ, and_assoc], rfl⟩

theorem modpow_writesR0 (s : State) : WritesR0Under .modpow s
    (ModContract s.cfg s.q.toNat) (modPow s.a.toNat s.b.toNat s.q.toNat) :=
  ⟨_, modOk_iff _ _, rfl⟩

theorem fred_writesR0 (s : State) : WritesR0Under .fred s True (s.a.toNat % 12289) :=
  ⟨true, by simp, rfl⟩

theorem mconst_writesR0 (s : State) : WritesR0Under .mconst s
    (s.q.toNat % 2 = 1) (montConst s.cfg s.q.toNat) :=
  ⟨_, beq_iff_eq, rfl⟩

end Sys2Proof.Machine
end

section
/-! The scalar kernel without a Montgomery reduction: `NOP`, `MFORM`, `BRED`, `CRED`, `MADD`, `MSUB`, `MODPOW`, `FRED`
(O20, O21, O25 to O29). -/

namespace Sys2Proof.Machine

/-- Settles O20. -/
theorem nopOnlyCompletes : Obligations.NopOnlyCompletes :=
  ⟨rfl, fun _ => ⟨rfl, rfl, rfl⟩⟩

/-- Settles O21. -/
theorem mformResult : Obligations.MformResult :=
  ⟨rfl, fun s => ⟨fun h => (mform_writesR0 s).runsTo h rfl (h.1.1.mod_lt_R _), (mform_writesR0 s).drawsR0⟩⟩

/-- Settles O25. -/
theorem bredResult : Obligations.BredResult :=
  ⟨rfl, fun s => ⟨fun h => (bred_writesR0 s).runsTo h rfl (h.1.mod_lt_R _), (bred_writesR0 s).drawsR0⟩⟩

/-- One conditional subtraction reduces a value below twice the modulus (rule R128). -/
theorem condSub_eq_mod {a q : Nat} (h : a < 2 * q) : (if a ≥ q then a - q else a) = a % q := by
  split
  case isTrue hge => rw [Nat.mod_eq_sub_mod hge, Nat.mod_eq_of_lt (by omega)]
  case isFalse hlt => rw [Nat.mod_eq_of_lt (by omega)]

/-- Settles O26. -/
theorem credResult : Obligations.CredResult :=
  ⟨rfl, fun s => ⟨fun h => (cred_writesR0 s).runsTo h (condSub_eq_mod h.2) (h.1.mod_lt_R _),
    (cred_writesR0 s).drawsR0⟩⟩

/-- Settles O27: the difference is the integer's remainder by `subMod_eq`. -/
theorem maddMsubResult : Obligations.MaddMsubResult := by
  refine ⟨rfl, rfl, fun s => ⟨fun h => ?_, fun h => ⟨(madd_writesR0 s).drawsR0 h, (msub_writesR0 s).drawsR0 h⟩⟩⟩
  have hpos : 0 < s.q.toNat := Nat.zero_lt_of_lt h.2.1
  have hsub : subMod s.q.toNat s.a.toNat s.b.toNat = (((s.a.toNat : Int) - s.b.toNat) % s.q.toNat).toNat := by
    rw [← subMod_eq hpos, Int.toNat_natCast]
  exact ⟨(madd_writesR0 s).runsTo h rfl (h.1.mod_lt_R _),
    (msub_writesR0 s).runsTo h hsub (hsub ▸ h.1.lt_R (subMod_lt hpos _ _))⟩

/-- Settles O28: square and multiply is the power by `modPow_eq`. -/
theorem modpowResult : Obligations.ModpowResult :=
  ⟨rfl, fun s => ⟨fun h => (modpow_writesR0 s).runsTo h (modPow_eq _ _ _) (h.mod_lt_R _),
    (modpow_writesR0 s).drawsR0⟩⟩

/-- Settles O29: 12289 is below the radix at both widths. -/
theorem fredResult : Obligations.FredResult := by
  refine ⟨rfl, fun s => (fred_writesR0 s).runsTo trivial rfl ?_⟩
  have hR := Config.two_pow_32_le_R s.cfg
  omega

end Sys2Proof.Machine
end

section
/-! The constants of a modulus: `MCONST` and `BCONST` (O30, O31). -/

namespace Sys2Proof.Machine

/-- The Montgomery constant of any odd `q` is the negated inverse of `q` modulo the radix (rule R133). -/
theorem montConst_mul_add_one {c : Config} {q : Nat} (h : q % 2 = 1) : (montConst c q * q + 1) % c.R = 0 := by
  obtain ⟨hlt, hinv⟩ := invMod_spec (Config.one_lt_R c) (coprime_two_pow h c.W)
  have hone : 1 ≡ invMod q c.R * q [MOD c.R] := by
    rw [Nat.ModEq, Nat.mul_comm, hinv, Nat.mod_eq_of_lt (Config.one_lt_R c)]
  calc montConst c q * q + 1
      ≡ (c.R - invMod q c.R) * q + invMod q c.R * q [MOD c.R] := ((Nat.mod_modEq _ _).mul_right q).add hone
    _ = c.R * q := by rw [← Nat.add_mul, Nat.sub_add_cancel hlt.le]
    _ ≡ 0 [MOD c.R] := by simp [Nat.ModEq]

/-- Settles O30. -/
theorem mconstResult : Obligations.MconstResult := by
  refine ⟨rfl, fun s => ⟨fun hodd => ?_, fun heven => (mconst_writesR0 s).drawsR0 (by omega)⟩⟩
  have hlt : montConst s.cfg s.q.toNat < s.cfg.R := Nat.mod_lt _ (Config.R_pos _)
  refine ⟨_, mkWord_fits _ _, ?_, (mconst_writesR0 s).exec_eq hodd⟩
  rw [mkWord_toNat_of_lt hlt]
  exact montConst_mul_add_one hodd

/-- The upper word of the Barrett constant fits where the modulus is at least 2 (rule R134). -/
theorem barrettConst_div_lt (c : Config) {q : Nat} (h : 2 ≤ q) : barrettConst c q / c.R < c.R := by
  have hsq : 2 ^ (2 * c.W) = c.R * c.R := by rw [two_mul, pow_add]
  rw [Nat.div_lt_iff_lt_mul (Config.R_pos c), barrettConst, ← hsq]
  exact Nat.div_lt_self (Nat.two_pow_pos _) h

/-- Settles O31: the two words are the quotient's remainder and quotient by the radix. -/
theorem bconstResult : Obligations.BconstResult := by
  refine ⟨rfl, fun s => ⟨fun h => ?_, fun h => ?_⟩⟩
  · refine ⟨mkWord s.cfg _, mkWord s.cfg _, mkWord_fits _ _, mkWord_fits _ _, ?_,
      congrArg _ (State.finishR0R1_inside (decide_eq_true h) _)⟩
    rw [mkWord_toNat_of_lt (barrettConst_div_lt s.cfg h), mkWord_toNat, Nat.mod_mod]
    exact Nat.div_add_mod' _ _
  · exact ⟨_, _, _, s.anyW_fits 0, s.anyW_fits 1,
      congrArg _ (State.finishR0R1_outside (decide_eq_false (by omega)) _)⟩

end Sys2Proof.Machine
end

section
/-! The Montgomery reductions: `MTOS`, `MRED`, `MRED.LAZY`, and the laws of the Montgomery domain (O22 to O24, O32,
O33). -/

namespace Sys2Proof.Machine

theorem MontContract.exists_radixInverse {k : Config} {q km : Nat} (h : MontContract k q km) :
    ∃ u, RadixInverse k q u := by
  obtain ⟨hodd, h3, -⟩ := h
  exact Sys2Proof.Machine.exists_radixInverse k h3 hodd

/-! ### The commands -/

/-- `MTOS` of a Montgomery form gives the value it is the form of (rule R124). -/
theorem mtos_of_montForm {s : State} {x : Nat} (h : MontContract s.cfg s.q.toNat s.km.toNat) (hx : x < s.q.toNat)
    (ha : s.a.toNat = montForm s.cfg s.q.toNat x) : RunsTo .mtos s { s with r0 := BitVec.ofNat 64 x } := by
  have hmod := h.modContract
  have hvalue : redc s.cfg s.q.toNat s.km.toNat (s.a.toNat * 1) = x := by
    rw [ha, Nat.mul_comm, redc_montForm h hmod.1, Nat.one_mul, Nat.mod_eq_of_lt hx]
  exact (mtos_writesR0 s).runsTo ⟨h, ha ▸ hmod.mod_lt _⟩ hvalue (hmod.lt_R hx)

/-- Settles O22. -/
theorem mtosResult : Obligations.MtosResult := by
  refine ⟨rfl, fun s => ⟨fun ⟨h, ha⟩ => ?_, (mtos_writesR0 s).drawsR0, fun h hbar ha => ?_⟩⟩
  · obtain ⟨u, hu⟩ := h.exists_radixInverse
    have hmod := h.modContract
    have hT : s.a.toNat * 1 < s.q.toNat * s.cfg.R := hmod.mul_lt_mul_R ha hmod.1
    refine ⟨u, hu, (mtos_writesR0 s).runsTo ⟨h, ha⟩ ?_ (hmod.mod_lt_R _)⟩
    rw [redc_eq h hu hT, Nat.mul_one]
  · refine ⟨_, _, (mform_writesR0 s).exec_eq ⟨hbar, ha⟩, mtos_of_montForm h ha ?_, by simp [State.finished]⟩
    exact mkWord_toNat_of_lt (h.modContract.mod_lt_R _)

/-- Settles O23: `redc_eq` gives the value. -/
theorem mredResult : Obligations.MredResult := by
  refine ⟨rfl, fun s => ⟨fun ⟨h, hT⟩ => ?_, (mred_writesR0 s).drawsR0⟩⟩
  obtain ⟨u, hu⟩ := h.exists_radixInverse
  exact ⟨u, hu, (mred_writesR0 s).runsTo ⟨h, hT⟩ (redc_eq h hu hT) (h.modContract.mod_lt_R _)⟩

/-- Settles O24: the value is `redcLax`, whose laws are `redcLax_mul`, `redcLax_lt` and `redcLax_mod`. -/
theorem mredLazyResult : Obligations.MredLazyResult := by
  refine ⟨rfl, fun s => ⟨fun ⟨h, hT⟩ => ?_, (mredLazy_writesR0 s).drawsR0⟩⟩
  obtain ⟨u, hu⟩ := h.exists_radixInverse
  have hlt := redcLax_lt (km := s.km.toNat) hT
  have hq := h.modContract.four_mul_lt
  exact ⟨u, _, hu, redcLax_mul h _, hlt, redcLax_mod h hu _,
    (mredLazy_writesR0 s).runsTo ⟨h, hT⟩ rfl (by omega)⟩

/-! ### The Montgomery domain (rules R136, R137) -/

/-- `MRED` of operands below the modulus, by the value of the reduction of their product. -/
theorem mred_runsTo_of_lt {s : State} {v : Nat} (h : MontContract s.cfg s.q.toNat s.km.toNat)
    (ha : s.a.toNat < s.q.toNat) (hb : s.b.toNat < s.q.toNat)
    (hv : redc s.cfg s.q.toNat s.km.toNat (s.a.toNat * s.b.toNat) = v) :
    RunsTo .mred s { s with r0 := BitVec.ofNat 64 v } := by
  have hmod := h.modContract
  have hT := hmod.mul_lt_mul_R ha hb
  exact (mred_writesR0 s).runsTo ⟨h, hT⟩ hv (hv ▸ hmod.lt_R (redc_lt hT))

/-- Settles O32: each Montgomery form among the operands cancels one radix inverse (`redc_montForm`). -/
theorem montgomeryDomainLaw : Obligations.MontgomeryDomainLaw := by
  intro s x y h hx hy
  have hform : ∀ z, z * 2 ^ s.cfg.W % s.q.toNat < s.q.toNat := fun _ => h.modContract.mod_lt _
  refine ⟨fun ha hb => ?both, fun ha hb => ?one, fun ha hb => ?neither⟩
  case both =>
    refine mred_runsTo_of_lt h (ha ▸ hform x) (hb ▸ hform y) ?_
    have hvalue : redc s.cfg s.q.toNat s.km.toNat (s.a.toNat * s.b.toNat) = s.a.toNat * y % s.q.toNat :=
      hb ▸ redc_montForm h (ha ▸ hform x)
    rw [hvalue, ha, Nat.mod_mul_mod, Nat.mod_mul_mod, Nat.mul_right_comm]
  case one =>
    refine mred_runsTo_of_lt h (ha ▸ hform x) (hb ▸ hy) ?_
    rw [ha, hb, Nat.mul_comm x y, Nat.mul_comm]
    exact redc_montForm h hy
  case neither =>
    obtain ⟨u, hu⟩ := h.exists_radixInverse
    refine ⟨u, hu, mred_runsTo_of_lt h (ha ▸ hx) (hb ▸ hy) ?_⟩
    rw [ha, hb]
    exact redc_eq h hu (h.modContract.mul_lt_mul_R hx hy)

/-- Settles O33: the bound on lax operands from `4 · QMAX = R`, and `redcLax_lt`. -/
theorem montgomeryBound : Obligations.MontgomeryBound := by
  refine fun k q => ⟨fun hq x y hx hy => ⟨?_, ?_⟩, fun km T hT => redcLax_lt hT⟩
  · calc x * y < 2 * q * (2 * q) := Nat.mul_lt_mul'' hx hy
      _ = 4 * q ^ 2 := by ring
  · have hR := Config.qmax_lt k
    calc 4 * q ^ 2 = q * (4 * q) := by ring
      _ < q * k.R := Nat.mul_lt_mul_of_pos_left (by omega) (by omega)

end Sys2Proof.Machine
end

section
/-! The butterflies: `BFCT`, `BFGS` and their inversion (O34 to O36). -/

namespace Sys2Proof.Machine

/-! ### Differences modulo `q` (rules R8, R130) -/

theorem subMod_eq_toNat {q : Nat} (h : 0 < q) (u v : Nat) : subMod q u v = (((u : Int) - v) % q).toNat := by
  rw [← subMod_eq h, Int.toNat_natCast]

theorem subMod_add_modEq {q : Nat} (h : 0 < q) (u v : Nat) : subMod q u v + v ≡ u [MOD q] := by
  have hle : v % q ≤ q := (Nat.mod_lt v h).le
  calc subMod q u v + v ≡ u + (q - v % q) + v % q [MOD q] := (Nat.mod_modEq _ _).add (Nat.mod_modEq _ _).symm
    _ = u + q := by omega
    _ ≡ u [MOD q] := by simp [Nat.ModEq]

/-- The sum of a sum and a difference is twice the first operand. -/
theorem addMod_addMod_subMod {q : Nat} (h : 0 < q) (x v : Nat) :
    addMod q (addMod q x v) (subMod q x v) = 2 * x % q := by
  show addMod q x v + subMod q x v ≡ 2 * x [MOD q]
  calc addMod q x v + subMod q x v ≡ x + v + subMod q x v [MOD q] := (Nat.mod_modEq _ _).add_right _
    _ = x + (subMod q x v + v) := by ring
    _ ≡ x + x [MOD q] := (subMod_add_modEq h x v).add_left x
    _ = 2 * x := (two_mul x).symm

/-- The difference of a sum and a difference is twice the second operand. -/
theorem subMod_addMod_subMod_modEq {q : Nat} (h : 0 < q) (x v : Nat) :
    subMod q (addMod q x v) (subMod q x v) ≡ 2 * v [MOD q] := by
  apply Nat.ModEq.add_right_cancel' (subMod q x v)
  calc subMod q (addMod q x v) (subMod q x v) + subMod q x v ≡ addMod q x v [MOD q] := subMod_add_modEq h _ _
    _ ≡ x + v [MOD q] := Nat.mod_modEq _ _
    _ ≡ subMod q x v + v + v [MOD q] := (subMod_add_modEq h x v).symm.add_right v
    _ = 2 * v + subMod q x v := by ring

/-! ### The two butterflies on naturals -/

theorem butterflyCT_eq {k : Config} {q km u w x y : Nat} (h : MontContract k q km) (hu : RadixInverse k q u)
    (hw : w < q) (hy : y < q) :
    butterflyCT k q km w x y = (addMod q x (y * w * u % q), subMod q x (y * w * u % q)) := by
  rw [butterflyCT, redc_eq h hu (h.modContract.mul_lt_mul_R hy hw)]

theorem butterflyGS_eq {k : Config} {q km u w x y : Nat} (h : MontContract k q km) (hu : RadixInverse k q u)
    (hw : w < q) : butterflyGS k q km w x y = (addMod q x y, subMod q x y * w * u % q) := by
  have hd : subMod q x y < q := h.modContract.mod_lt _
  rw [butterflyGS, redc_eq h hu (h.modContract.mul_lt_mul_R hd hw)]

theorem butterflyCT_montForm {k : Config} {q km w x y : Nat} (h : MontContract k q km) (hy : y < q) :
    butterflyCT k q km (montForm k q w) x y = (addMod q x (y * w % q), subMod q x (y * w % q)) := by
  rw [butterflyCT, redc_montForm h hy]

theorem butterflyGS_montForm {k : Config} {q km w x y : Nat} (h : MontContract k q km) :
    butterflyGS k q km (montForm k q w) x y = (addMod q x y, subMod q x y * w % q) := by
  have hd : subMod q x y < q := h.modContract.mod_lt _
  rw [butterflyGS, redc_montForm h hd]

/-- The inverse butterfly undoes the forward one up to the factor 2 (rule R162). -/
theorem butterflyGS_butterflyCT {k : Config} {q km w w' x y : Nat} (h : MontContract k q km) (hy : y < q)
    (hinv : w * w' % q = 1) :
    butterflyGS k q km (montForm k q w') (butterflyCT k q km (montForm k q w) x y).1
      (butterflyCT k q km (montForm k q w) x y).2 = (2 * x % q, 2 * y % q) := by
  have hmod := h.modContract
  have hq : 0 < q := Nat.zero_lt_of_lt hy
  have hone : w * w' ≡ 1 [MOD q] := by rw [Nat.ModEq, hinv, Nat.mod_eq_of_lt hmod.1]
  rw [butterflyCT_montForm h hy, butterflyGS_montForm h, addMod_addMod_subMod hq]
  congr 1
  calc subMod q (addMod q x (y * w % q)) (subMod q x (y * w % q)) * w'
      ≡ 2 * (y * w % q) * w' [MOD q] := (subMod_addMod_subMod_modEq hq _ _).mul_right w'
    _ ≡ 2 * (y * w) * w' [MOD q] := ((Nat.mod_modEq _ _).mul_left 2).mul_right w'
    _ = 2 * y * (w * w') := by ring
    _ ≡ 2 * y * 1 [MOD q] := hone.mul_left _
    _ = 2 * y := Nat.mul_one _

/-- Both results of the forward butterfly are strict (rule R160). -/
theorem butterflyCT_lt {k : Config} {q : Nat} (h : 0 < q) (km w x y : Nat) :
    (butterflyCT k q km w x y).1 < q ∧ (butterflyCT k q km w x y).2 < q :=
  ⟨addMod_lt h _ _, subMod_lt h _ _⟩

/-- Both results of the inverse butterfly are strict (rule R161). -/
theorem butterflyGS_lt {k : Config} {q w : Nat} (h : ModContract k q) (hw : w < q) (km x y : Nat) :
    (butterflyGS k q km w x y).1 < q ∧ (butterflyGS k q km w x y).2 < q :=
  ⟨h.mod_lt _, redc_lt (h.mul_lt_mul_R (h.mod_lt _) hw)⟩

/-! ### A command that writes `R0` and `R1` -/

/-- The command `i` writes the values `v` to `R0` and `R1` where the contract `P` holds, and free values where it fails
(rules R14, R120). -/
def WritesR0R1Under (i : Instr) (s : State) (P : Prop) (v : Nat × Nat) : Prop :=
  ∃ ok, (ok = true ↔ P) ∧ exec i s = .next (s.finishR0R1 ok v)

theorem WritesR0R1Under.exec_eq {i : Instr} {s : State} {P : Prop} {v : Nat × Nat} (h : WritesR0R1Under i s P v)
    (hP : P) : exec i s = .next (State.finished .ok { s with r0 := mkWord s.cfg v.1, r1 := mkWord s.cfg v.2 }) := by
  obtain ⟨ok, hok, hexec⟩ := h
  rw [hexec, State.finishR0R1_inside (hok.2 hP)]

theorem WritesR0R1Under.runsTo {i : Instr} {s : State} {P : Prop} {v : Nat × Nat} {x y : Nat}
    (h : WritesR0R1Under i s P v) (hP : P) (hv : v = (x, y)) (hx : x < s.cfg.R) (hy : y < s.cfg.R) :
    RunsTo i s { s with r0 := BitVec.ofNat 64 x, r1 := BitVec.ofNat 64 y } := by
  rw [RunsTo, h.exec_eq hP, hv, mkWord_of_lt hx, mkWord_of_lt hy]

/-- Results below the modulus are written whole. -/
theorem WritesR0R1Under.exec_results {i : Instr} {s : State} {P : Prop} {v : Nat × Nat}
    (h : WritesR0R1Under i s P v) (hP : P) (hmod : ModContract s.cfg s.q.toNat)
    (hv : v.1 < s.q.toNat ∧ v.2 < s.q.toNat) :
    ∃ x y : Word, exec i s = .next (State.finished .ok { s with r0 := x, r1 := y })
      ∧ x.toNat = v.1 ∧ y.toNat = v.2 :=
  ⟨_, _, h.exec_eq hP, mkWord_toNat_of_lt (hmod.lt_R hv.1), mkWord_toNat_of_lt (hmod.lt_R hv.2)⟩

theorem WritesR0R1Under.drawsR0R1 {i : Instr} {s : State} {P : Prop} {v : Nat × Nat} (h : WritesR0R1Under i s P v)
    (hP : ¬ P) : DrawsR0R1 i s := by
  obtain ⟨ok, hok, hexec⟩ := h
  have hfalse : ok = false := Bool.eq_false_iff.2 (mt hok.1 hP)
  exact ⟨_, _, _, s.anyW_fits 0, s.anyW_fits 1, by rw [RunsTo, hexec, State.finishR0R1_outside hfalse]⟩

/-! ### The commands -/

/-- The contract of both butterflies (rules R160, R161). -/
def State.ButterflyContract (s : State) : Prop :=
  MontContract s.cfg s.q.toNat s.km.toNat ∧ s.a.toNat < s.q.toNat ∧ s.b.toNat < s.q.toNat ∧ s.c.toNat < s.q.toNat

theorem State.butterflyOk_iff (s : State) : s.butterflyOk = true ↔ s.ButterflyContract := by
  simp [State.butterflyOk, State.ButterflyContract, State.montOk, montOk_iff, State.aBelowQ, State.bBelowQ,
    State.cBelowQ, and_assoc]

theorem bfct_writesR0R1 (s : State) : WritesR0R1Under .bfct s s.ButterflyContract
    (butterflyCT s.cfg s.q.toNat s.km.toNat s.c.toNat s.a.toNat s.b.toNat) :=
  ⟨_, s.butterflyOk_iff, rfl⟩

theorem bfgs_writesR0R1 (s : State) : WritesR0R1Under .bfgs s s.ButterflyContract
    (butterflyGS s.cfg s.q.toNat s.km.toNat s.c.toNat s.a.toNat s.b.toNat) :=
  ⟨_, s.butterflyOk_iff, rfl⟩

/-- Settles O34: `redc_eq` gives the reduced product. -/
theorem bfctResult : Obligations.BfctResult := by
  refine ⟨rfl, fun s => ⟨fun hP => ?_, (bfct_writesR0R1 s).drawsR0R1⟩⟩
  obtain ⟨h, ha, hb, hc⟩ := id hP
  obtain ⟨u, hu⟩ := h.exists_radixInverse
  have hmod := h.modContract
  have hpos : 0 < s.q.toNat := Nat.zero_lt_of_lt ha
  have hsub := subMod_eq_toNat hpos s.a.toNat (s.b.toNat * s.c.toNat * u % s.q.toNat)
  refine ⟨u, _, hu, rfl, (bfct_writesR0R1 s).runsTo hP ?_ (hmod.mod_lt_R _) (hsub ▸ hmod.lt_R (subMod_lt hpos _ _))⟩
  rw [butterflyCT_eq h hu hc hb, hsub, addMod]

/-- Settles O35: `redc_eq` gives the reduced product of the difference. -/
theorem bfgsResult : Obligations.BfgsResult := by
  refine ⟨rfl, fun s => ⟨fun hP => ?_, (bfgs_writesR0R1 s).drawsR0R1⟩⟩
  obtain ⟨h, ha, -, hc⟩ := id hP
  obtain ⟨u, hu⟩ := h.exists_radixInverse
  have hmod := h.modContract
  have hsub := subMod_eq_toNat (Nat.zero_lt_of_lt ha) s.a.toNat s.b.toNat
  refine ⟨u, _, hu, rfl, (bfgs_writesR0R1 s).runsTo hP ?_ (hmod.mod_lt_R _) (hmod.mod_lt_R _)⟩
  rw [butterflyGS_eq h hu hc, hsub, addMod]

/-- Settles O36: the two commands compute `butterflyGS_butterflyCT`; the results of `BFCT` are strict, so they meet the
contract of `BFGS`. -/
theorem butterflyInversion : Obligations.ButterflyInversion := by
  intro s w w' h ha hb hinv hc
  have hmod := h.modContract
  have hform : ∀ z, montForm s.cfg s.q.toNat z < s.q.toNat := fun _ => hmod.mod_lt _
  have hc : s.c.toNat = montForm s.cfg s.q.toNat w := hc
  have hstrict := butterflyCT_lt (k := s.cfg) (Nat.zero_lt_of_lt ha) s.km.toNat s.c.toNat s.a.toNat s.b.toNat
  obtain ⟨p, m, hct, hp, hm⟩ := (bfct_writesR0R1 s).exec_results ⟨h, ha, hb, hc ▸ hform w⟩ hmod hstrict
  have hw' : (BitVec.ofNat 64 (w' * 2 ^ s.cfg.W % s.q.toNat)).toNat = montForm s.cfg s.q.toNat w' := by
    rw [← mkWord_of_lt (hmod.mod_lt_R _), mkWord_toNat_of_lt (hmod.mod_lt_R _)]
    rfl
  have hw'q := hw' ▸ hform w'
  obtain ⟨x, y, hgs, hx, hy⟩ := (bfgs_writesR0R1 _).exec_results
    (s := { State.finished .ok { s with r0 := p, r1 := m } with
      a := p, b := m, c := BitVec.ofNat 64 (w' * 2 ^ s.cfg.W % s.q.toNat) })
    ⟨h, hp ▸ hstrict.1, hm ▸ hstrict.2, hw'q⟩ hmod (butterflyGS_lt hmod hw'q _ _ _)
  have hback : butterflyGS s.cfg s.q.toNat s.km.toNat (BitVec.ofNat 64 (w' * 2 ^ s.cfg.W % s.q.toNat)).toNat
      p.toNat m.toNat = (2 * s.a.toNat % s.q.toNat, 2 * s.b.toNat % s.q.toNat) := by
    rw [hw', hp, hm, hc, butterflyGS_butterflyCT h hb hinv]
  exact ⟨_, _, hct, hgs, hx.trans (congrArg Prod.fst hback), hy.trans (congrArg Prod.snd hback)⟩

end Sys2Proof.Machine
end

section
/-! Trial division decides primality (O42). -/

namespace Sys2Proof.Machine

/-- Trial division from `d` on passes exactly when no `e` with `d ≤ e ≤ √q` divides; `fuel` candidates are enough to
reach `√q`. -/
theorem noDivisorFrom_iff {q : Nat} (fuel : Nat) : ∀ d, q < (d + fuel) * (d + fuel) →
    (noDivisorFrom q fuel d = true ↔ ∀ e, d ≤ e → e * e ≤ q → ¬ e ∣ q) := by
  induction fuel with
  | zero =>
    intro d hd
    refine iff_of_true rfl fun e he hsq => absurd (hd.trans_le ?_) (Nat.lt_irrefl q)
    exact (Nat.mul_le_mul he he).trans hsq
  | succ fuel ih =>
    intro d hd
    rw [noDivisorFrom]
    split
    next hbig =>
      refine iff_of_true rfl fun e he hsq => absurd (hbig.trans_le ?_) (Nat.lt_irrefl q)
      exact (Nat.mul_le_mul he he).trans hsq
    next hsmall =>
      have hhere : (q % d != 0) = true ↔ ¬ d ∣ q := by rw [bne_iff_ne, ne_eq, Nat.dvd_iff_mod_eq_zero]
      rw [Bool.and_eq_true, hhere, ih (d + 1) (by rwa [Nat.add_right_comm, Nat.add_assoc])]
      constructor
      · rintro ⟨hd, hlater⟩ e he hsq
        rcases he.eq_or_lt with rfl | hlt
        · exact hd
        · exact hlater e hlt hsq
      · exact fun hall => ⟨hall d le_rfl (not_lt.1 hsmall), fun e he => hall e (by omega)⟩

/-- Settles O42: a composite number has a divisor of at most its square root. -/
theorem primalityIsExact : Obligations.PrimalityIsExact := by
  intro q
  have hfuel : q < (2 + q) * (2 + q) := by nlinarith
  simp only [isPrime, Bool.and_eq_true, decide_eq_true_eq, noDivisorFrom_iff q 2 hfuel, Nat.prime_def_le_sqrt,
    Nat.le_sqrt]

theorem modulusOk_iff (c : Config) (n q : Nat) : modulusOk c n q = true ↔ GoodModulus c n q := by
  simp only [modulusOk, GoodModulus, Bool.and_eq_true, primalityIsExact q, beq_iff_eq, decide_eq_true_eq, and_assoc]

end Sys2Proof.Machine
end

section
/-! The roots of a slot: their laws (O44), and that `VALIDATE` computes them (rules R174, R175, R177). -/

namespace Sys2Proof.Machine

/-! ### The laws of the roots (rule R175) -/

/-- The exponent of rule R175 cuts the group of order `q − 1` down to order `2N`. -/
theorem two_mul_mul_rootExponent {q n : Nat} (hmod : q % (2 * n) = 1) : 2 * n * rootExponent q n = q - 1 :=
  Nat.mul_div_cancel' (hmod ▸ Nat.dvd_sub_mod q)

theorem two_mul_lt_of_mod_eq_one {q n : Nat} (hq : 1 < q) (hmod : q % (2 * n) = 1) : 2 * n < q := by
  have hmul := two_mul_mul_rootExponent hmod
  have hpos : 0 < rootExponent q n := Nat.pos_of_ne_zero fun h => by simp [h] at hmul; omega
  have := Nat.le_mul_of_pos_right (2 * n) hpos
  omega

section Roots

variable {g q n : Nat} (hgen : IsGen g q) (hn : 1 ≤ n) (hmod : q % (2 * n) = 1)
include hgen

theorem IsGen.pow_sub_one : (g : ZMod q) ^ (q - 1) = 1 := by
  obtain ⟨-, hord⟩ := hgen
  exact hord ▸ pow_orderOf_eq_one _

theorem IsGen.root_mul_rootInv : g ^ rootExponent q n % q * (g ^ (q - 1 - rootExponent q n) % q) % q = 1 := by
  have hle : rootExponent q n ≤ q - 1 := Nat.div_le_self _ _
  rw [← Nat.mul_mod, ← pow_add, Nat.add_sub_cancel' hle, ← modPow_eq, modPow_eq_one_iff hgen.1.one_lt]
  exact hgen.pow_sub_one

include hmod

theorem IsGen.orderOf_root : orderOf ((g : ZMod q) ^ rootExponent q n) = 2 * n := by
  obtain ⟨hq, hord⟩ := hgen
  have hmul := two_mul_mul_rootExponent hmod
  have hpos : 0 < rootExponent q n := Nat.pos_of_ne_zero fun h => by simp [h] at hmul; have := hq.two_le; omega
  rw [orderOf_pow_of_dvd hpos.ne' (hord ▸ Dvd.intro_left _ hmul), hord, ← hmul, Nat.mul_div_cancel _ hpos]

include hn

/-- A square root of 1 other than 1 is −1 in a field, and `ψ^N` is one. -/
theorem IsGen.root_pow : (g ^ rootExponent q n % q) ^ n % q = q - 1 := by
  have hq := hgen.1
  have : Fact q.Prime := ⟨hq⟩
  have hord := hgen.orderOf_root hmod
  have hsq : (((g : ZMod q) ^ rootExponent q n) ^ n) ^ 2 = 1 := by
    rw [← pow_mul, Nat.mul_comm n 2, ← hord, pow_orderOf_eq_one]
  have hne : ((g : ZMod q) ^ rootExponent q n) ^ n ≠ 1 := pow_ne_one_of_lt_orderOf (by omega) (by omega)
  have hneg := (sq_eq_one_iff.1 hsq).resolve_left hne
  have hcast : (((g ^ rootExponent q n) ^ n : Nat) : ZMod q) = ((q - 1 : Nat) : ZMod q) := by
    rw [Nat.cast_sub hq.one_le, Nat.cast_pow, Nat.cast_pow, hneg]
    simp
  rw [← Nat.pow_mod, (ZMod.natCast_eq_natCast_iff' _ _ _).1 hcast, Nat.mod_eq_of_lt (Nat.sub_lt hq.pos one_pos)]

end Roots

/-- Settles O44. -/
theorem rootOfUnityOrder : Obligations.RootOfUnityOrder := by
  intro k n v hn h
  obtain ⟨-, hgen, -⟩ := h.generator
  refine ⟨hgen.root_mul_rootInv, hgen.root_pow hn h.congruent, ?_⟩
  rw [Slot.root, ZMod.natCast_mod, Nat.cast_pow]
  exact hgen.orderOf_root h.congruent

/-! ### What `VALIDATE` computes for a good modulus -/

section GoodModulus

variable {k : Config} {n q : Nat} (h : GoodModulus k n q) (hn : 1 ≤ n)
include h

theorem GoodModulus.modContract : ModContract k q := ⟨h.1.two_le, h.2.2⟩

theorem GoodModulus.two_mul_lt : 2 * n < q := two_mul_lt_of_mod_eq_one h.1.one_lt h.2.1

include hn

theorem GoodModulus.three_le : 3 ≤ q := by
  have := h.two_mul_lt
  omega

theorem GoodModulus.odd : q % 2 = 1 := by
  have hne : q ≠ 2 := by
    have := h.three_le hn
    omega
  exact h.1.eq_two_or_odd.resolve_left hne

/-- The inverse of the degree in Montgomery form, times the degree, is the radix (rule R177). -/
theorem GoodModulus.montForm_invMod_mul : montForm k q (invMod n q) * n % q = k.R % q := by
  have hlt := h.two_mul_lt
  have hcop : Nat.Coprime n q := (Nat.coprime_of_lt_prime (by omega) (by omega) h.1).symm
  obtain ⟨-, hinv⟩ := invMod_spec h.1.one_lt hcop
  calc montForm k q (invMod n q) * n
      ≡ invMod n q * k.R * n [MOD q] := (Nat.mod_modEq _ _).mul_right n
    _ = n * invMod n q * k.R := by ring
    _ ≡ n * invMod n q % q * k.R [MOD q] := (Nat.mod_modEq _ _).symm.mul_right _
    _ = k.R := by rw [hinv, one_mul]

end GoodModulus

section WithRoots

variable {k : Config} {n : Nat} {v : Slot} (h : GoodModulus k n v.cq.toNat)
include h

theorem Slot.withRoots_psi_toNat :
    (v.withRoots k n).psi.toNat = montForm k v.cq.toNat (rootOfUnity v.cq.toNat n) :=
  mkWord_toNat_of_lt (h.modContract.mod_lt_R _)

theorem Slot.withRoots_psiinv_toNat :
    (v.withRoots k n).psiinv.toNat = montForm k v.cq.toNat (rootOfUnityInv v.cq.toNat n) :=
  mkWord_toNat_of_lt (h.modContract.mod_lt_R _)

theorem Slot.withRoots_ninv_toNat : (v.withRoots k n).ninv.toNat = montForm k v.cq.toNat (invMod n v.cq.toNat) :=
  mkWord_toNat_of_lt (h.modContract.mod_lt_R _)

variable (hn : 1 ≤ n)
include hn

theorem Slot.withRoots_g_toNat : (v.withRoots k n).g.toNat = smallestGenerator v.cq.toNat := by
  obtain ⟨-, hlt, -⟩ := smallestGeneratorIsLeast _ h.1 (h.three_le hn)
  exact mkWord_toNat_of_lt (h.modContract.lt_R hlt)

theorem Slot.root_withRoots : (v.withRoots k n).root n = rootOfUnity v.cq.toNat n := by
  rw [Slot.root, Slot.withRoots_g_toNat h hn, rootOfUnity, modPow_eq]
  rfl

theorem Slot.rootInv_withRoots : (v.withRoots k n).rootInv n = rootOfUnityInv v.cq.toNat n := by
  rw [Slot.rootInv, Slot.withRoots_g_toNat h hn, rootOfUnityInv, modPow_eq]
  rfl

/-- The roots written for a good modulus are those of rules R174, R175 and R177. -/
theorem Slot.withRoots_rootsOk : (v.withRoots k n).RootsOk k n where
  prime := h.1
  congruent := h.2.1
  small := h.2.2
  generator := by
    obtain ⟨h2, -, hgen, hleast⟩ := smallestGeneratorIsLeast _ h.1 (h.three_le hn)
    rw [Slot.withRoots_g_toNat h hn]
    exact ⟨h2, hgen, hleast⟩
  psi := by
    rw [Slot.withRoots_psi_toNat h, ← Slot.root_withRoots h hn]
    rfl
  psiinv := by
    rw [Slot.withRoots_psiinv_toNat h, ← Slot.rootInv_withRoots h hn]
    rfl
  ninv := by
    rw [Slot.withRoots_ninv_toNat h]
    exact ⟨h.modContract.mod_lt _, h.montForm_invMod_mul hn⟩

end WithRoots

end Sys2Proof.Machine
end

section
/-! `CTXSET` (O37, O38), the guards of `VALIDATE` (O39), and `CTXLD` (O45). -/

namespace Sys2Proof.Machine

/-! ### The constants of rule R171 -/

theorem coeffMask_lt_R {k : Config} {q : Nat} (h : q < k.R) : coeffMask q < k.R := by
  have hpow : 2 ^ bitlen q ≤ k.R := Nat.pow_le_pow_right (by decide) (bitlen_le h)
  have hpos := Nat.two_pow_pos (bitlen q)
  rw [coeffMask]
  omega

/-- The only odd power of two is 1. -/
theorem ispow2_eq_false_of_odd {q : Nat} (hodd : q % 2 = 1) (h1 : q ≠ 1) : ispow2 q = false := by
  rw [Bool.eq_false_iff, ne_eq, ispow2_iff]
  rintro ⟨e, rfl⟩
  cases e with
  | zero => exact h1 rfl
  | succ e => omega

/-- `SlotConst` computes the constants of rule R171 where the rule fixes them. -/
theorem State.slotConst_constantsOk (s : State) (i : Nat) {w : Word} (hw : fits s.cfg w) :
    (s.slotConst i w).ConstantsOk s.cfg where
  mask := mkWord_toNat_of_lt (coeffMask_lt_R hw)
  barrett h := by
    have h : 2 ≤ w.toNat := h
    simp only [State.slotConst, h, if_true]
    rw [mkWord_toNat, Nat.mod_mod, mkWord_toNat_of_lt (barrettConst_div_lt s.cfg h)]
    exact ⟨rfl, rfl⟩
  hasmont := by simp [State.slotConst, ← ispow2_iff]
  powerOfTwo h := if_pos ((ispow2_iff _).2 h)
  montgomery hodd h1 := by
    have hodd : w.toNat % 2 = 1 := hodd
    have hpow : ispow2 w.toNat = false := ispow2_eq_false_of_odd hodd h1
    have hlt : montConst s.cfg w.toNat < s.cfg.R := Nat.mod_lt _ (Config.R_pos _)
    simp only [State.slotConst, hpow, Bool.false_eq_true, if_false, hodd, if_true]
    rw [mkWord_toNat_of_lt hlt]
    exact montConst_mul_add_one hodd

/-- A slot below `LREQ` after a successful `CTXSET` (rule R170). -/
theorem State.commitRequest_slot_requested {s : State} {i : Nat} (hi : i < s.lreq.toNat)
    (hl : s.lreq.toNat ≤ s.cfg.lmax) : s.commitRequest.slot i = s.slotConst i (s.qinAt i) := by
  rw [State.slot, State.commitRequest_slots, State.requestedSlots, List.getD_eq_getElem?_getD, List.getElem?_map,
    List.getElem?_range (hi.trans_le hl)]
  simp [hi]

theorem State.Inv.commitRequest_constantsOk {s : State} (h : s.Inv) {i : Nat} (hi : i < s.lreq.toNat)
    (hl : s.lreq.toNat ≤ s.cfg.lmax) : (s.commitRequest.slot i).ConstantsOk s.cfg := by
  rw [State.commitRequest_slot_requested hi hl]
  exact s.slotConst_constantsOk i (h.qinAt_fits i)

/-! ### `CTXSET`, by the checks it makes -/

theorem ctxset_raises_invalidDegree {s : State} (h : s.degreeOk = false) : Raises .ctxset s .invalidDegree := by
  rcases execCtxset_cases s with ⟨-, e⟩ | ⟨hd, -⟩ | ⟨hd, -⟩
  · exact e
  all_goals exact nomatch h.symm.trans hd

theorem ctxset_raises_invalidBasisLength {s : State} (hd : s.degreeOk = true) (hl : s.lengthOk = false) :
    Raises .ctxset s .invalidBasisLength := by
  rcases execCtxset_cases s with ⟨hd', -⟩ | ⟨-, -, e⟩ | ⟨-, hl', -⟩
  · exact nomatch hd.symm.trans hd'
  · exact e
  · exact nomatch hl.symm.trans hl'

theorem ctxset_runsTo_commitRequest {s : State} (hd : s.degreeOk = true) (hl : s.lengthOk = true) :
    RunsTo .ctxset s s.commitRequest := by
  rcases execCtxset_cases s with ⟨hd', -⟩ | ⟨-, hl', -⟩ | ⟨-, -, e⟩
  · exact nomatch hd.symm.trans hd'
  · exact nomatch hl.symm.trans hl'
  · exact e

/-- `CLOGN` takes the logarithm of the requested degree (rule R170). -/
theorem State.commitRequest_clogn_eq {s : State} {e : Nat} (h : s.nreq.toNat = 2 ^ e) :
    s.commitRequest.clogn = BitVec.ofNat 64 e := by
  have he : e < 64 := (Nat.pow_lt_pow_iff_right (by decide)).1 (h ▸ s.nreq.isLt)
  have hR := Config.two_pow_32_le_R s.cfg
  rw [State.commitRequest_clogn, h, Nat.log2_two_pow, mkWord_of_lt (by omega)]

/-- Settles O37. -/
theorem ctxsetResult : Obligations.CtxsetResult := by
  refine ⟨rfl, fun s h => ⟨fun hbad => ?_, fun hpow hle hbad => ?_, fun e he hle h1 hl => ?_⟩⟩
  · refine ctxset_raises_invalidDegree (Bool.eq_false_iff.2 fun hd => ?_)
    obtain ⟨hpow, hle⟩ := s.degreeOk_iff.1 hd
    exact hbad.elim (absurd hpow) (Nat.not_lt.2 hle)
  · refine ctxset_raises_invalidBasisLength (s.degreeOk_iff.2 ⟨hpow, hle⟩) (Bool.eq_false_iff.2 fun hl => ?_)
    obtain ⟨h1, hmax⟩ := s.lengthOk_iff.1 hl
    omega
  · have hruns := ctxset_runsTo_commitRequest (s.degreeOk_iff.2 ⟨⟨e, he⟩, hle⟩) (s.lengthOk_iff.2 ⟨h1, hl⟩)
    refine ⟨_, s.commitRequest.draws, s.requestedSlots_length, ?_, fun i hi => ?_, fun i => s.commitRequest_slot_unused⟩
    · rw [← State.commitRequest_clogn_eq he]
      exact hruns
    · have hslot : s.requestedSlots.getD i Slot.zero = s.slotConst i (s.qinAt i) :=
        State.commitRequest_slot_requested hi hl
      rw [hslot]
      exact ⟨rfl, s.slotConst_constantsOk i (h.qinAt_fits i), s.slotConst_fits i (h.qinAt_fits i), rfl, rfl, rfl, rfl⟩

/-! ### What `CTXSET` reads (rule R170) -/

theorem State.requestedSlots_qin {s : State} {x : List Word} (h : ∀ i, i < s.lreq.toNat → x.getD i 0 = s.qinAt i) :
    State.requestedSlots { s with qin := x } = s.requestedSlots := by
  refine List.map_congr_left fun i _ => ?_
  by_cases hi : i < s.lreq.toNat
  · rw [if_pos hi, if_pos hi, ← h i hi]
    rfl
  · rw [if_neg hi, if_neg hi]

/-- Settles O38: the checks do not read `QIN`, and the commit reads it below `LREQ` only. -/
theorem ctxsetIgnoresUnrequestedModuli : Obligations.CtxsetIgnoresUnrequestedModuli := by
  intro s t x hx ht
  rcases execCtxset_cases s with ⟨hd, e⟩ | ⟨hd, hl, e⟩ | ⟨hd, hl, e⟩ <;>
    obtain rfl := Host.Outcome.next.inj (ht.symm.trans e)
  · exact ctxset_raises_invalidDegree hd
  · exact ctxset_raises_invalidBasisLength hd hl
  · have hruns : RunsTo .ctxset { s with qin := x } _ := ctxset_runsTo_commitRequest hd hl
    refine hruns.trans ?_
    rw [State.commitRequest, State.requestedSlots_qin hx]
    rfl

/-! ### The guards of `VALIDATE` (rule R172) -/

/-- Settles O39. -/
theorem validateGuards : Obligations.ValidateGuards := by
  refine ⟨rfl, fun s => ⟨fun hc => ?_, fun hc hv => ?_⟩⟩
  · rcases execValidate_cases s with ⟨-, e⟩ | ⟨hc', -⟩ | ⟨hc', -⟩ | ⟨hc', -⟩
    · exact e
    all_goals exact nomatch hc.symm.trans hc'
  · rcases execValidate_cases s with ⟨hc', -⟩ | ⟨-, -, e⟩ | ⟨-, hv', -⟩ | ⟨-, hv', -⟩
    · exact nomatch hc.symm.trans hc'
    · exact e
    all_goals exact nomatch hv.symm.trans hv'

/-! ### `CTXLD` (rule R179) -/

theorem encode_ctxld_toNat (slot : BitVec 6) : (encode (.ctxld slot)).toNat = 0x32 + slot.toNat * 2 ^ 10 := by
  rw [encode, encodeFields_toNat]
  rfl

/-- Settles O45. -/
theorem ctxldResult : Obligations.CtxldResult := by
  refine fun s slot => ⟨encode_ctxld_toNat slot, fun hge => ?_, fun hlt => ?_⟩ <;>
    rcases execCtxld_cases slot s with ⟨h, e⟩ | ⟨h, e⟩
  · exact e
  · omega
  · omega
  · exact e

end Sys2Proof.Machine
end

section
/-! The table fill of `VALIDATE` (rule R176): the powers of a root, in bit-reversed order. -/

namespace Sys2Proof.Machine

/-! ### Bit reversal is its own inverse (rule R11) -/

/-- The top bit of a number is the bottom bit of its reversal. -/
theorem brv_add_top {k b m : Nat} (hm : m < 2 ^ k) (hb : b < 2) : brv (k + 1) (b * 2 ^ k + m) = 2 * brv k m + b := by
  induction k generalizing m with
  | zero =>
    obtain rfl : m = 0 := by simpa using hm
    simpa [brv] using hb
  | succ k ih =>
    rw [pow_succ] at hm
    have hshift : b * 2 ^ (k + 1) = 2 * (b * 2 ^ k) := by ring
    have hmod : (2 * (b * 2 ^ k) + m) % 2 = m % 2 := by omega
    have hdiv : (2 * (b * 2 ^ k) + m) / 2 = b * 2 ^ k + m / 2 := by omega
    rw [hshift, brv, hmod, hdiv, ih (by omega), brv]
    ring

theorem brv_brv {k i : Nat} (hi : i < 2 ^ k) : brv k (brv k i) = i := by
  induction k generalizing i with
  | zero => exact (Nat.lt_one_iff.1 hi).symm
  | succ k ih =>
    rw [pow_succ] at hi
    rw [show brv (k + 1) i = i % 2 * 2 ^ k + brv k (i / 2) from rfl, brv_add_top (brv_lt k _) (Nat.mod_lt _ two_pos),
      ih (by omega)]
    exact Nat.div_add_mod i 2

theorem brv_ne_brv {k i j : Nat} (hi : i < 2 ^ k) (hj : j < 2 ^ k) (h : i ≠ j) : brv k i ≠ brv k j :=
  fun heq => h (by rw [← brv_brv hi, heq, brv_brv hj])

/-! ### One table -/

/-- The fill from index `j` on leaves the words of the earlier indices alone. -/
theorem fillTable_find_earlier (c : Config) (q km step : Nat) {k base count i j : Nat} (p : Nat) (r : Ram) (hi : i < j)
    (hlen : j + count ≤ 2 ^ k) :
    (fillTable c q km step k base count j p r).find (base + brv k i) = r.find (base + brv k i) := by
  induction count generalizing j p r with
  | zero => rfl
  | succ count ih =>
    have hne : brv k i ≠ brv k j := brv_ne_brv (by omega) (by omega) hi.ne
    rw [fillTable, ih _ _ (by omega) (by omega), Ram.find_write_other _ _ (by omega)]

/-- One Montgomery multiplication takes a power of the root to the next (rules R12, R176). -/
theorem redc_montForm_pow {c : Config} {q km : Nat} (h : MontContract c q km) (w j : Nat) :
    redc c q km (montForm c q (w ^ j) * montForm c q w) = montForm c q (w ^ (j + 1)) := by
  rw [redc_montForm (x := montForm c q (w ^ j)) h (h.modContract.mod_lt _)]
  calc montForm c q (w ^ j) * w ≡ w ^ j * c.R * w [MOD q] := (Nat.mod_modEq _ _).mul_right w
    _ = w ^ (j + 1) * c.R := by ring

/-- The fill from index `j` on, started with power `j` of the root `w`, writes power `i` at the reversal of `i`. -/
theorem fillTable_find {c : Config} {q km k base : Nat} (h : MontContract c q km) (w : Nat) {count i j : Nat} (r : Ram)
    (hlen : j + count ≤ 2 ^ k) (hle : j ≤ i) (hlt : i < j + count) :
    (fillTable c q km (montForm c q w) k base count j (montForm c q (w ^ j)) r).find (base + brv k i)
      = some (mkWord c (montForm c q (w ^ i))) := by
  induction count generalizing j r with
  | zero => omega
  | succ count ih =>
    rw [fillTable, redc_montForm_pow h]
    rcases hle.eq_or_lt with rfl | hlt'
    · rw [fillTable_find_earlier _ _ _ _ _ _ (Nat.lt_succ_self j) (by omega), Ram.find_write_self]
    · exact ih _ (by omega) hlt' (by omega)

/-! ### The tables of consecutive slots -/

/-- The words of slot `i` stand from `base i` on. `r` is `r₀` with the tables of the slots below `m` filled: `2^e` words
each, the powers of the root of slot `i` in Montgomery form for its modulus. -/
structure Ram.Filled (k : Config) (e : Nat) (base modulus root : Nat → Nat) (m : Nat) (r₀ r : Ram) : Prop where
  table : ∀ i, i < m → ∀ j, j < 2 ^ e →
    r.find (base i + brv e j) = some (mkWord k (montForm k (modulus i) (root i ^ j)))
  other : ∀ x, (∀ i, i < m → x < base i ∨ base i + 2 ^ e ≤ x) → r.find x = r₀.find x

section Filled

variable {k : Config} {e m : Nat} {base modulus root : Nat → Nat} {r₀ r : Ram}

theorem Ram.Filled.zero : Ram.Filled k e base modulus root 0 r r where
  table _ hi := absurd hi (Nat.not_lt_zero _)
  other _ _ := rfl

variable (h : Ram.Filled k e base modulus root m r₀ r)
include h

theorem Ram.Filled.succ {km : Nat} (hbase : ∀ i, i < m → base i + 2 ^ e ≤ base m)
    (hmont : MontContract k (modulus m) km) :
    Ram.Filled k e base modulus root (m + 1) r₀ (fillTable k (modulus m) km (montForm k (modulus m) (root m)) e (base m)
      (2 ^ e) 0 (montForm k (modulus m) 1) r) where
  table i hi j hj := by
    rcases Nat.lt_succ_iff_lt_or_eq.1 hi with hlt | rfl
    · have hb := hbase i hlt
      have hrev := brv_lt e j
      rw [fillTable_find_other _ _ _ _ _ _ _ _ _ _ (.inl (by omega))]
      exact h.table i hlt j hj
    · rw [← pow_zero (root i)]
      exact fillTable_find hmont _ _ (by omega) (Nat.zero_le j) (by omega)
  other x hx := by
    rw [fillTable_find_other _ _ _ _ _ _ _ _ _ _ (hx m (Nat.lt_succ_self m))]
    exact h.other x fun i hi => hx i (by omega)

/-- Index `j` of a filled table holds the power whose exponent is the reversal of `j` (rule R176). -/
theorem Ram.Filled.find {i j : Nat} (hi : i < m) (hj : j < 2 ^ e) :
    r.find (base i + j) = some (mkWord k (montForm k (modulus i) (root i ^ brv e j))) := by
  have htable := h.table i hi (brv e j) (brv_lt e j)
  rwa [brv_brv hj] at htable

end Filled

/-! ### Where the tables stand (rule R62) -/

/-- A slot's array ends before the next slot's begins. -/
theorem slotArray_le_of_lt {nmax i i' n : Nat} (h : i < i') (hn : n ≤ nmax) : i * nmax + n ≤ i' * nmax := by
  calc i * nmax + n ≤ i * nmax + nmax := Nat.add_le_add_left hn _
    _ = (i + 1) * nmax := by ring
    _ ≤ i' * nmax := Nat.mul_le_mul_right _ h

/-- A word of another slot, or of index `n` or more, is outside the first `n` words of slot `i'`. -/
theorem slotWord_outside {nmax i i' j n : Nat} (hn : n ≤ nmax) (hj : j < nmax) (h : i ≠ i' ∨ n ≤ j) :
    i * nmax + j < i' * nmax ∨ i' * nmax + n ≤ i * nmax + j := by
  rcases Nat.lt_trichotomy i i' with hlt | rfl | hlt
  · have := slotArray_le_of_lt (n := j + 1) hlt hj
    omega
  · have := h.resolve_left (· rfl)
    omega
  · have := slotArray_le_of_lt hlt hn
    omega

end Sys2Proof.Machine
end

section
/-! `VALIDATE` on an unvalidated context: the check (O40), and the roots and tables it writes (O41). -/

namespace Sys2Proof.Machine

/-! ### The check (rule R173) -/

theorem State.firstBadSlot_eq_some_iff {s : State} {i : Nat} : s.firstBadSlot = some i ↔
    i < s.cl.toNat ∧ ¬ GoodModulus s.cfg s.cn.toNat (s.slot i).cq.toNat
      ∧ ∀ j, j < i → GoodModulus s.cfg s.cn.toNat (s.slot j).cq.toNat := by
  simp only [State.firstBadSlot, List.find?_range_eq_some, List.mem_range, Bool.not_eq_true', Bool.not_not,
    ← Bool.not_eq_true, modulusOk_iff]
  tauto

theorem State.firstBadSlot_eq_none_iff {s : State} : s.firstBadSlot = none ↔
    ∀ i, i < s.cl.toNat → GoodModulus s.cfg s.cn.toNat (s.slot i).cq.toNat := by
  simp [State.firstBadSlot, modulusOk_iff]

/-- Settles O40. -/
theorem validateRejects : Obligations.ValidateRejects := by
  intro s i h hc hv hi hgood hbad
  have hfirst : s.firstBadSlot = some i := State.firstBadSlot_eq_some_iff.2 ⟨hi, hbad, hgood⟩
  rcases execValidate_cases s with ⟨hc', -⟩ | ⟨-, hv', -⟩ | ⟨-, -, j, hj, e⟩ | ⟨-, -, hnone, -⟩
  · exact nomatch hc.symm.trans hc'
  · exact nomatch hv.symm.trans hv'
  · obtain rfl := Option.some.inj (hfirst.symm.trans hj)
    have hR := Config.two_pow_32_le_R s.cfg
    have hmax := h.lt_lmax hc hi
    obtain ⟨-, hl64, -⟩ := s.cfg.legal
    rw [← mkWord_of_lt (c := s.cfg) (by omega)]
    exact e
  · exact nomatch hfirst.symm.trans hnone

/-! ### What a passed check gives for each slot -/

/-- A good modulus with the constants of rule R171 meets the contract of the Montgomery multiplication (rule R120). -/
theorem Slot.ConstantsOk.montContract {k : Config} {n : Nat} {v : Slot} (h : v.ConstantsOk k) (hmc : fits k v.mc)
    (hgood : GoodModulus k n v.cq.toNat) (hn : 1 ≤ n) : MontContract k v.cq.toNat v.mc.toNat := by
  have hodd := hgood.odd hn
  have hq3 := hgood.three_le hn
  have hR := Config.one_lt_R k
  have hmul : (v.mc.toNat * v.cq.toNat + 1) % k.R = 0 := h.montgomery hodd (by omega)
  have hpos : v.mc.toNat ≠ 0 := by
    intro h0
    rw [h0, Nat.zero_mul, Nat.zero_add, Nat.mod_eq_of_lt hR] at hmul
    contradiction
  have hmc : v.mc.toNat < k.R := hmc
  refine ⟨hodd, hq3, hgood.2.2, k.R - v.mc.toNat, by omega, ?_, ?_⟩
  · have hadd : v.cq.toNat * (k.R - v.mc.toNat) + v.mc.toNat * v.cq.toNat ≡ 1 + v.mc.toNat * v.cq.toNat [MOD k.R] :=
      calc v.cq.toNat * (k.R - v.mc.toNat) + v.mc.toNat * v.cq.toNat
          = v.cq.toNat * k.R := by rw [Nat.mul_comm v.mc.toNat, ← Nat.mul_add, Nat.sub_add_cancel hmc.le]
        _ ≡ 0 [MOD k.R] := by simp [Nat.ModEq]
        _ ≡ v.mc.toNat * v.cq.toNat + 1 [MOD k.R] := hmul.symm
        _ = 1 + v.mc.toNat * v.cq.toNat := Nat.add_comm _ _
    exact Eq.trans (Nat.ModEq.add_right_cancel' _ hadd) (Nat.mod_eq_of_lt hR)
  · rw [Nat.sub_sub_self hmc.le, Nat.mod_eq_of_lt hmc]

/-- The roots of a slot are no constants of rule R171. -/
theorem Slot.ConstantsOk.withRoots {k : Config} {v : Slot} (h : v.ConstantsOk k) (n : Nat) :
    (v.withRoots k n).ConstantsOk k := { h with }

/-- A configured state that `VALIDATE` accepts: every modulus passes the check of rule R173. -/
structure State.Acceptable (s : State) : Prop where
  inv : s.Inv
  context : s.ContextOk
  configured : s.configured = true
  good : ∀ i, i < s.cl.toNat → GoodModulus s.cfg s.cn.toNat (s.slot i).cq.toNat

theorem State.Inv.one_le_cn {s : State} (h : s.Inv) (hc : s.configured = true) : 1 ≤ s.cn.toNat :=
  (h.degree hc).1 ▸ Nat.one_le_two_pow

theorem State.Acceptable.montContract {s : State} (h : s.Acceptable) {i : Nat} (hi : i < s.cl.toNat) :
    MontContract s.cfg (s.slot i).cq.toNat (s.slot i).mc.toNat :=
  (h.context.constants h.configured i hi).montContract (h.inv.slot_fits i _ (by simp [Slot.words])) (h.good i hi)
    (h.inv.one_le_cn h.configured)

/-! ### The precompute of one slot (rules R174 to R177) -/

theorem State.slot_set_self (s : State) {i : Nat} (v : Slot) (h : i < s.slots.length) :
    (s.slots.set i v).getD i Slot.zero = v := by
  simp [List.getD_eq_getElem?_getD, h]

theorem State.precompute_slots (t : State) (i : Nat) :
    (t.precompute i).slots = t.slots.set i ((t.slot i).withRoots t.cfg t.cn.toNat) := rfl

theorem State.precompute_twf (t : State) (i : Nat) : (t.precompute i).twf
    = fillTable t.cfg (t.slot i).cq.toNat (t.slot i).mc.toNat ((t.slot i).withRoots t.cfg t.cn.toNat).psi.toNat
      t.clogn.toNat (twfAddr t.cfg i 0) t.cn.toNat 0 (montForm t.cfg (t.slot i).cq.toNat 1) t.twf := rfl

theorem State.precompute_twi (t : State) (i : Nat) : (t.precompute i).twi
    = fillTable t.cfg (t.slot i).cq.toNat (t.slot i).mc.toNat ((t.slot i).withRoots t.cfg t.cn.toNat).psiinv.toNat
      t.clogn.toNat (twiAddr t.cfg i 0) t.cn.toNat 0 (montForm t.cfg (t.slot i).cq.toNat 1) t.twi := rfl

/-- The twiddle RAM `r`, which was `r₀`, has the tables of the slots below `m` of `s`: for each of them, the powers of
the root that `w` gives for its modulus. -/
def State.TableFilled (s : State) (addr : Config → Nat → Nat → Nat) (w : Nat → Nat → Nat) (m : Nat)
    (r₀ r : Ram) : Prop :=
  r₀.Filled s.cfg s.clogn.toNat (fun i => addr s.cfg i 0) (fun i => (s.slot i).cq.toNat)
    (fun i => w (s.slot i).cq.toNat s.cn.toNat) m r

theorem State.Acceptable.tableFilled_succ {s : State} (h : s.Acceptable) {addr : Config → Nat → Nat → Nat}
    {w : Nat → Nat → Nat} {m : Nat} {r₀ r : Ram} (hfill : s.TableFilled addr w m r₀ r) (hm : m < s.cl.toNat)
    (haddr : ∀ i, i < m → addr s.cfg i 0 + s.cn.toNat ≤ addr s.cfg m 0) :
    s.TableFilled addr w (m + 1) r₀ (fillTable s.cfg (s.slot m).cq.toNat (s.slot m).mc.toNat
      (montForm s.cfg (s.slot m).cq.toNat (w (s.slot m).cq.toNat s.cn.toNat)) s.clogn.toNat
      (addr s.cfg m 0) s.cn.toNat 0 (montForm s.cfg (s.slot m).cq.toNat 1) r) := by
  obtain ⟨hsize, -⟩ := h.inv.degree h.configured
  have hsucc := Ram.Filled.succ hfill (fun i hi => hsize ▸ haddr i hi) (h.montContract hm)
  rwa [← hsize] at hsucc

/-! ### The precompute of the slots in turn (rule R178) -/

/-- `t` is `s` after the precompute of the slots below `m`. -/
structure State.Precomputed (s : State) (m : Nat) (t : State) : Prop where
  frame : ∃ sl f g, t = { s with slots := sl, twf := f, twi := g } ∧ sl.length = s.slots.length
  done : ∀ i, i < m → t.slot i = (s.slot i).withRoots s.cfg s.cn.toNat
  later : ∀ i, m ≤ i → t.slot i = s.slot i
  twf : s.TableFilled twfAddr rootOfUnity m s.twf t.twf
  twi : s.TableFilled twiAddr rootOfUnityInv m s.twi t.twi

theorem State.Precomputed.zero (s : State) : s.Precomputed 0 s where
  frame := ⟨_, _, _, rfl, rfl⟩
  done _ hi := absurd hi (Nat.not_lt_zero _)
  later _ _ := rfl
  twf := .zero
  twi := .zero

theorem State.Precomputed.succ {s t : State} {m : Nat} (ht : s.Precomputed m t) (h : s.Acceptable)
    (hm : m < s.cl.toNat) : s.Precomputed (m + 1) (t.precompute m) := by
  obtain ⟨⟨sl, f, g, rfl, hlen⟩, hdone, hlater, htwf, htwi⟩ := ht
  have hslot := hlater m le_rfl
  have hgood := h.good m hm
  obtain ⟨-, hcn⟩ := h.inv.degree h.configured
  have hmlen : m < sl.length := by
    have := h.inv.lt_lmax h.configured hm
    rwa [hlen, h.inv.slotsLength]
  refine ⟨⟨_, _, _, rfl, ?_⟩, fun i hi => ?_, fun i hi => ?_, ?_, ?_⟩
  · exact (List.length_set ..).trans hlen
  · rw [State.slot, State.precompute_slots, hslot]
    rcases Nat.lt_succ_iff_lt_or_eq.1 hi with hlt | rfl
    · exact (State.slot_set_other _ _ hlt.ne').trans (hdone i hlt)
    · exact State.slot_set_self _ _ hmlen
  · rw [State.slot, State.precompute_slots]
    exact (State.slot_set_other _ _ (by omega)).trans (hlater i (by omega))
  · rw [State.precompute_twf, hslot, Slot.withRoots_psi_toNat hgood]
    refine h.tableFilled_succ htwf hm fun i hi => ?_
    have := slotArray_le_of_lt hi hcn
    simp only [twfAddr]
    omega
  · rw [State.precompute_twi, hslot, Slot.withRoots_psiinv_toNat hgood]
    refine h.tableFilled_succ htwi hm fun i hi => ?_
    have := slotArray_le_of_lt hi hcn
    simp only [twiAddr]
    omega

theorem State.Acceptable.precomputed {s : State} (h : s.Acceptable) (m : Nat) (hm : m ≤ s.cl.toNat) :
    s.Precomputed m ((List.range m).foldl State.precompute s) := by
  induction m with
  | zero => exact .zero s
  | succ m ih =>
    rw [List.range_succ, List.foldl_append]
    exact (ih (by omega)).succ h hm

/-! ### The state `VALIDATE` answers -/

theorem twfAddr_eq (k : Config) (i j : Nat) : twfAddr k i j = twfAddr k i 0 + j := rfl

theorem twiAddr_eq (k : Config) (i j : Nat) : twiAddr k i j = twiAddr k i 0 + j := rfl

theorem State.precomputeAll_frame (s : State) :
    s.precomputeAll.cfg = s.cfg ∧ s.precomputeAll.cn = s.cn ∧ s.precomputeAll.clogn = s.clogn
      ∧ s.precomputeAll.epoch = s.epoch ∧ s.precomputeAll.cl = s.cl := by
  obtain ⟨v, f, g, e⟩ := s.precomputeAll_cases
  rw [e]
  exact ⟨rfl, rfl, rfl, rfl, rfl⟩

section Acceptable

variable {s : State} (h : s.Acceptable)
include h

theorem State.Acceptable.precomputeAll_slot {i : Nat} (hi : i < s.cl.toNat) :
    s.precomputeAll.slot i = (s.slot i).withRoots s.cfg s.cn.toNat :=
  (h.precomputed _ le_rfl).done i hi

theorem State.Acceptable.precomputeAll_slot_other {i : Nat} (hi : s.cl.toNat ≤ i) : s.precomputeAll.slot i = s.slot i :=
  (h.precomputed _ le_rfl).later i hi

theorem State.Acceptable.precomputeAll_rootsOk {i : Nat} (hi : i < s.cl.toNat) :
    (s.precomputeAll.slot i).RootsOk s.cfg s.cn.toNat := by
  rw [h.precomputeAll_slot hi]
  exact Slot.withRoots_rootsOk (h.good i hi) (h.inv.one_le_cn h.configured)

/-- The word a filled table holds (rule R176). -/
theorem State.Acceptable.table_word {addr : Config → Nat → Nat → Nat} {w : Nat → Nat → Nat} {r₀ r : Ram}
    (hfill : s.TableFilled addr w s.cl.toNat r₀ r) {i j : Nat} (hi : i < s.cl.toNat) (hj : j < s.cn.toNat) (t : State) :
    (t.ramWord r (addr s.cfg i 0 + j)).toNat
      = w (s.slot i).cq.toNat s.cn.toNat ^ brv s.clogn.toNat j * s.cfg.R % (s.slot i).cq.toNat := by
  obtain ⟨hsize, -⟩ := h.inv.degree h.configured
  rw [State.ramWord_of_find (Ram.Filled.find hfill hi (hsize ▸ hj))]
  exact mkWord_toNat_of_lt ((h.good i hi).modContract.mod_lt_R _)

/-- A word of another slot, or of index `CN` or more, is not written (rule R178). -/
theorem State.Acceptable.table_other {addr : Config → Nat → Nat → Nat} {w : Nat → Nat → Nat} {r₀ r : Ram}
    (hfill : s.TableFilled addr w s.cl.toNat r₀ r) {x : Nat}
    (hx : ∀ i, i < s.cl.toNat → x < addr s.cfg i 0 ∨ addr s.cfg i 0 + s.cn.toNat ≤ x) : r.find x = r₀.find x := by
  obtain ⟨hsize, -⟩ := h.inv.degree h.configured
  exact Ram.Filled.other hfill x fun i hi => hsize ▸ hx i hi

theorem State.Acceptable.precomputeAll_tablesOk {i : Nat} (hi : i < s.cl.toNat) : s.precomputeAll.TablesOk i := by
  have hgood := h.good i hi
  have hn := h.inv.one_le_cn h.configured
  have hpre := h.precomputed _ le_rfl
  obtain ⟨hcfg, hcn, hclogn, -⟩ := s.precomputeAll_frame
  intro j hj
  rw [hcn] at hj
  rw [State.twfWord, State.twiWord, hclogn, hcn, hcfg, twfAddr_eq, twiAddr_eq, h.precomputeAll_slot hi,
    Slot.root_withRoots hgood hn, Slot.rootInv_withRoots hgood hn]
  exact ⟨h.table_word hpre.twf hi hj _, h.table_word hpre.twi hi hj _⟩

theorem State.Acceptable.precomputeAll_words_other {i j : Nat} (hj : j < s.cfg.nmax)
    (hij : ¬ (i < s.cl.toNat ∧ j < s.cn.toNat)) :
    s.precomputeAll.twfWord i j = s.twfWord i j ∧ s.precomputeAll.twiWord i j = s.twiWord i j := by
  obtain ⟨-, hcn⟩ := h.inv.degree h.configured
  have hpre := h.precomputed _ le_rfl
  have hout : ∀ i', i' < s.cl.toNat →
      i * s.cfg.nmax + j < i' * s.cfg.nmax ∨ i' * s.cfg.nmax + s.cn.toNat ≤ i * s.cfg.nmax + j :=
    fun i' hi' => slotWord_outside hcn hj (by omega)
  obtain ⟨hcfg, -, -, hepoch, -⟩ := s.precomputeAll_frame
  rw [State.twfWord, State.twiWord, hcfg]
  refine ⟨State.ramWord_congr hcfg hepoch (h.table_other hpre.twf fun i' hi' => ?_),
    State.ramWord_congr hcfg hepoch (h.table_other hpre.twi fun i' hi' => ?_)⟩
  all_goals
    have := hout i' hi'
    simp only [twfAddr, twiAddr]
    omega

end Acceptable

theorem validate_runsTo_precomputeAll {s : State} (hc : s.configured = true) (hv : s.validated = false)
    (hgood : ∀ i, i < s.cl.toNat → GoodModulus s.cfg s.cn.toNat (s.slot i).cq.toNat) :
    RunsTo .validate s s.precomputeAll := by
  have hnone := State.firstBadSlot_eq_none_iff.2 hgood
  rcases execValidate_cases s with ⟨hc', -⟩ | ⟨-, hv', -⟩ | ⟨-, -, j, hj, -⟩ | ⟨-, -, -, e⟩
  · exact nomatch hc.symm.trans hc'
  · exact nomatch hv.symm.trans hv'
  · exact nomatch hnone.symm.trans hj
  · exact e

/-- Settles O41. -/
theorem validateAccepts : Obligations.ValidateAccepts := by
  intro s hinv hctx hc hv hgood
  have h : s.Acceptable := ⟨hinv, hctx, hc, hgood⟩
  obtain ⟨sl, f, g, e⟩ := s.precomputeAll_cases
  refine ⟨s.precomputeAll, sl, f, g, e, validate_runsTo_precomputeAll hc hv hgood, fun i hi => ?_,
    fun i => h.precomputeAll_slot_other, fun i j _ hj hij => h.precomputeAll_words_other hj hij⟩
  refine ⟨h.precomputeAll_rootsOk hi, h.precomputeAll_tablesOk hi, ?_⟩
  rw [h.precomputeAll_slot hi]
  rfl

end Sys2Proof.Machine
end

section
/-! Every step keeps the context invariant (O59). -/

namespace Sys2Proof.Machine

/-- The context invariant speaks of the committed context and the parameters only. -/
theorem State.ContextOk.of_sameContext {s t : State} (h : s.ContextOk) (hcfg : t.cfg = s.cfg)
    (hsame : s.SameContext t) : t.ContextOk := by
  obtain ⟨hvalidated, hconfigured, hcn, hclogn, hcl, hslots, htwf, htwi, hepoch⟩ := hsame
  have hslot : ∀ i, t.slot i = s.slot i := fun i => congrArg (List.getD · i Slot.zero) hslots
  have hword : ∀ (r : Ram) (a : Nat), t.ramWord r a = s.ramWord r a := fun r a => State.ramWord_congr hcfg hepoch rfl
  constructor
  · rw [hconfigured, hcl, hcfg]
    simpa only [hslot] using h.constants
  · rw [hvalidated, hcl, hcfg, hcn]
    simpa only [hslot] using h.roots
  · rw [hvalidated, hcl]
    simpa only [State.TablesOk, State.twfWord, State.twiWord, hslot, hword, hcfg, hcn, hclogn, htwf, htwi]
      using h.tables

/-! ### `CTXSET` and `VALIDATE` -/

/-- A commit clears `VALIDATED`, so only the constants are asked for (rules R170, R171). -/
theorem State.Inv.commitRequest_contextOk {s : State} (h : s.Inv) (hl : s.lengthOk = true) :
    s.commitRequest.ContextOk where
  constants _ _ hi := h.commitRequest_constantsOk hi (s.lengthOk_iff.1 hl).2
  roots hv := nomatch hv
  tables hv := nomatch hv

theorem State.Acceptable.precomputeAll_contextOk {s : State} (h : s.Acceptable) : s.precomputeAll.ContextOk := by
  obtain ⟨hcfg, hcn, -, -, hcl⟩ := s.precomputeAll_frame
  constructor <;> rw [hcl]
  · intro _ i hi
    rw [hcfg, h.precomputeAll_slot hi]
    exact (h.context.constants h.configured i hi).withRoots _
  · rw [hcfg, hcn]
    exact fun _ i hi => h.precomputeAll_rootsOk hi
  · exact fun _ i hi => h.precomputeAll_tablesOk hi

theorem State.ContextOk.execCtxset {s t : State} (h : s.ContextOk) (hinv : s.Inv) (ht : execCtxset s = .next t) :
    t.ContextOk := by
  rcases execCtxset_cases s with ⟨-, e⟩ | ⟨-, -, e⟩ | ⟨-, hl, e⟩ <;>
    obtain rfl := Host.Outcome.next.inj (ht.symm.trans e)
  · exact h.of_sameContext rfl (.refl s)
  · exact h.of_sameContext rfl (.refl s)
  · exact (hinv.commitRequest_contextOk hl).of_sameContext rfl (.refl _)

theorem State.ContextOk.execValidate {s t : State} (h : s.ContextOk) (hinv : s.Inv) (ht : execValidate s = .next t) :
    t.ContextOk := by
  rcases execValidate_cases s with ⟨-, e⟩ | ⟨-, -, e⟩ | ⟨-, -, i, -, e⟩ | ⟨hc, -, hnone, e⟩ <;>
    obtain rfl := Host.Outcome.next.inj (ht.symm.trans e)
  · exact h.of_sameContext rfl (.refl s)
  · exact h.of_sameContext rfl (.refl s)
  · exact h.of_sameContext rfl (.refl s)
  · have hacc : s.Acceptable := ⟨hinv, h, hc, State.firstBadSlot_eq_none_iff.1 hnone⟩
    exact hacc.precomputeAll_contextOk.of_sameContext rfl (.refl _)

/-! ### Every command, and every step -/

theorem State.ContextOk.exec {s t : State} (h : s.ContextOk) (hinv : s.Inv) {i : Instr} (ht : exec i s = .next t) :
    t.ContextOk := by
  by_cases hset : i = .ctxset
  · subst hset
    exact h.execCtxset hinv ht
  by_cases hval : i = .validate
  · subst hval
    exact h.execValidate hinv ht
  · exact h.of_sameContext (exec_cfg ht) (exec_sameContext hset hval ht)

theorem State.ContextOk.unitStep {s t : State} (h : s.ContextOk) (hinv : s.Inv) (ht : unitStep s = .next t) :
    t.ContextOk := by
  rcases unitStep_cases s with ⟨-, e⟩ | ⟨-, i, -, e⟩ | ⟨-, -, -, e⟩ <;> rw [e] at ht
  · exact Host.Outcome.next.inj ht ▸ h
  · exact h.exec hinv ht
  · obtain rfl := Host.Outcome.next.inj ht
    exact h.of_sameContext rfl (.refl s)

theorem State.ContextOk.setEvents {s : State} (h : s.ContextOk) (es : List PortEvent) : (s.setEvents es).ContextOk :=
  h.of_sameContext rfl (.refl s)

theorem State.assertReset_contextOk (s : State) : s.assertReset.ContextOk where
  constants h := nomatch h
  roots h := nomatch h
  tables h := nomatch h

/-- Settles O59: the host cannot write the context, `CTXSET` and `VALIDATE` write one that meets the invariant, and
after reset there is none. -/
theorem stepKeepsContext : Obligations.StepKeepsContext := by
  intro s t hinv h ht
  rcases step_cases s with ⟨-, e⟩ | ⟨addr, es, -, e⟩ | ⟨addr, v, es, -, e⟩ | ⟨es, -, e⟩
  · exact (h.setEvents _).unitStep (hinv.setEvents _) (e.symm.trans ht)
  all_goals obtain rfl := Host.Outcome.next.inj (ht.symm.trans e)
  · exact (h.setEvents es).of_sameContext (State.hostRead_cfg ..) (State.hostRead_sameContext ..)
  · exact (h.setEvents es).of_sameContext (State.hostWrite_cfg ..) (State.hostWrite_sameContext ..)
  · exact State.assertReset_contextOk _

end Sys2Proof.Machine
end

section
/-! What a transform command does to the state: its checks (O47), the words it writes and leaves alone (O48), the free
values it draws (O50), and the slots in turn (O51). -/

namespace Sys2Proof.Machine

/-! ### Consecutive words of a RAM -/

theorem State.ramWord_writeList_of_outside (s : State) (r : Ram) {a x : Nat} {ws : List Word}
    (h : x < a ∨ a + ws.length ≤ x) : s.ramWord (r.writeList a ws) x = s.ramWord r x := by
  refine State.ramWord_congr rfl rfl ?_
  rw [Ram.find_writeList, dif_neg (by omega)]

theorem State.ramWord_writeList_of_inside (s : State) (r : Ram) (a : Nat) {j : Nat} {ws : List Word}
    (h : j < ws.length) : s.ramWord (r.writeList a ws) (a + j) = ws[j] := by
  refine State.ramWord_of_find ?_
  rw [Ram.find_writeList, dif_pos (by omega)]
  simp

theorem polyAddr_eq (k : Config) (b i j : Nat) : polyAddr k b i j = polyAddr k b i 0 + j := rfl

/-- A word of slot `x` is outside the array of another slot `y` of the same buffer (rules R62, R208). -/
theorem polyAddr_outside {k : Config} {x y j n : Nat} (b : Nat) (hn : n ≤ k.nmax) (hj : j < n) (h : x ≠ y) :
    polyAddr k b x j < polyAddr k b y 0 ∨ polyAddr k b y 0 + n ≤ polyAddr k b x j := by
  have := slotWord_outside hn (hj.trans_le hn) (.inl h)
  simp only [polyAddr]
  omega

/-! ### The coefficients of a slot -/

theorem State.coeffs_getD (s : State) (buf : BitVec 4) (x : Nat) {j : Nat} (hj : j < s.cn.toNat) :
    (s.coeffs buf x).getD j 0 = (s.polyWord buf.toNat x j).toNat := by
  simp [State.coeffs, State.polyArray, List.getD_eq_getElem?_getD, hj]

theorem State.coeffsOk_iff (s : State) (buf : BitVec 4) (x : Nat) :
    s.coeffsOk buf x = true ↔ s.CoeffsBelow buf.toNat x := by
  simp [State.coeffsOk, State.coeffs, State.polyArray, State.CoeffsBelow]

theorem State.CoeffsBelow.forall_mem {s : State} {buf : BitVec 4} {x : Nat} (h : s.CoeffsBelow buf.toNat x) :
    ∀ y ∈ s.coeffs buf x, y < (s.slot x).cq.toNat := by
  simpa [State.coeffs, State.polyArray, State.CoeffsBelow] using h

/-! ### One slot of a transform command (rules R201, R203, R206) -/

/-- What the two transforms of a slot have in common: they keep the length of the array, and besides the array they
read neither `POLY`, nor the count of draws, nor the record of the last completion (rules R209, R220). -/
structure SlotTransform (tr : State → Nat → List Nat → List Nat) : Prop where
  length : ∀ s x a, (tr s x a).length = a.length
  reads : ∀ (s : State) (p : Ram) (n : Nat), tr { s with poly := p, draws := n } = tr s
  finished : ∀ (s : State) (e : ErrCode), tr (s.finished e) = tr s

theorem forwardSlot_slotTransform : SlotTransform State.forwardSlot :=
  ⟨State.forwardSlot_length, fun _ _ _ => rfl, fun _ _ => rfl⟩

theorem inverseSlot_slotTransform : SlotTransform State.inverseSlot :=
  ⟨State.inverseSlot_length, fun _ _ _ => rfl, fun _ _ => rfl⟩

section OneSlot

variable (tr : State → Nat → List Nat → List Nat) (buf : BitVec 4) (s : State) (x : Nat)

/-- The words that one slot of a transform command writes: the transform of its array, or free values. -/
def State.slotWords : List Word :=
  if s.coeffsOk buf x then (tr s x (s.coeffs buf x)).map (mkWord s.cfg) else (List.range s.cn.toNat).map s.anyW

/-- How many free values it draws. -/
def State.slotDraws : Nat := if s.coeffsOk buf x then 0 else s.cn.toNat

theorem State.transformSlot_eq : State.transformSlot tr buf s x
    = { s with
      poly := s.poly.writeList (polyAddr s.cfg buf.toNat x 0) (s.slotWords tr buf x)
      draws := s.draws + s.slotDraws buf x } := by
  unfold State.transformSlot State.slotWords State.slotDraws
  split <;> rfl

variable {tr buf s x}

theorem State.slotWords_length (htr : SlotTransform tr) : (s.slotWords tr buf x).length = s.cn.toNat := by
  unfold State.slotWords
  split <;> simp [htr.length, State.coeffs_length]

theorem State.slotWords_of_coeffsBelow (h : s.CoeffsBelow buf.toNat x) :
    s.slotWords tr buf x = (tr s x (s.coeffs buf x)).map (mkWord s.cfg) :=
  if_pos ((s.coeffsOk_iff buf x).2 h)

theorem State.slotWords_of_not_coeffsBelow (h : ¬ s.CoeffsBelow buf.toNat x) :
    s.slotWords tr buf x = (List.range s.cn.toNat).map s.anyW :=
  if_neg (mt (s.coeffsOk_iff buf x).1 h)

theorem State.slotDraws_of_not_coeffsBelow (h : ¬ s.CoeffsBelow buf.toNat x) : s.slotDraws buf x = s.cn.toNat :=
  if_neg (mt (s.coeffsOk_iff buf x).1 h)

@[simp] theorem State.transformSlot_cn : (State.transformSlot tr buf s x).cn = s.cn := by rw [State.transformSlot_eq]

theorem State.transformSlot_slot (y : Nat) : (State.transformSlot tr buf s x).slot y = s.slot y := by
  rw [State.transformSlot_eq]
  rfl

theorem SlotTransform.transformSlot (htr : SlotTransform tr) : tr (State.transformSlot tr buf s x) = tr s := by
  rw [State.transformSlot_eq, htr.reads]

end OneSlot

/-! ### The selected slots in turn (rules R200, R209) -/

section Slots

variable {tr : State → Nat → List Nat → List Nat} (htr : SlotTransform tr) {buf : BitVec 4}
include htr

/-- One slot leaves the words outside its array alone. -/
theorem State.transformSlot_frame {s : State} {x a : Nat}
    (ha : a < polyAddr s.cfg buf.toNat x 0 ∨ polyAddr s.cfg buf.toNat x 0 + s.cn.toNat ≤ a) :
    (State.transformSlot tr buf s x).ramWord (State.transformSlot tr buf s x).poly a = s.ramWord s.poly a := by
  rw [State.transformSlot_eq]
  exact s.ramWord_writeList_of_outside s.poly (by rwa [State.slotWords_length htr])

/-- A slot does not touch the array of another (rule R208). -/
theorem State.transformSlot_polyWord_other {s : State} {x y j : Nat} (hn : s.cn.toNat ≤ s.cfg.nmax)
    (hj : j < s.cn.toNat) (hxy : x ≠ y) :
    (State.transformSlot tr buf s y).polyWord buf.toNat x j = s.polyWord buf.toNat x j := by
  rw [State.polyWord, State.transformSlot_cfg]
  exact State.transformSlot_frame htr (polyAddr_outside _ hn hj hxy)

/-- The array of a slot whose input is in range becomes its transform. -/
theorem State.transformSlot_polyWord_self {s : State} {x j : Nat} (hbelow : s.CoeffsBelow buf.toNat x)
    (hj : j < s.cn.toNat) :
    (State.transformSlot tr buf s x).polyWord buf.toNat x j = mkWord s.cfg ((tr s x (s.coeffs buf x)).getD j 0) := by
  have hlen := State.slotWords_length htr (buf := buf) (s := s) (x := x)
  have hj' : j < (tr s x (s.coeffs buf x)).length := by rwa [htr.length, State.coeffs_length]
  rw [State.transformSlot_eq]
  refine (s.ramWord_writeList_of_inside s.poly _ (hlen ▸ hj)).trans ?_
  simp [State.slotWords_of_coeffsBelow hbelow, List.getD_eq_getElem?_getD, hj']

/-- The words outside the arrays of the slots `l` are left alone. -/
theorem foldl_transformSlot_frame {l : List Nat} {s : State} {a : Nat}
    (ha : ∀ x ∈ l, a < polyAddr s.cfg buf.toNat x 0 ∨ polyAddr s.cfg buf.toNat x 0 + s.cn.toNat ≤ a) :
    (l.foldl (State.transformSlot tr buf) s).ramWord (l.foldl (State.transformSlot tr buf) s).poly a
      = s.ramWord s.poly a := by
  induction l generalizing s with
  | nil => rfl
  | cons x l ih =>
    obtain ⟨hx, hl⟩ := List.forall_mem_cons.1 ha
    rw [List.foldl_cons, ih (by simpa using hl), State.transformSlot_frame htr hx]

theorem foldl_transformSlot_polyWord_other {l : List Nat} {s : State} {x j : Nat} (hn : s.cn.toNat ≤ s.cfg.nmax)
    (hx : x ∉ l) (hj : j < s.cn.toNat) :
    (l.foldl (State.transformSlot tr buf) s).polyWord buf.toNat x j = s.polyWord buf.toNat x j := by
  obtain ⟨p, n, hfold⟩ := foldl_transformSlot_cases tr buf l s
  have hframe := foldl_transformSlot_frame htr (l := l) (s := s) (a := polyAddr s.cfg buf.toNat x j)
    fun y hy => polyAddr_outside _ hn hj fun h => hx (h ▸ hy)
  rw [hfold] at hframe ⊢
  exact hframe

/-- Each of the slots `l` whose input is in range ends with the transform of the array it started with. -/
theorem foldl_transformSlot_polyWord {l : List Nat} (hl : l.Nodup) {s : State} (hn : s.cn.toNat ≤ s.cfg.nmax)
    {x j : Nat} (hx : x ∈ l) (hbelow : s.CoeffsBelow buf.toNat x) (hj : j < s.cn.toNat) :
    (l.foldl (State.transformSlot tr buf) s).polyWord buf.toNat x j
      = mkWord s.cfg ((tr s x (s.coeffs buf x)).getD j 0) := by
  induction l generalizing s with
  | nil => cases hx
  | cons y l ih =>
    obtain ⟨hy, hl⟩ := List.nodup_cons.1 hl
    rw [List.foldl_cons]
    rcases List.mem_cons.1 hx with rfl | hx
    · rw [foldl_transformSlot_polyWord_other htr (by simpa using hn) hy (by simpa using hj),
        State.transformSlot_polyWord_self htr hbelow hj]
    · have hword : ∀ i, i < s.cn.toNat →
          (State.transformSlot tr buf s y).polyWord buf.toNat x i = s.polyWord buf.toNat x i :=
        fun i hi => State.transformSlot_polyWord_other htr hn hi fun h => hy (h ▸ hx)
      have hcoeffs : (State.transformSlot tr buf s y).coeffs buf x = s.coeffs buf x := by
        rw [State.coeffs, State.transformSlot_cn]
        exact List.map_congr_left fun i hi => congrArg BitVec.toNat (hword i (List.mem_range.1 hi))
      have hbelow' : (State.transformSlot tr buf s y).CoeffsBelow buf.toNat x := fun i hi => by
        rw [State.transformSlot_cn] at hi
        rw [hword i hi, State.transformSlot_slot]
        exact hbelow i hi
      rw [ih hl (by simpa using hn) hx hbelow' (by simpa using hj), hcoeffs, State.transformSlot_cfg,
        htr.transformSlot]

end Slots

/-! ### The transform commands -/

/-- The instruction `i` applies the slot transform `tr` to the selected slots of buffer `buf` (rule R200). -/
structure Transforms (i : Instr) (tr : State → Nat → List Nat → List Nat) (buf : BitVec 4) (all : Bool)
    (slot : BitVec 6) : Prop where
  slotTransform : SlotTransform tr
  exec_eq : ∀ s, exec i s = .next (s.transform tr buf all slot)

theorem nttf_transforms (buf : BitVec 4) (all : Bool) (slot : BitVec 6) :
    Transforms (.nttf buf all slot) State.forwardSlot buf all slot := ⟨forwardSlot_slotTransform, fun _ => rfl⟩

theorem ntti_transforms (buf : BitVec 4) (all : Bool) (slot : BitVec 6) :
    Transforms (.ntti buf all slot) State.inverseSlot buf all slot := ⟨inverseSlot_slotTransform, fun _ => rfl⟩

theorem exists_transforms {i : Instr} {buf : BitVec 4} {all : Bool} {slot : BitVec 6}
    (hi : i = .nttf buf all slot ∨ i = .ntti buf all slot) : ∃ tr, Transforms i tr buf all slot := by
  rcases hi with rfl | rfl
  · exact ⟨_, nttf_transforms buf all slot⟩
  · exact ⟨_, ntti_transforms buf all slot⟩

theorem State.selected_nodup (s : State) (all : Bool) (slot : BitVec 6) : (s.selected all slot).Nodup := by
  cases all with
  | true => exact List.nodup_range
  | false => exact List.nodup_singleton _

theorem State.TransformReady.cn_le {s : State} {buf : BitVec 4} {all : Bool} {slot : BitVec 6}
    (h : s.TransformReady buf all slot) (hinv : s.Inv) : s.cn.toNat ≤ s.cfg.nmax := by
  obtain ⟨hv, -⟩ := h
  exact (hinv.degree (hinv.validated hv)).2

section Commands

variable {i : Instr} {tr : State → Nat → List Nat → List Nat} {buf : BitVec 4} {all : Bool} {slot : BitVec 6}
  {s : State}

theorem Transforms.raises (h : Transforms i tr buf all slot) {e : ErrCode}
    (he : s.transformError buf all slot = some e) : Raises i s e := by
  rcases State.transform_cases tr buf all slot s with ⟨e', he', heq⟩ | ⟨hnone, -⟩
  · obtain rfl := Option.some.inj (he.symm.trans he')
    rw [Raises, h.exec_eq, heq]
  · exact nomatch he.symm.trans hnone

theorem Transforms.runsTo (h : Transforms i tr buf all slot) (hready : s.TransformReady buf all slot) :
    RunsTo i s ((s.selected all slot).foldl (State.transformSlot tr buf) s) := by
  rcases State.transform_cases tr buf all slot s with ⟨e, he, -⟩ | ⟨-, heq⟩
  · exact nomatch ((s.transformError_eq_none_iff buf all slot).2 hready).symm.trans he
  · rw [RunsTo, h.exec_eq, heq]

/-- What a transform command that passes its checks leaves in `POLY`: the words it does not write (rule R209), and the
transform of each selected slot whose input is in range (rules R201, R203). -/
theorem Transforms.result (h : Transforms i tr buf all slot) (hready : s.TransformReady buf all slot) :
    ∃ p n, RunsTo i s { s with poly := p, draws := n }
      ∧ (∀ a, (∀ x ∈ s.selected all slot,
            a < polyAddr s.cfg buf.toNat x 0 ∨ polyAddr s.cfg buf.toNat x 0 + s.cn.toNat ≤ a) →
          s.ramWord p a = s.ramWord s.poly a)
      ∧ (s.cn.toNat ≤ s.cfg.nmax → ∀ x ∈ s.selected all slot, s.CoeffsBelow buf.toNat x → ∀ j, j < s.cn.toNat →
          s.ramWord p (polyAddr s.cfg buf.toNat x j) = mkWord s.cfg ((tr s x (s.coeffs buf x)).getD j 0)) := by
  obtain ⟨p, n, hfold⟩ := foldl_transformSlot_cases tr buf (s.selected all slot) s
  refine ⟨p, n, hfold ▸ h.runsTo hready, fun a ha => ?_, fun hn x hx hbelow j hj => ?_⟩
  · have hframe := foldl_transformSlot_frame h.slotTransform ha
    rwa [hfold] at hframe
  · have hword := foldl_transformSlot_polyWord h.slotTransform (s.selected_nodup all slot) hn hx hbelow hj
    rwa [hfold] at hword

end Commands

/-- Settles O47. -/
theorem transformChecks : Obligations.TransformChecks := by
  intro s buf all slot i hi
  obtain ⟨tr, htr⟩ := exists_transforms hi
  refine ⟨fun hv => htr.raises ?_, fun hv hb => htr.raises ?_, fun hv hb hall hslot => htr.raises ?_⟩
  · simp [State.transformError, hv]
  · simp [State.transformError, hv, hb]
  · simp [State.transformError, hv, hall, hslot, Nat.not_le.2 hb]

/-- Settles O48: an address that is none of the `CN` words from the start of an array stands before or behind it. -/
theorem transformFrame : Obligations.TransformFrame := by
  intro s buf all slot i hi hready
  obtain ⟨tr, htr⟩ := exists_transforms hi
  obtain ⟨p, n, hruns, hframe, -⟩ := htr.result hready
  refine ⟨p, n, hruns, fun a ha => hframe a fun x hx => ?_⟩
  by_contra hin
  exact ha x hx (a - polyAddr s.cfg buf.toNat x 0) (by omega) (by rw [polyAddr_eq]; omega)

/-- Settles O50: the words written are the draws, in order. -/
theorem outOfRangeInputDraws : Obligations.OutOfRangeInputDraws := by
  intro s buf slot i hi hready hout
  obtain ⟨tr, htr⟩ := exists_transforms hi
  have hruns := htr.runsTo hready
  rw [show s.selected false slot = [slot.toNat] from rfl, List.foldl_cons, List.foldl_nil, State.transformSlot_eq,
    State.slotDraws_of_not_coeffsBelow hout, State.slotWords_of_not_coeffsBelow hout] at hruns
  refine ⟨_, hruns, fun j hj => ?_⟩
  refine (s.ramWord_writeList_of_inside s.poly _ (by simpa using hj)).trans ?_
  simp [State.anyW]

/-! ### All slots in turn (rule R208) -/

theorem SlotTransform.transformSlot_finished {tr : State → Nat → List Nat → List Nat} (htr : SlotTransform tr)
    (buf : BitVec 4) (s : State) (e : ErrCode) (x : Nat) :
    State.transformSlot tr buf (s.finished e) x = (State.transformSlot tr buf s x).finished e := by
  rw [State.transformSlot_eq, State.transformSlot_eq, State.slotWords, htr.finished]
  rfl

theorem State.TransformReady.transformSlot {s : State} {buf : BitVec 4} {all : Bool} {slot : BitVec 6}
    (h : s.TransformReady buf all slot) (tr : State → Nat → List Nat → List Nat) (x : Nat) :
    (State.transformSlot tr buf s x).TransformReady buf all slot := by
  rw [State.transformSlot_eq]
  exact h

/-- A slot number of a committed basis fits the field `SLOT` (rules R5, R91). -/
theorem State.Inv.slotField {s : State} (h : s.Inv) (hc : s.configured = true) {x : Nat} (hx : x < s.cl.toNat) :
    (BitVec.ofNat 6 x).toNat = x := by
  obtain ⟨-, hl64, -⟩ := s.cfg.legal
  have := h.lt_lmax hc hx
  rw [BitVec.toNat_ofNat, Nat.mod_eq_of_lt (by omega)]

/-- One more command of the sequence `ins`, after an outcome. -/
def execNext (ins : BitVec 6 → Instr) (o : Host.Outcome State Fault Refusal) (x : Nat) :
    Host.Outcome State Fault Refusal :=
  match o with
  | .next t => exec (ins (BitVec.ofNat 6 x)) t
  | .fault r => .fault r
  | .refused r => .refused r

section AllSlots

variable {ins : BitVec 6 → Instr} {tr : State → Nat → List Nat → List Nat} {buf : BitVec 4}
  (h : ∀ slot, Transforms (ins slot) tr buf false slot)
include h

/-- A single-slot command transforms its slot and completes. -/
theorem execNext_next {s : State} (hready : s.TransformReady buf true 0) {x : Nat}
    (hx : x < s.cl.toNat ∧ (BitVec.ofNat 6 x).toNat = x) :
    execNext ins (.next s) x = .next ((State.transformSlot tr buf s x).finished .ok) := by
  obtain ⟨hlt, hfield⟩ := hx
  obtain ⟨hv, hb, -⟩ := hready
  have hruns := (h (BitVec.ofNat 6 x)).runsTo (s := s) ⟨hv, hb, fun _ => hfield.symm ▸ hlt⟩
  rw [State.selected, hfield] at hruns
  exact hruns

/-- The single-slot commands in turn, from a completed state. -/
theorem foldl_execNext {l : List Nat} {s : State} (hready : s.TransformReady buf true 0)
    (hl : ∀ x ∈ l, x < s.cl.toNat ∧ (BitVec.ofNat 6 x).toNat = x) :
    l.foldl (execNext ins) (.next (s.finished .ok))
      = .next ((l.foldl (State.transformSlot tr buf) s).finished .ok) := by
  induction l generalizing s with
  | nil => rfl
  | cons x l ih =>
    obtain ⟨hx, hl⟩ := List.forall_mem_cons.1 hl
    rw [List.foldl_cons, List.foldl_cons, execNext_next h (s := s.finished .ok) hready hx,
      (h 0).slotTransform.transformSlot_finished]
    exact ih (hready.transformSlot tr x) (by rw [State.transformSlot_eq]; exact hl)

/-- The single-slot commands in turn, from any state: the first completion makes the state a completed one. -/
theorem foldl_execNext_of_ne_nil {l : List Nat} (hne : l ≠ []) {s : State} (hready : s.TransformReady buf true 0)
    (hl : ∀ x ∈ l, x < s.cl.toNat ∧ (BitVec.ofNat 6 x).toNat = x) :
    l.foldl (execNext ins) (.next s) = .next ((l.foldl (State.transformSlot tr buf) s).finished .ok) := by
  cases l with
  | nil => exact absurd rfl hne
  | cons x l =>
    obtain ⟨hx, hl⟩ := List.forall_mem_cons.1 hl
    rw [List.foldl_cons, List.foldl_cons, execNext_next h hready hx]
    exact foldl_execNext h (hready.transformSlot tr x) (by rw [State.transformSlot_eq]; exact hl)

/-- The command for all slots is the sequence of the single-slot commands, of which there is at least one. -/
theorem exec_all_eq_foldl_execNext {all : Instr} (hall : Transforms all tr buf true 0) {s : State} (hinv : s.Inv)
    (hready : s.TransformReady buf true 0) :
    exec all s = (List.range s.cl.toNat).foldl (execNext ins) (.next s) := by
  have hc := hinv.validated hready.1
  have hcl : s.cl.toNat ≠ 0 := Nat.one_le_iff_ne_zero.1 (hinv.length hc).1
  have hslots : ∀ x ∈ List.range s.cl.toNat, x < s.cl.toNat ∧ (BitVec.ofNat 6 x).toNat = x := fun x hx =>
    ⟨List.mem_range.1 hx, hinv.slotField hc (List.mem_range.1 hx)⟩
  rw [foldl_execNext_of_ne_nil h (mt List.range_eq_nil.1 hcl) hready hslots]
  exact hall.runsTo hready

end AllSlots

/-- Settles O51. -/
theorem allSlotsInTurn : Obligations.AllSlotsInTurn := fun _ buf hinv hready =>
  ⟨exec_all_eq_foldl_execNext (nttf_transforms buf false) (nttf_transforms buf true 0) hinv hready,
    exec_all_eq_foldl_execNext (ntti_transforms buf false) (ntti_transforms buf true 0) hinv hready⟩

end Sys2Proof.Machine
end

section
/-! What the transforms read (O49): of a twiddle table, the indices `1` to `N − 1`. -/

namespace Sys2Proof.Machine

/-! ### The table words that the loops read (rules R201, R203) -/

section Twiddles

variable {f : Nat → Nat → Nat → Nat × Nat} {tw tw' : Nat → Nat}

theorem stageInPlace_congr {blocks : Nat} (h : ∀ i, i < blocks → tw (blocks + i) = tw' (blocks + i)) (t : Nat)
    (a : List Nat) : stageInPlace f tw blocks t a = stageInPlace f tw' blocks t a :=
  List.foldl_ext _ _ _ fun _ i hi => by rw [h i (List.mem_range.1 hi)]

theorem forwardStages_congr {stages m : Nat} (h : ∀ i, m ≤ i → i < m * 2 ^ stages → tw i = tw' i) (t : Nat)
    (a : List Nat) : forwardStages f tw stages m t a = forwardStages f tw' stages m t a := by
  induction stages generalizing m t a with
  | zero => rfl
  | succ stages ih =>
    have hpow : m * 2 ^ (stages + 1) = 2 * m * 2 ^ stages := by ring
    have hle : 2 * m ≤ 2 * m * 2 ^ stages := Nat.le_mul_of_pos_right _ (Nat.two_pow_pos _)
    rw [forwardStages, forwardStages, stageInPlace_congr fun i hi => h (m + i) (by omega) (by omega),
      ih fun i h1 h2 => h i (by omega) (by omega)]

theorem inverseStages_congr {stages : Nat} (h : ∀ i, 1 ≤ i → i < 2 ^ stages → tw i = tw' i) (t : Nat) (a : List Nat) :
    inverseStages f tw stages (2 ^ stages) t a = inverseStages f tw' stages (2 ^ stages) t a := by
  induction stages generalizing t a with
  | zero => rfl
  | succ stages ih =>
    have hpos := Nat.two_pow_pos stages
    have hhalf : 2 ^ (stages + 1) / 2 = 2 ^ stages := by omega
    rw [inverseStages, inverseStages, hhalf, stageInPlace_congr fun i hi => h (2 ^ stages + i) (by omega) (by omega),
      ih fun i h1 h2 => h i h1 (by omega)]

end Twiddles

/-! ### The commands -/

/-- The states agree on what a transform command reads besides the twiddle tables (rule R209). -/
structure State.SameInputs (s t : State) (buf : BitVec 4) (all : Bool) (slot : BitVec 6) : Prop where
  cfg : t.cfg = s.cfg
  validated : t.validated = true
  cn : t.cn = s.cn
  clogn : t.clogn = s.clogn
  cl : t.cl = s.cl
  slots : ∀ x ∈ s.selected all slot, s.CoeffsBelow buf.toNat x ∧ (t.slot x).cq = (s.slot x).cq
    ∧ (t.slot x).mc = (s.slot x).mc ∧ (t.slot x).ninv = (s.slot x).ninv
    ∧ ∀ j, j < s.cn.toNat → t.polyWord buf.toNat x j = s.polyWord buf.toNat x j

section Reads

variable {s t : State} {buf : BitVec 4} {all : Bool} {slot : BitVec 6} (h : s.SameInputs t buf all slot)
include h

theorem State.SameInputs.transformReady (hready : s.TransformReady buf all slot) : t.TransformReady buf all slot := by
  obtain ⟨-, hb, hslot⟩ := hready
  exact ⟨h.validated, h.cfg ▸ hb, h.cl ▸ hslot⟩

theorem State.SameInputs.selected : t.selected all slot = s.selected all slot := by
  rw [State.selected, h.cl, State.selected]

theorem State.SameInputs.coeffs {x : Nat} (hx : x ∈ s.selected all slot) : t.coeffs buf x = s.coeffs buf x := by
  obtain ⟨-, -, -, -, hword⟩ := h.slots x hx
  rw [State.coeffs, h.cn]
  exact List.map_congr_left fun j hj => congrArg BitVec.toNat (hword j (List.mem_range.1 hj))

theorem State.SameInputs.coeffsBelow {x : Nat} (hx : x ∈ s.selected all slot) : t.CoeffsBelow buf.toNat x := by
  obtain ⟨hbelow, hcq, -, -, hword⟩ := h.slots x hx
  intro j hj
  rw [h.cn] at hj
  rw [hword j hj, hcq]
  exact hbelow j hj

/-- A command whose slot transforms agree in the two states gives the same coefficients. -/
theorem State.SameInputs.result {i : Instr} {tr : State → Nat → List Nat → List Nat}
    (htr : Transforms i tr buf all slot) (hinv : s.Inv) (hready : s.TransformReady buf all slot)
    (hsame : ∀ x ∈ s.selected all slot, tr t x = tr s x) :
    ∃ s' t', exec i s = .next s' ∧ exec i t = .next t'
      ∧ ∀ x ∈ s.selected all slot, ∀ j, j < s.cn.toNat → t'.polyWord buf.toNat x j = s'.polyWord buf.toNat x j := by
  have hn := hready.cn_le hinv
  obtain ⟨p, n, hs, -, hsword⟩ := htr.result hready
  obtain ⟨p', n', ht, -, htword⟩ := htr.result (h.transformReady hready)
  rw [h.cn, h.cfg, h.selected] at htword
  refine ⟨_, _, hs, ht, fun x hx j hj => ?_⟩
  obtain ⟨hbelow, -⟩ := h.slots x hx
  calc t.ramWord p' (polyAddr t.cfg buf.toNat x j)
      = mkWord s.cfg ((tr t x (t.coeffs buf x)).getD j 0) := by rw [h.cfg, htword hn x hx (h.coeffsBelow hx) j hj]
    _ = mkWord s.cfg ((tr s x (s.coeffs buf x)).getD j 0) := by rw [hsame x hx, h.coeffs hx]
    _ = s.ramWord p (polyAddr s.cfg buf.toNat x j) := (hsword hn x hx hbelow j hj).symm

theorem State.SameInputs.forwardSlot (hsize : s.cn.toNat = 2 ^ s.clogn.toNat) {x : Nat}
    (hx : x ∈ s.selected all slot) (htw : ∀ i, 1 ≤ i → i < s.cn.toNat → t.twfWord x i = s.twfWord x i) :
    t.forwardSlot x = s.forwardSlot x := by
  obtain ⟨-, hcq, hmc, -⟩ := h.slots x hx
  funext a
  rw [State.forwardSlot, State.forwardSlot, h.cfg, hcq, hmc, h.clogn, h.cn, forwardNtt, forwardNtt]
  exact forwardStages_congr (fun i h1 h2 => congrArg BitVec.toNat (htw i h1 (by omega))) _ a

theorem State.SameInputs.inverseSlot (hsize : s.cn.toNat = 2 ^ s.clogn.toNat) {x : Nat}
    (hx : x ∈ s.selected all slot) (htw : ∀ i, 1 ≤ i → i < s.cn.toNat → t.twiWord x i = s.twiWord x i) :
    t.inverseSlot x = s.inverseSlot x := by
  obtain ⟨-, hcq, hmc, hninv, -⟩ := h.slots x hx
  funext a
  rw [State.inverseSlot, State.inverseSlot, h.cfg, hcq, hmc, hninv, h.clogn, h.cn, inverseNtt, inverseNtt, hsize,
    inverseStages_congr fun i h1 h2 => congrArg BitVec.toNat (htw i h1 (by omega))]

end Reads

/-- Settles O49: index 0 of a table is not among those the loops read. -/
theorem transformReads : Obligations.TransformReads := by
  intro s t buf all slot hinv hready hcfg hv hcn hclogn hcl hslots
  have h : s.SameInputs t buf all slot := ⟨hcfg, hv, hcn, hclogn, hcl, hslots⟩
  obtain ⟨hsize, -⟩ := hinv.degree (hinv.validated hready.1)
  exact ⟨fun htw => h.result (nttf_transforms ..) hinv hready fun x hx => h.forwardSlot hsize hx (htw x hx),
    fun htw => h.result (ntti_transforms ..) hinv hready fun x hx => h.inverseSlot hsize hx (htw x hx)⟩

end Sys2Proof.Machine
end

section
/-! The stages of the transforms entry by entry (rules R201, R203). -/

namespace Sys2Proof.Machine

/-! ### Updates of separate parts of an array -/

/-- The steps `0, …, m − 1` of `g` work on separate parts of an array of `n` entries: step `x` changes entries of part
`x` only, and what it writes there depends on that part only. Entry `i` belongs to part `part i`. -/
structure Partwise (n m : Nat) (part : Nat → Nat) (g : List Nat → Nat → List Nat) : Prop where
  length : ∀ a x, (g a x).length = a.length
  other : ∀ a x i, a.length = n → x < m → part i ≠ x → (g a x).getD i 0 = a.getD i 0
  own : ∀ a b x, a.length = n → b.length = n → x < m → (∀ i, part i = x → a.getD i 0 = b.getD i 0) →
    ∀ i, part i = x → (g a x).getD i 0 = (g b x).getD i 0

/-- After some of the steps, an entry of their parts is as its own step leaves it, and every other entry is
untouched. -/
theorem Partwise.foldl_range {n m : Nat} {part : Nat → Nat} {g : List Nat → Nat → List Nat}
    (h : Partwise n m part g) {a : List Nat} (ha : a.length = n) {c : Nat} (hc : c ≤ m) (i : Nat) :
    ((List.range c).foldl g a).getD i 0 = if part i < c then (g a (part i)).getD i 0 else a.getD i 0 := by
  induction c generalizing i with
  | zero => simp
  | succ c ih =>
    have hlen : ((List.range c).foldl g a).length = n := (length_foldl_eq h.length _ a).trans ha
    rw [List.range_succ, List.foldl_append, List.foldl_cons, List.foldl_nil]
    by_cases hi : part i = c
    · have hpart : ∀ j, part j = c → ((List.range c).foldl g a).getD j 0 = a.getD j 0 := fun j hj => by
        rw [ih (by omega), if_neg (by omega)]
      rw [h.own _ a c hlen ha hc hpart i hi, if_pos (by omega), hi]
    · rw [h.other _ _ _ hlen hc hi, ih (by omega)]
      exact if_congr (by omega) rfl rfl

/-! ### One butterfly -/

section Pair

variable (f : Nat → Nat → Nat × Nat) {t j : Nat} {a : List Nat}

theorem pairInPlace_getD_low (ht : 0 < t) (h : j < a.length) :
    (pairInPlace f t j a).getD j 0 = (f (a.getD j 0) (a.getD (j + t) 0)).1 := by
  simp [pairInPlace, List.getD_eq_getElem?_getD, h, ht.ne']

theorem pairInPlace_getD_high (h : j + t < a.length) :
    (pairInPlace f t j a).getD (j + t) 0 = (f (a.getD j 0) (a.getD (j + t) 0)).2 := by
  simp [pairInPlace, List.getD_eq_getElem?_getD, h]

theorem pairInPlace_getD_other {i : Nat} (h1 : i ≠ j) (h2 : i ≠ j + t) :
    (pairInPlace f t j a).getD i 0 = a.getD i 0 := by
  simp [pairInPlace, List.getD_eq_getElem?_getD, h1.symm, h2.symm]

end Pair

/-! ### One block: the entries `j1 + d` and `j1 + d + t` are pair `d` -/

/-- The pair of the block at `j1` that entry `i` belongs to; `t` for an entry outside the block. -/
def pairPart (t j1 i : Nat) : Nat :=
  if i < j1 then t else if i < j1 + t then i - j1 else if i < j1 + 2 * t then i - j1 - t else t

theorem pairPart_eq_iff {t j1 i d : Nat} (hd : d < t) : pairPart t j1 i = d ↔ i = j1 + d ∨ i = j1 + d + t := by
  unfold pairPart
  split
  · omega
  split
  · omega
  split <;> omega

section Block

variable (f : Nat → Nat → Nat × Nat) {t j1 : Nat}

theorem pairInPlace_partwise {n : Nat} (hn : j1 + 2 * t ≤ n) :
    Partwise n t (pairPart t j1) (fun a d => pairInPlace f t (j1 + d) a) where
  length _ _ := pairInPlace_length ..
  other a d i _ hd hi := by
    rw [ne_eq, pairPart_eq_iff hd, not_or] at hi
    exact pairInPlace_getD_other f hi.1 hi.2
  own a b d ha hb hd hab i hi := by
    have hlow := hab (j1 + d) ((pairPart_eq_iff hd).2 (.inl rfl))
    have hhigh := hab (j1 + d + t) ((pairPart_eq_iff hd).2 (.inr rfl))
    rcases (pairPart_eq_iff hd).1 hi with rfl | rfl
    · rw [pairInPlace_getD_low f (by omega) (by omega), pairInPlace_getD_low f (by omega) (by omega), hlow, hhigh]
    · rw [pairInPlace_getD_high f (by omega), pairInPlace_getD_high f (by omega), hlow, hhigh]

variable {a : List Nat} (ha : j1 + 2 * t ≤ a.length)
include ha

theorem blockInPlace_getD_low {d : Nat} (hd : d < t) :
    (blockInPlace f t j1 a).getD (j1 + d) 0 = (f (a.getD (j1 + d) 0) (a.getD (j1 + d + t) 0)).1 := by
  have hpart : pairPart t j1 (j1 + d) = d := (pairPart_eq_iff hd).2 (.inl rfl)
  rw [blockInPlace, (pairInPlace_partwise f ha).foldl_range rfl le_rfl, hpart, if_pos hd,
    pairInPlace_getD_low f (by omega) (by omega)]

theorem blockInPlace_getD_high {d : Nat} (hd : d < t) :
    (blockInPlace f t j1 a).getD (j1 + d + t) 0 = (f (a.getD (j1 + d) 0) (a.getD (j1 + d + t) 0)).2 := by
  have hpart : pairPart t j1 (j1 + d + t) = d := (pairPart_eq_iff hd).2 (.inr rfl)
  rw [blockInPlace, (pairInPlace_partwise f ha).foldl_range rfl le_rfl, hpart, if_pos hd,
    pairInPlace_getD_high f (by omega)]

theorem blockInPlace_getD_other {i : Nat} (hi : i < j1 ∨ j1 + 2 * t ≤ i) :
    (blockInPlace f t j1 a).getD i 0 = a.getD i 0 := by
  have hpart : ¬ pairPart t j1 i < t := fun h => by
    have := (pairPart_eq_iff h).1 rfl
    omega
  rw [blockInPlace, (pairInPlace_partwise f ha).foldl_range rfl le_rfl, if_neg hpart]

end Block

/-! ### One stage: block `i` stands at `2 · i · t` -/

theorem div_two_mul_eq_iff {t i x : Nat} (ht : 0 < t) :
    i / (2 * t) = x ↔ ∃ d, d < t ∧ (i = 2 * x * t + d ∨ i = 2 * x * t + d + t) := by
  rw [Nat.div_eq_iff (by omega), show x * (2 * t) = 2 * x * t by ring]
  constructor
  · intro h
    by_cases hi : i < 2 * x * t + t
    · exact ⟨i - 2 * x * t, by omega, by omega⟩
    · exact ⟨i - 2 * x * t - t, by omega, by omega⟩
  · rintro ⟨d, hd, rfl | rfl⟩ <;> omega

section Stage

variable (f : Nat → Nat → Nat → Nat × Nat) (tw : Nat → Nat) {blocks t : Nat}

theorem block_inside {i n : Nat} (hn : 2 * blocks * t ≤ n) (hi : i < blocks) : 2 * i * t + 2 * t ≤ n := by
  calc 2 * i * t + 2 * t = 2 * (i + 1) * t := by ring
    _ ≤ 2 * blocks * t := by gcongr; omega
    _ ≤ n := hn

theorem blockInPlace_partwise {n : Nat} (ht : 0 < t) (hn : 2 * blocks * t ≤ n) :
    Partwise n blocks (· / (2 * t)) (fun a i => blockInPlace (f (tw (blocks + i))) t (2 * i * t) a) where
  length _ _ := blockInPlace_length ..
  other a x i ha hx hi := by
    refine blockInPlace_getD_other _ (ha ▸ block_inside hn hx) ?_
    rw [ne_eq, div_two_mul_eq_iff ht] at hi
    by_contra hin
    by_cases hlow : i < 2 * x * t + t
    · exact hi ⟨i - 2 * x * t, by omega, by omega⟩
    · exact hi ⟨i - 2 * x * t - t, by omega, by omega⟩
  own a b x ha hb hx hab i hi := by
    obtain ⟨d, hd, hi⟩ := (div_two_mul_eq_iff ht).1 hi
    have hlow := hab (2 * x * t + d) ((div_two_mul_eq_iff ht).2 ⟨d, hd, .inl rfl⟩)
    have hhigh := hab (2 * x * t + d + t) ((div_two_mul_eq_iff ht).2 ⟨d, hd, .inr rfl⟩)
    have ha := ha ▸ block_inside hn hx
    have hb := hb ▸ block_inside hn hx
    rcases hi with rfl | rfl
    · rw [blockInPlace_getD_low _ ha hd, blockInPlace_getD_low _ hb hd, hlow, hhigh]
    · rw [blockInPlace_getD_high _ ha hd, blockInPlace_getD_high _ hb hd, hlow, hhigh]

variable {a : List Nat} (ha : 2 * blocks * t ≤ a.length) {i d : Nat} (hi : i < blocks) (hd : d < t)
include ha hi hd

/-- The first result of butterfly `d` of block `i`. -/
theorem stageInPlace_getD_low : (stageInPlace f tw blocks t a).getD (2 * i * t + d) 0
    = (f (tw (blocks + i)) (a.getD (2 * i * t + d) 0) (a.getD (2 * i * t + d + t) 0)).1 := by
  have ht : 0 < t := Nat.zero_lt_of_lt hd
  have hpart : (2 * i * t + d) / (2 * t) = i := (div_two_mul_eq_iff ht).2 ⟨d, hd, .inl rfl⟩
  rw [stageInPlace, (blockInPlace_partwise f tw ht ha).foldl_range rfl le_rfl, hpart, if_pos hi,
    blockInPlace_getD_low _ (block_inside ha hi) hd]

/-- The second result of butterfly `d` of block `i`. -/
theorem stageInPlace_getD_high : (stageInPlace f tw blocks t a).getD (2 * i * t + d + t) 0
    = (f (tw (blocks + i)) (a.getD (2 * i * t + d) 0) (a.getD (2 * i * t + d + t) 0)).2 := by
  have ht : 0 < t := Nat.zero_lt_of_lt hd
  have hpart : (2 * i * t + d + t) / (2 * t) = i := (div_two_mul_eq_iff ht).2 ⟨d, hd, .inr rfl⟩
  rw [stageInPlace, (blockInPlace_partwise f tw ht ha).foldl_range rfl le_rfl, hpart, if_pos hi,
    blockInPlace_getD_high _ (block_inside ha hi) hd]

end Stage

/-- A bound on the results of the butterflies bounds the entries of the array. -/
theorem stageInPlace_lt {f : Nat → Nat → Nat → Nat × Nat} {tw : Nat → Nat} {blocks t q : Nat} {a : List Nat}
    (hf : ∀ i, i < blocks → ∀ x y, (f (tw (blocks + i)) x y).1 < q ∧ (f (tw (blocks + i)) x y).2 < q)
    (ha : ∀ y ∈ a, y < q) : ∀ y ∈ stageInPlace f tw blocks t a, y < q := by
  refine List.foldlRecOn _ _ (motive := fun b => ∀ y ∈ b, y < q) ha fun b hb i hi => ?_
  refine List.foldlRecOn _ _ (motive := fun b => ∀ y ∈ b, y < q) hb fun b hb d _ => ?_
  obtain ⟨hlow, hhigh⟩ := hf i (List.mem_range.1 hi) (b.getD (2 * i * t + d) 0) (b.getD (2 * i * t + d + t) 0)
  exact forall_mem_set (forall_mem_set hb _ hlow) _ hhigh

end Sys2Proof.Machine
end

section
/-! The closed forms of the two loops (rules R202, R204): an invariant of the stages, in the field of the modulus. -/

namespace Sys2Proof.Machine

/-! ### Bit reversal of block numbers (rule R11) -/

theorem brv_two_mul (k b : Nat) : brv (k + 1) (2 * b) = brv k b := by simp [brv]

theorem brv_two_mul_add_one (k b : Nat) : brv (k + 1) (2 * b + 1) = 2 ^ k + brv k b := by
  have hmod : (2 * b + 1) % 2 = 1 := by omega
  have hdiv : (2 * b + 1) / 2 = b := by omega
  rw [brv, hmod, hdiv, one_mul]

/-- The low part of a number becomes the high part of its reversal. -/
theorem brv_mul_add {s e b l : Nat} (hl : l < 2 ^ s) : brv (s + e) (b * 2 ^ s + l) = brv s l * 2 ^ e + brv e b := by
  induction s generalizing l with
  | zero =>
    obtain rfl : l = 0 := by simpa using hl
    simp [brv]
  | succ s ih =>
    rw [pow_succ] at hl
    have hshift : b * 2 ^ (s + 1) = 2 * (b * 2 ^ s) := by ring
    have hmod : (2 * (b * 2 ^ s) + l) % 2 = l % 2 := by omega
    have hdiv : (2 * (b * 2 ^ s) + l) / 2 = b * 2 ^ s + l / 2 := by omega
    rw [Nat.add_right_comm, hshift, brv, hmod, hdiv, ih (by omega), brv]
    ring

theorem brv_zero (k : Nat) : brv k 0 = 0 := by
  induction k with
  | zero => rfl
  | succ k ih => simp [brv, ih]

/-- The exponent of the twiddle of block `b` in the stage of `2^s` blocks (rules R176, R201). -/
theorem brv_twiddle {s b : Nat} (e : Nat) (hb : b < 2 ^ s) :
    brv (s + 1 + e) (2 ^ s + b) = (2 * brv s b + 1) * 2 ^ e := by
  have hlow := brv_mul_add (s := s + 1) (e := e) (b := 0) (l := 1 * 2 ^ s + b) (by rw [pow_succ]; omega)
  rwa [zero_mul, zero_add, brv_add_top hb (by omega), one_mul, brv_zero, add_zero] at hlow

/-! ### The butterflies in the field of the modulus (rules R160, R161) -/

theorem addMod_cast (q x y : Nat) : ((addMod q x y : Nat) : ZMod q) = x + y := by
  rw [addMod, ZMod.natCast_mod, Nat.cast_add]

theorem subMod_cast {q : Nat} (hq : 0 < q) (x y : Nat) : ((subMod q x y : Nat) : ZMod q) = x - y := by
  have hadd := (ZMod.natCast_eq_natCast_iff _ _ _).2 (subMod_add_modEq hq x y)
  rw [Nat.cast_add] at hadd
  exact eq_sub_of_add_eq hadd

section Butterflies

variable {c : Config} {q km : Nat} (h : MontContract c q km) (v x : Nat) {y : Nat}
include h

theorem butterflyCT_cast (hy : y < q) :
    ((butterflyCT c q km (montForm c q v) x y).1 : ZMod q) = x + y * v
      ∧ ((butterflyCT c q km (montForm c q v) x y).2 : ZMod q) = x - y * v := by
  rw [butterflyCT_montForm h hy, addMod_cast, subMod_cast (Nat.zero_lt_of_lt hy), ZMod.natCast_mod, Nat.cast_mul]
  exact ⟨rfl, rfl⟩

theorem butterflyGS_cast (y : Nat) :
    ((butterflyGS c q km (montForm c q v) x y).1 : ZMod q) = x + y
      ∧ ((butterflyGS c q km (montForm c q v) x y).2 : ZMod q) = (x - y) * v := by
  have hq : 0 < q := Nat.zero_lt_two.trans_le h.modContract.1
  rw [butterflyGS_montForm h, addMod_cast, ZMod.natCast_mod, Nat.cast_mul, subMod_cast hq]
  exact ⟨rfl, rfl⟩

end Butterflies

/-! ### The forward loop (rule R202) -/

theorem getD_lt {q : Nat} (hq : 0 < q) {a : List Nat} (ha : ∀ y ∈ a, y < q) (i : Nat) : a.getD i 0 < q := by
  rw [List.getD_eq_getElem?_getD]
  cases hi : a[i]? with
  | none => exact hq
  | some y => exact ha y (List.mem_of_getElem? hi)

/-- A sum of powers by even and odd exponents. -/
theorem sum_range_two_mul_pow {R : Type} [CommRing R] (u : Nat → R) (z : R) (m : Nat) :
    ∑ l ∈ Finset.range (2 * m), u l * z ^ l
      = ∑ l ∈ Finset.range m, u (2 * l) * (z ^ 2) ^ l + (∑ l ∈ Finset.range m, u (2 * l + 1) * (z ^ 2) ^ l) * z := by
  induction m with
  | zero => simp
  | succ m ih =>
    rw [Nat.mul_succ, Finset.sum_range_succ, Finset.sum_range_succ, ih, Finset.sum_range_succ, Finset.sum_range_succ]
    ring

section BlockValue

variable {R : Type} [CommRing R] (ψ : R) (x : List Nat)

/-- Coefficient `d` of the polynomial `x` reduced by `X^(2^e) − z`, where `z` is the power of `ψ` with exponent
`(2 · brv_s(b) + 1) · 2^e`: what block `b` of `2^s` holds at offset `d` after `s` stages of the forward loop. -/
def forwardValue (s e b d : Nat) : R :=
  ∑ l ∈ Finset.range (2 ^ s), (x.getD (l * 2 ^ e + d) 0 : R) * (ψ ^ ((2 * brv s b + 1) * 2 ^ e)) ^ l

/-- The two halves of a block that holds the even and the odd coefficients for `z²`, put together for `z`. -/
theorem sum_forwardValue (s e b d : Nat) {z : R} (hz : z ^ 2 = ψ ^ ((2 * brv s b + 1) * 2 ^ (e + 1))) :
    ∑ l ∈ Finset.range (2 ^ (s + 1)), (x.getD (l * 2 ^ e + d) 0 : R) * z ^ l
      = forwardValue ψ x s (e + 1) b d + forwardValue ψ x s (e + 1) b (d + 2 ^ e) * z := by
  have heven : ∀ l, l * 2 ^ (e + 1) + d = 2 * l * 2 ^ e + d := fun l => by ring
  have hodd : ∀ l, l * 2 ^ (e + 1) + (d + 2 ^ e) = (2 * l + 1) * 2 ^ e + d := fun l => by ring
  simp only [forwardValue, heven, hodd, ← hz]
  rw [pow_succ, Nat.mul_comm, sum_range_two_mul_pow fun l => (x.getD (l * 2 ^ e + d) 0 : R)]

theorem forwardValue_even (s e b d : Nat) : forwardValue ψ x (s + 1) e (2 * b) d
    = forwardValue ψ x s (e + 1) b d
      + forwardValue ψ x s (e + 1) b (d + 2 ^ e) * ψ ^ ((2 * brv s b + 1) * 2 ^ e) := by
  rw [forwardValue, brv_two_mul]
  refine sum_forwardValue ψ x s e b d ?_
  rw [← pow_mul]
  congr 1
  ring

theorem forwardValue_odd {s e : Nat} (hψ : ψ ^ 2 ^ (s + 1 + e) = -1) (b d : Nat) :
    forwardValue ψ x (s + 1) e (2 * b + 1) d
      = forwardValue ψ x s (e + 1) b d
        - forwardValue ψ x s (e + 1) b (d + 2 ^ e) * ψ ^ ((2 * brv s b + 1) * 2 ^ e) := by
  have hneg : ψ ^ ((2 * (2 ^ s + brv s b) + 1) * 2 ^ e) = -ψ ^ ((2 * brv s b + 1) * 2 ^ e) := by
    rw [← neg_one_mul, ← hψ, ← pow_add]
    congr 1
    ring
  rw [forwardValue, brv_two_mul_add_one, hneg, sub_eq_add_neg, ← mul_neg]
  refine sum_forwardValue ψ x s e b d ?_
  rw [neg_sq, ← pow_mul]
  congr 1
  ring

end BlockValue

/-- The array `a` after `s` of the `s + e` stages of the forward loop on `x`. -/
structure ForwardAfter {q : Nat} (ψ : ZMod q) (x : List Nat) (s e : Nat) (a : List Nat) : Prop where
  length : a.length = 2 ^ (s + e)
  lt : ∀ y ∈ a, y < q
  value : ∀ b, b < 2 ^ s → ∀ d, d < 2 ^ e → (a.getD (b * 2 ^ e + d) 0 : ZMod q) = forwardValue ψ x s e b d

/-- Entry `i` of the table is power `brv_k(i)` of `w`, in Montgomery form (rule R176). -/
def IsTwiddleTable (c : Config) (q w k : Nat) (tw : Nat → Nat) : Prop :=
  ∀ i, i < 2 ^ k → tw i = montForm c q (w ^ brv k i)

/-- The twiddle of block `b` in the stage of `2^s` blocks. -/
theorem IsTwiddleTable.twiddle {c : Config} {q w s e b : Nat} {tw : Nat → Nat}
    (h : IsTwiddleTable c q w (s + 1 + e) tw) (hb : b < 2 ^ s) :
    tw (2 ^ s + b) = montForm c q (w ^ ((2 * brv s b + 1) * 2 ^ e)) := by
  have hpow : 2 ^ (s + 1) ≤ 2 ^ (s + 1 + e) := Nat.pow_le_pow_right (by decide) (by omega)
  rw [h _ (by rw [pow_succ] at hpow; omega), brv_twiddle e hb]

section Forward

variable {c : Config} {q km w : Nat} {tw : Nat → Nat} (h : MontContract c q km) {x : List Nat}
include h

/-- Butterfly `d` of block `b` in a stage of the forward loop gives entry `d` of each of the two halves. -/
theorem ForwardAfter.butterfly {s e : Nat} (htw : IsTwiddleTable c q w (s + 1 + e) tw)
    (hw : (w : ZMod q) ^ 2 ^ (s + 1 + e) = -1) {a : List Nat} (ha : ForwardAfter (w : ZMod q) x s (e + 1) a)
    {b d : Nat} (hb : b < 2 ^ s) (hd : d < 2 ^ e) :
    let r := butterflyCT c q km (tw (2 ^ s + b)) (a.getD (2 * b * 2 ^ e + d) 0) (a.getD (2 * b * 2 ^ e + d + 2 ^ e) 0)
    (r.1 : ZMod q) = forwardValue (w : ZMod q) x (s + 1) e (2 * b) d
      ∧ (r.2 : ZMod q) = forwardValue (w : ZMod q) x (s + 1) e (2 * b + 1) d := by
  have hU := ha.value b hb d (by rw [pow_succ]; omega)
  have hV := ha.value b hb (d + 2 ^ e) (by rw [pow_succ]; omega)
  rw [show b * 2 ^ (e + 1) + d = 2 * b * 2 ^ e + d by ring] at hU
  rw [show b * 2 ^ (e + 1) + (d + 2 ^ e) = 2 * b * 2 ^ e + d + 2 ^ e by ring] at hV
  have hct := butterflyCT_cast h (w ^ ((2 * brv s b + 1) * 2 ^ e)) (a.getD (2 * b * 2 ^ e + d) 0)
    (getD_lt (Nat.zero_lt_two.trans_le h.modContract.1) ha.lt (2 * b * 2 ^ e + d + 2 ^ e))
  rwa [← htw.twiddle hb, hU, hV, Nat.cast_pow, ← forwardValue_even, ← forwardValue_odd _ _ hw] at hct

theorem ForwardAfter.stage {s e : Nat} (htw : IsTwiddleTable c q w (s + 1 + e) tw)
    (hw : (w : ZMod q) ^ 2 ^ (s + 1 + e) = -1) {a : List Nat} (ha : ForwardAfter (w : ZMod q) x s (e + 1) a) :
    ForwardAfter (w : ZMod q) x (s + 1) e (stageInPlace (butterflyCT c q km) tw (2 ^ s) (2 ^ e) a) where
  length := by rw [stageInPlace_length, ha.length, Nat.add_right_comm, Nat.add_assoc]
  lt := stageInPlace_lt (fun _ _ _ _ => butterflyCT_lt (Nat.zero_lt_two.trans_le h.modContract.1) _ _ _ _) ha.lt
  value := by
    intro b' hb' d hd
    have hlen : 2 * 2 ^ s * 2 ^ e ≤ a.length := (ha.length.trans (by ring)).ge
    obtain ⟨b, hhalf⟩ := Nat.even_or_odd' b'
    have hb : b < 2 ^ s := by
      rw [pow_succ] at hb'
      omega
    obtain ⟨hlow, hhigh⟩ := ha.butterfly h htw hw hb hd
    rcases hhalf with rfl | rfl
    · rw [← hlow, stageInPlace_getD_low _ _ hlen hb hd]
    · rw [← hhigh, show (2 * b + 1) * 2 ^ e + d = 2 * b * 2 ^ e + d + 2 ^ e by ring,
        stageInPlace_getD_high _ _ hlen hb hd]

theorem ForwardAfter.stages {s e : Nat} (htw : IsTwiddleTable c q w (s + e) tw)
    (hw : (w : ZMod q) ^ 2 ^ (s + e) = -1) {a : List Nat} (ha : ForwardAfter (w : ZMod q) x s e a) :
    ForwardAfter (w : ZMod q) x (s + e) 0 (forwardStages (butterflyCT c q km) tw e (2 ^ s) (2 ^ e) a) := by
  induction e generalizing s a with
  | zero => exact ha
  | succ e ih =>
    have hk : s + (e + 1) = s + 1 + e := by omega
    have hhalf : 2 ^ (e + 1) / 2 = 2 ^ e := by omega
    rw [hk] at htw hw ⊢
    rw [forwardStages, hhalf, ← Nat.pow_succ']
    exact ih htw hw (ha.stage h htw hw)

/-- The forward transform evaluates the polynomial at the odd powers of `ψ`, in bit-reversed order (rule R202). -/
theorem forwardNtt_after {k : Nat} (htw : IsTwiddleTable c q w k tw) (hw : (w : ZMod q) ^ 2 ^ k = -1)
    (hlen : x.length = 2 ^ k) (hx : ∀ y ∈ x, y < q) :
    ForwardAfter (w : ZMod q) x k 0 (forwardNtt c q km tw k (2 ^ k) x) := by
  have hstart : ForwardAfter (w : ZMod q) x 0 k x := by
    refine ⟨by rw [hlen, zero_add], hx, fun b hb d _ => ?_⟩
    obtain rfl : b = 0 := by simpa using hb
    simp [forwardValue]
  have hend := hstart.stages h (by rwa [zero_add]) (by rwa [zero_add])
  rwa [zero_add] at hend

end Forward

end Sys2Proof.Machine
end

section
/-! The inverse loop (rule R204): an invariant of its stages. -/

namespace Sys2Proof.Machine

section SumValue

variable {R : Type} [CommRing R] (φ : R) (x : List Nat)

/-- What block `b` of the inverse loop on `x` holds at offset `d` after `s` of its `k` stages: the sum over the `2^s`
inputs of the block, each times the power `2 · brv_k + 1` of `φ` for its index, to the power `d`. -/
def inverseValue (k s b d : Nat) : R :=
  ∑ l ∈ Finset.range (2 ^ s), (x.getD (b * 2 ^ s + l) 0 : R) * φ ^ ((2 * brv k (b * 2 ^ s + l) + 1) * d)

theorem inverseValue_succ (k s b d : Nat) :
    inverseValue φ x k (s + 1) b d = inverseValue φ x k s (2 * b) d + inverseValue φ x k s (2 * b + 1) d := by
  have hlow : ∀ l, b * 2 ^ (s + 1) + l = 2 * b * 2 ^ s + l := fun l => by ring
  have hhigh : ∀ l, 2 * b * 2 ^ s + (2 ^ s + l) = (2 * b + 1) * 2 ^ s + l := fun l => by ring
  simp only [inverseValue, hlow]
  rw [pow_succ, Nat.mul_two, Finset.sum_range_add]
  simp only [hhigh]

variable {s e : Nat} (hφ : φ ^ 2 ^ (s + (e + 1)) = -1)
include hφ

/-- Offset `d + 2^s` of a block, by offset `d`: the extra power of `φ` is the same for all inputs of the block. -/
theorem inverseValue_add (b d : Nat) : inverseValue φ x (s + (e + 1)) s b (d + 2 ^ s)
    = inverseValue φ x (s + (e + 1)) s b d * φ ^ ((2 * brv (e + 1) b + 1) * 2 ^ s) := by
  rw [inverseValue, inverseValue, Finset.sum_mul]
  refine Finset.sum_congr rfl fun l hl => ?_
  have hfull : φ ^ (2 ^ (s + (e + 1)) * (2 * brv s l)) = 1 := by rw [pow_mul, hφ, pow_mul, neg_one_sq, one_pow]
  have hexp : (2 * brv (s + (e + 1)) (b * 2 ^ s + l) + 1) * 2 ^ s
      = 2 ^ (s + (e + 1)) * (2 * brv s l) + (2 * brv (e + 1) b + 1) * 2 ^ s := by
    rw [brv_mul_add (Finset.mem_range.1 hl)]
    ring
  rw [Nat.mul_add, hexp, pow_add, pow_add, hfull, one_mul, mul_assoc]

theorem inverseValue_succ_add (b d : Nat) : inverseValue φ x (s + (e + 1)) (s + 1) b (d + 2 ^ s)
    = (inverseValue φ x (s + (e + 1)) s (2 * b) d - inverseValue φ x (s + (e + 1)) s (2 * b + 1) d)
      * φ ^ ((2 * brv e b + 1) * 2 ^ s) := by
  have hneg : φ ^ ((2 * (2 ^ e + brv e b) + 1) * 2 ^ s) = -φ ^ ((2 * brv e b + 1) * 2 ^ s) := by
    rw [← neg_one_mul, ← hφ, ← pow_add]
    congr 1
    ring
  rw [inverseValue_succ, inverseValue_add φ x hφ, inverseValue_add φ x hφ, brv_two_mul, brv_two_mul_add_one, hneg]
  ring

end SumValue

/-- The array `a` after `s` of the `s + e` stages of the inverse loop on `x`. -/
structure InverseAfter {q : Nat} (φ : ZMod q) (x : List Nat) (s e : Nat) (a : List Nat) : Prop where
  length : a.length = 2 ^ (s + e)
  lt : ∀ y ∈ a, y < q
  value : ∀ b, b < 2 ^ e → ∀ d, d < 2 ^ s → (a.getD (b * 2 ^ s + d) 0 : ZMod q) = inverseValue φ x (s + e) s b d

section Inverse

variable {c : Config} {q km w : Nat} {tw : Nat → Nat} (h : MontContract c q km) {x : List Nat}

/-- The twiddle of block `b` in the stage of the inverse loop that leaves `2^e` blocks. -/
theorem IsTwiddleTable.inverseTwiddle {s e b : Nat} (htw : IsTwiddleTable c q w (s + (e + 1)) tw)
    (hb : b < 2 ^ e) :
    tw (2 ^ e + b) = montForm c q (w ^ ((2 * brv e b + 1) * 2 ^ s)) := by
  rw [Nat.add_comm] at htw
  exact htw.twiddle hb

include h

/-- Butterfly `d` of block `b` in a stage of the inverse loop gives the entries `d` and `d + 2^s` of the joined block. -/
theorem InverseAfter.butterfly {s e : Nat} (htw : IsTwiddleTable c q w (s + (e + 1)) tw)
    (hw : (w : ZMod q) ^ 2 ^ (s + (e + 1)) = -1) {a : List Nat} (ha : InverseAfter (w : ZMod q) x s (e + 1) a)
    {b d : Nat} (hb : b < 2 ^ e) (hd : d < 2 ^ s) :
    let r := butterflyGS c q km (tw (2 ^ e + b)) (a.getD (2 * b * 2 ^ s + d) 0) (a.getD (2 * b * 2 ^ s + d + 2 ^ s) 0)
    (r.1 : ZMod q) = inverseValue (w : ZMod q) x (s + (e + 1)) (s + 1) b d
      ∧ (r.2 : ZMod q) = inverseValue (w : ZMod q) x (s + (e + 1)) (s + 1) b (d + 2 ^ s) := by
  have hU := ha.value (2 * b) (by rw [pow_succ]; omega) d hd
  have hV := ha.value (2 * b + 1) (by rw [pow_succ]; omega) d hd
  rw [show (2 * b + 1) * 2 ^ s + d = 2 * b * 2 ^ s + d + 2 ^ s by ring] at hV
  have hgs := butterflyGS_cast h (w ^ ((2 * brv e b + 1) * 2 ^ s)) (a.getD (2 * b * 2 ^ s + d) 0)
    (a.getD (2 * b * 2 ^ s + d + 2 ^ s) 0)
  rwa [← htw.inverseTwiddle hb, hU, hV, Nat.cast_pow, ← inverseValue_succ, ← inverseValue_succ_add _ _ hw] at hgs

theorem InverseAfter.stage {s e : Nat} (htw : IsTwiddleTable c q w (s + (e + 1)) tw)
    (hw : (w : ZMod q) ^ 2 ^ (s + (e + 1)) = -1) {a : List Nat} (ha : InverseAfter (w : ZMod q) x s (e + 1) a) :
    InverseAfter (w : ZMod q) x (s + 1) e (stageInPlace (butterflyGS c q km) tw (2 ^ e) (2 ^ s) a) := by
  have hk : s + 1 + e = s + (e + 1) := by omega
  refine ⟨by rw [stageInPlace_length, ha.length, hk], ?_, fun b hb d' hd' => ?_⟩
  · refine stageInPlace_lt (fun b hb x y => butterflyGS_lt h.modContract ?_ _ _ _) ha.lt
    rw [htw.inverseTwiddle hb]
    exact h.modContract.mod_lt _
  · have hlen : 2 * 2 ^ e * 2 ^ s ≤ a.length := (ha.length.trans (by ring)).ge
    have hbase : b * 2 ^ (s + 1) = 2 * b * 2 ^ s := by ring
    rw [hk, hbase]
    by_cases hd : d' < 2 ^ s
    · rw [← (ha.butterfly h htw hw hb hd).1, stageInPlace_getD_low _ _ hlen hb hd]
    · obtain ⟨d, rfl⟩ := Nat.exists_eq_add_of_le' (Nat.le_of_not_lt hd)
      have hd : d < 2 ^ s := by
        rw [pow_succ] at hd'
        omega
      rw [← (ha.butterfly h htw hw hb hd).2, ← Nat.add_assoc, stageInPlace_getD_high _ _ hlen hb hd]

theorem InverseAfter.stages {s e : Nat} (htw : IsTwiddleTable c q w (s + e) tw)
    (hw : (w : ZMod q) ^ 2 ^ (s + e) = -1) {a : List Nat} (ha : InverseAfter (w : ZMod q) x s e a) :
    InverseAfter (w : ZMod q) x (s + e) 0 (inverseStages (butterflyGS c q km) tw e (2 ^ e) (2 ^ s) a) := by
  induction e generalizing s a with
  | zero => exact ha
  | succ e ih =>
    have hk : s + (e + 1) = s + 1 + e := by omega
    have hhalf : 2 ^ (e + 1) / 2 = 2 ^ e := by omega
    have hstage := ha.stage h htw hw
    rw [hk] at htw hw ⊢
    rw [inverseStages, hhalf, ← Nat.pow_succ']
    exact ih htw hw hstage

/-- The stages of the inverse transform give the closed form without its factor `N⁻¹` (rule R204). -/
theorem inverseStages_after {k : Nat} (htw : IsTwiddleTable c q w k tw) (hw : (w : ZMod q) ^ 2 ^ k = -1)
    (hlen : x.length = 2 ^ k) (hx : ∀ y ∈ x, y < q) :
    InverseAfter (w : ZMod q) x k 0 (inverseStages (butterflyGS c q km) tw k (2 ^ k) 1 x) := by
  have hstart : InverseAfter (w : ZMod q) x 0 k x := by
    refine ⟨by rw [hlen, zero_add], hx, fun b _ d hd => ?_⟩
    obtain rfl : d = 0 := by simpa using hd
    simp [inverseValue]
  have hend := hstart.stages h (by rwa [zero_add]) (by rwa [zero_add])
  rwa [zero_add] at hend

/-- The reduction of the final pass multiplies by the inverse of the degree, which stands on the left as `n`
(rules R177, R203). -/
theorem redc_ninv_cast {n ninv y : Nat} (hninv : ninv < q ∧ ninv * n % q = c.R % q) (hy : y < q) :
    redc c q km (y * ninv) < q ∧ (n : ZMod q) * (redc c q km (y * ninv) : Nat) = y := by
  obtain ⟨hlt, hmul⟩ := hninv
  obtain ⟨u, hu⟩ := h.exists_radixInverse
  have hT := h.modContract.mul_lt_mul_R hy hlt
  have hnR : (ninv : ZMod q) * n = c.R := by
    rw [← Nat.cast_mul]
    exact (ZMod.natCast_eq_natCast_iff' _ _ _).2 hmul
  have hRu : (c.R : ZMod q) * u = 1 := by
    have hone : (c.R * u) % q = 1 % q := hu.2.trans (Nat.mod_eq_of_lt h.modContract.1).symm
    rw [← Nat.cast_mul, ← Nat.cast_one]
    exact (ZMod.natCast_eq_natCast_iff' _ _ _).2 hone
  refine ⟨redc_lt hT, ?_⟩
  rw [redc_eq h hu hT, ZMod.natCast_mod, Nat.cast_mul, Nat.cast_mul]
  calc (n : ZMod q) * (y * ninv * u) = y * ((ninv * n) * u) := by ring
    _ = y := by rw [hnR, hRu, mul_one]

end Inverse

end Sys2Proof.Machine
end

section
/-! Sums of powers of a root of unity: the two closed forms invert each other, and a pointwise product becomes the
negacyclic product (rules R204, R207). -/

namespace Sys2Proof.Machine

/-- Bit reversal permutes the indices of an array of `2^k` entries. -/
theorem sum_range_brv {M : Type} [AddCommMonoid M] (k : Nat) (g : Nat → M) :
    ∑ j ∈ Finset.range (2 ^ k), g (brv k j) = ∑ j ∈ Finset.range (2 ^ k), g j := by
  have hlt : ∀ j, brv k j ∈ Finset.range (2 ^ k) := fun j => Finset.mem_range.2 (brv_lt k j)
  have hinv : ∀ j ∈ Finset.range (2 ^ k), brv k (brv k j) = j := fun j hj => brv_brv (Finset.mem_range.1 hj)
  exact Finset.sum_nbij' (brv k) (brv k) (fun j _ => hlt j) (fun j _ => hlt j) hinv hinv fun _ _ => rfl

/-- `ψ` is a primitive `2n`-th root of unity with `ψ^n = −1`, and `φ` its inverse (rule R175). -/
structure NegacyclicRoot {F : Type} [Field F] (n : Nat) (ψ φ : F) : Prop where
  pos : 0 < n
  primitive : IsPrimitiveRoot ψ (2 * n)
  pow : ψ ^ n = -1
  mul : ψ * φ = 1

/-- The powers of a root of unity other than 1 sum to 0. -/
theorem sum_pow_eq_zero {F : Type} [Field F] {n : Nat} {z : F} (hpow : z ^ n = 1) (hne : z ≠ 1) :
    ∑ i ∈ Finset.range n, z ^ i = 0 := by
  rw [geom_sum_eq hne, hpow, sub_self, zero_div]

/-- The coefficient of `X^i` in the remainder of `X^u` by `X^n + 1`, for `u < 2n`. -/
def negacyclicSign (F : Type) [Field F] (n u i : Nat) : F := if u = i then 1 else if u = i + n then -1 else 0

section Root

variable {F : Type} [Field F] {n : Nat} {ψ φ : F} (h : NegacyclicRoot n ψ φ)
include h

theorem NegacyclicRoot.pow_inv : φ ^ n = -1 := by
  have hmul : (ψ * φ) ^ n = 1 := by rw [h.mul, one_pow]
  rw [mul_pow, h.pow, neg_one_mul] at hmul
  exact neg_eq_iff_eq_neg.1 hmul

theorem NegacyclicRoot.pow_mul_pow_self (i : Nat) : ψ ^ i * φ ^ i = 1 := by rw [← mul_pow, h.mul, one_pow]

theorem NegacyclicRoot.pow_mul_pow_eq_one_iff (u i : Nat) : ψ ^ u * φ ^ i = 1 ↔ u ≡ i [MOD 2 * n] := by
  have hφ : φ ^ i ≠ 0 := right_ne_zero_of_mul_eq_one (h.pow_mul_pow_self i)
  have hfin : IsOfFinOrder ψ := h.primitive.isOfFinOrder (Nat.mul_ne_zero two_ne_zero h.pos.ne')
  rw [← h.pow_mul_pow_self i, mul_left_inj' hφ, hfin.pow_eq_pow_iff_modEq, ← h.primitive.eq_orderOf]

theorem NegacyclicRoot.pow_mul_pow_sq_eq_one_iff {u i : Nat} (hu : u < 2 * n) (hi : i < n) :
    (ψ ^ u * φ ^ i) ^ 2 = 1 ↔ u = i ∨ u = i + n := by
  rw [mul_pow, ← pow_mul, ← pow_mul, h.pow_mul_pow_eq_one_iff, Nat.mul_comm u, Nat.mul_comm i]
  constructor
  · intro hmod
    have hmod : u % n = i % n := Nat.ModEq.mul_left_cancel' two_ne_zero hmod
    rw [Nat.mod_eq_of_lt hi] at hmod
    rcases Nat.lt_or_ge u n with hlt | hge
    · exact .inl (Nat.mod_eq_of_lt hlt ▸ hmod)
    · rw [Nat.mod_eq_sub_mod hge, Nat.mod_eq_of_lt (by omega)] at hmod
      exact .inr (by omega)
  · rintro (rfl | rfl)
    · rfl
    · rw [Nat.mul_add]
      exact Nat.add_mod_right _ _

/-- The sum of the odd powers of `z = ψ^u · φ^i`: the powers of `z²` sum to 0 unless `z = 1` or `z = −1`. -/
theorem NegacyclicRoot.sum_odd_pow {u i : Nat} (hu : u < 2 * n) (hi : i < n) :
    ∑ j ∈ Finset.range n, (ψ ^ u * φ ^ i) ^ (2 * j + 1) = n * negacyclicSign F n u i := by
  have hone := h.pow_mul_pow_sq_eq_one_iff hu hi
  simp only [pow_succ _ (2 * _), pow_mul _ 2, ← Finset.sum_mul]
  by_cases h1 : u = i
  · subst h1
    simp [negacyclicSign, h.pow_mul_pow_self]
  by_cases h2 : u = i + n
  · subst h2
    have hz : ψ ^ (i + n) * φ ^ i = -1 := by
      rw [pow_add, h.pow, mul_right_comm, h.pow_mul_pow_self, one_mul]
    simp [negacyclicSign, hz, h.pos.ne']
  · have hpow : ((ψ ^ u * φ ^ i) ^ 2) ^ n = 1 := by
      rw [← pow_mul, Nat.mul_comm, pow_mul, mul_pow, pow_right_comm, h.pow, pow_right_comm, h.pow_inv, ← pow_add,
        ← pow_mul, Nat.mul_comm, pow_mul, neg_one_sq, one_pow]
    rw [sum_pow_eq_zero hpow (by rw [ne_eq, hone]; tauto)]
    simp [negacyclicSign, h1, h2]

/-- The powers of the quotient of two odd powers of `ψ`. -/
theorem NegacyclicRoot.sum_pow_mul_pow {b b' : Nat} (hb : b < n) (hb' : b' < n) :
    ∑ i ∈ Finset.range n, (ψ ^ (2 * b + 1) * φ ^ (2 * b' + 1)) ^ i = if b = b' then (n : F) else 0 := by
  have hone := h.pow_mul_pow_eq_one_iff (2 * b + 1) (2 * b' + 1)
  split
  next heq => simp [heq, h.pow_mul_pow_self]
  next hne =>
    refine sum_pow_eq_zero ?_ fun hz => ?_
    · rw [mul_pow, pow_right_comm, h.pow, pow_right_comm, h.pow_inv, ← pow_add,
        show 2 * b + 1 + (2 * b' + 1) = 2 * (b + b' + 1) by ring, pow_mul, neg_one_sq, one_pow]
    · have hmod : (2 * b + 1) % (2 * n) = (2 * b' + 1) % (2 * n) := hone.1 hz
      rw [Nat.mod_eq_of_lt (by omega), Nat.mod_eq_of_lt (by omega)] at hmod
      omega

end Root

/-! ### The closed forms as sums -/

section Closed

variable {F : Type} [Field F]

/-- The closed form of the forward transform (rule R202): the polynomial with coefficients `x`, at point `j`. -/
def forwardSum (ψ : F) (k : Nat) (x : Nat → F) (j : Nat) : F :=
  ∑ i ∈ Finset.range (2 ^ k), x i * ψ ^ ((2 * brv k j + 1) * i)

/-- The closed form of the inverse transform (rule R204), without its factor `N⁻¹`. -/
def inverseSum (φ : F) (k : Nat) (y : Nat → F) (i : Nat) : F :=
  ∑ j ∈ Finset.range (2 ^ k), y j * φ ^ ((2 * brv k j + 1) * i)

theorem forwardSum_congr (ψ : F) {k : Nat} {x y : Nat → F} (h : ∀ i, i < 2 ^ k → x i = y i) (j : Nat) :
    forwardSum ψ k x j = forwardSum ψ k y j :=
  Finset.sum_congr rfl fun i hi => by rw [h i (Finset.mem_range.1 hi)]

theorem inverseSum_congr (φ : F) {k : Nat} {x y : Nat → F} (h : ∀ j, j < 2 ^ k → x j = y j) (i : Nat) :
    inverseSum φ k x i = inverseSum φ k y i :=
  Finset.sum_congr rfl fun j hj => by rw [h j (Finset.mem_range.1 hj)]

theorem mul_forwardSum (ψ : F) (k : Nat) (c : F) (x : Nat → F) (j : Nat) :
    c * forwardSum ψ k x j = forwardSum ψ k (fun i => c * x i) j := by
  simp only [forwardSum, Finset.mul_sum, mul_assoc]

theorem inverseSum_linear (φ : F) (k : Nat) {ι : Type} (t : Finset ι) (c : ι → F) (g : ι → Nat → F) (i : Nat) :
    inverseSum φ k (fun j => ∑ u ∈ t, c u * g u j) i = ∑ u ∈ t, c u * inverseSum φ k (g u) i := by
  simp only [inverseSum, Finset.sum_mul, Finset.mul_sum, mul_assoc]
  exact Finset.sum_comm

variable {k : Nat} {ψ φ : F} (h : NegacyclicRoot (2 ^ k) ψ φ)
include h

/-- The values of the monomial `X^u` give back its remainder by `X^n + 1`. -/
theorem NegacyclicRoot.inverseSum_pow {u i : Nat} (hu : u < 2 * 2 ^ k) (hi : i < 2 ^ k) :
    inverseSum φ k (fun j => ψ ^ ((2 * brv k j + 1) * u)) i = (2 ^ k : Nat) * negacyclicSign F (2 ^ k) u i := by
  rw [← h.sum_odd_pow hu hi, ← sum_range_brv, inverseSum]
  refine Finset.sum_congr rfl fun j _ => ?_
  rw [mul_pow, ← pow_mul, ← pow_mul, Nat.mul_comm u, Nat.mul_comm i]

theorem NegacyclicRoot.inverseSum_forwardSum (x : Nat → F) {i : Nat} (hi : i < 2 ^ k) :
    inverseSum φ k (forwardSum ψ k x) i = (2 ^ k : Nat) * x i := by
  have hterm : ∀ u ∈ Finset.range (2 ^ k), x u * inverseSum φ k (fun j => ψ ^ ((2 * brv k j + 1) * u)) i
      = if i = u then (2 ^ k : Nat) * x u else 0 := fun u hu => by
    have hu := Finset.mem_range.1 hu
    rw [h.inverseSum_pow (by omega) hi, negacyclicSign, if_neg (by omega : ¬ u = i + 2 ^ k)]
    rcases eq_or_ne i u with rfl | hne
    · simp [mul_comm]
    · simp [hne, hne.symm]
  unfold forwardSum
  rw [inverseSum_linear, Finset.sum_congr rfl hterm, Finset.sum_ite_eq, if_pos (Finset.mem_range.2 hi)]

theorem NegacyclicRoot.forwardSum_inverseSum (y : Nat → F) {j : Nat} (hj : j < 2 ^ k) :
    forwardSum ψ k (inverseSum φ k y) j = (2 ^ k : Nat) * y j := by
  have hterm : ∀ l ∈ Finset.range (2 ^ k),
      ∑ i ∈ Finset.range (2 ^ k), y l * φ ^ ((2 * brv k l + 1) * i) * ψ ^ ((2 * brv k j + 1) * i)
        = if j = l then (2 ^ k : Nat) * y l else 0 := fun l hl => by
    have hsum := h.sum_pow_mul_pow (brv_lt k j) (brv_lt k l)
    have hiff : brv k j = brv k l ↔ j = l :=
      ⟨fun heq => not_imp_not.1 (brv_ne_brv hj (Finset.mem_range.1 hl)) heq, fun heq => heq ▸ rfl⟩
    simp only [mul_pow, ← pow_mul, hiff] at hsum
    simp only [mul_assoc, mul_comm (φ ^ _), ← Finset.mul_sum, hsum]
    split <;> ring
  simp only [forwardSum, inverseSum, Finset.sum_mul]
  rw [Finset.sum_comm, Finset.sum_congr rfl hterm, Finset.sum_ite_eq, if_pos (Finset.mem_range.2 hj)]

/-- The pointwise product of the values of two polynomials gives their product modulo `X^n + 1` (rule R207). -/
theorem NegacyclicRoot.inverseSum_mul (x y : Nat → F) {i : Nat} (hi : i < 2 ^ k) :
    inverseSum φ k (fun j => forwardSum ψ k x j * forwardSum ψ k y j) i
      = (2 ^ k : Nat) * (∑ u ∈ Finset.range (2 ^ k), ∑ v ∈ Finset.range (2 ^ k), (if u + v = i then x u * y v else 0)
        - ∑ u ∈ Finset.range (2 ^ k), ∑ v ∈ Finset.range (2 ^ k), if u + v = i + 2 ^ k then x u * y v else 0) := by
  have hproduct : ∀ j, forwardSum ψ k x j * forwardSum ψ k y j = ∑ p ∈ Finset.range (2 ^ k) ×ˢ Finset.range (2 ^ k),
      x p.1 * y p.2 * ψ ^ ((2 * brv k j + 1) * (p.1 + p.2)) := fun j => by
    rw [forwardSum, forwardSum, Finset.sum_mul_sum, ← Finset.sum_product']
    exact Finset.sum_congr rfl fun p _ => by rw [Nat.mul_add, pow_add]; ring
  simp only [hproduct, inverseSum_linear]
  rw [← Finset.sum_product', ← Finset.sum_product', ← Finset.sum_sub_distrib, Finset.mul_sum]
  refine Finset.sum_congr rfl fun p hp => ?_
  obtain ⟨hu, hv⟩ := Finset.mem_product.1 hp
  rw [Finset.mem_range] at hu hv
  rw [h.inverseSum_pow (by omega) hi, negacyclicSign]
  have hpos := h.pos
  split
  next heq => rw [if_neg (by omega)]; ring
  next => split <;> ring

end Closed

end Sys2Proof.Machine
end

section
/-! The transforms of a validated slot: the closed forms (O52, O53), the round trips (O54) and the negacyclic product
(O55). -/

namespace Sys2Proof.Machine

/-! ### Naturals below the modulus and their residues -/

theorem eq_mod_of_cast_eq {q y z : Nat} (hy : y < q) (h : (y : ZMod q) = z) : y = z % q := by
  rw [← (ZMod.natCast_eq_natCast_iff' _ _ _).1 h, Nat.mod_eq_of_lt hy]

/-- Arrays with entries below `q` are equal if their residues are. -/
theorem list_eq_of_cast_eq {q n : Nat} {a b : List Nat} (ha : a.length = n) (hb : b.length = n) (haq : ∀ y ∈ a, y < q)
    (hbq : ∀ y ∈ b, y < q) (h : ∀ i, i < n → (a.getD i 0 : ZMod q) = b.getD i 0) : a = b := by
  refine List.ext_getElem (ha.trans hb.symm) fun i hia hib => ?_
  have hi := h i (ha ▸ hia)
  rw [List.getD_eq_getElem _ _ hia, List.getD_eq_getElem _ _ hib] at hi
  exact (eq_mod_of_cast_eq (haq _ (List.getElem_mem _)) hi).trans (Nat.mod_eq_of_lt (hbq _ (List.getElem_mem _)))

/-! ### The closed forms of the two loops on an array (rules R202, R204) -/

section Closed

variable {c : Config} {q km w k : Nat} {tw : Nat → Nat} {x : List Nat} (h : MontContract c q km)
  (htw : IsTwiddleTable c q w k tw) (hw : (w : ZMod q) ^ 2 ^ k = -1) (hlen : x.length = 2 ^ k) (hx : ∀ y ∈ x, y < q)
include h htw hw hlen hx

theorem forwardNtt_lt : ∀ y ∈ forwardNtt c q km tw k (2 ^ k) x, y < q := (forwardNtt_after h htw hw hlen hx).lt

theorem forwardNtt_getD [Fact q.Prime] {j : Nat} (hj : j < 2 ^ k) :
    ((forwardNtt c q km tw k (2 ^ k) x).getD j 0 : ZMod q)
      = forwardSum (w : ZMod q) k (fun i => (x.getD i 0 : ZMod q)) j := by
  have hvalue := (forwardNtt_after h htw hw hlen hx).value j hj 0 (by simp)
  simpa [forwardValue, forwardSum, ← pow_mul] using hvalue

variable {ninv : Nat} (hninv : ninv < q ∧ ninv * 2 ^ k % q = c.R % q)
include hninv

theorem inverseNtt_lt : ∀ y ∈ inverseNtt c q km ninv tw k (2 ^ k) x, y < q := by
  intro y hy
  obtain ⟨z, hz, rfl⟩ := List.mem_map.1 hy
  exact (redc_ninv_cast h hninv ((inverseStages_after h htw hw hlen hx).lt z hz)).1

theorem inverseNtt_getD [Fact q.Prime] {i : Nat} (hi : i < 2 ^ k) :
    ((2 ^ k : Nat) : ZMod q) * ((inverseNtt c q km ninv tw k (2 ^ k) x).getD i 0 : Nat)
      = inverseSum (w : ZMod q) k (fun j => (x.getD j 0 : ZMod q)) i := by
  have hafter := inverseStages_after h htw hw hlen hx
  have hvalue := hafter.value 0 (by simp) i hi
  have hi' : i < (inverseStages (butterflyGS c q km) tw k (2 ^ k) 1 x).length := by rwa [hafter.length]
  have hpass : (inverseNtt c q km ninv tw k (2 ^ k) x).getD i 0
      = redc c q km ((inverseStages (butterflyGS c q km) tw k (2 ^ k) 1 x).getD i 0 * ninv) := by
    simp [inverseNtt, List.getD_eq_getElem?_getD, hi']
  have hlt := getD_lt (Nat.zero_lt_two.trans_le h.modContract.1) hafter.lt i
  rw [hpass, (redc_ninv_cast h hninv hlt).2]
  simpa [inverseValue, inverseSum] using hvalue

end Closed

/-! ### What the invariants say of a slot of a validated basis (rule R181) -/

/-- Slot `x` is one of a validated basis, in a state that meets both invariants. -/
structure State.ValidSlot (s : State) (x : Nat) : Prop where
  inv : s.Inv
  context : s.ContextOk
  validated : s.validated = true
  lt_cl : x < s.cl.toNat

section ValidSlot

variable {s : State} {x : Nat} (h : s.ValidSlot x)
include h

theorem State.ValidSlot.configured : s.configured = true := h.inv.validated h.validated

theorem State.ValidSlot.cn_eq : s.cn.toNat = 2 ^ s.clogn.toNat := (h.inv.degree h.configured).1

theorem State.ValidSlot.rootsOk : (s.slot x).RootsOk s.cfg s.cn.toNat := h.context.roots h.validated x h.lt_cl

theorem State.ValidSlot.fact_prime : Fact (s.slot x).cq.toNat.Prime := ⟨h.rootsOk.prime⟩

theorem State.ValidSlot.acceptable : s.Acceptable where
  inv := h.inv
  context := h.context
  configured := h.configured
  good i hi := by
    have hroots := h.context.roots h.validated i hi
    exact ⟨hroots.prime, hroots.congruent, hroots.small⟩

theorem State.ValidSlot.goodModulus : GoodModulus s.cfg s.cn.toNat (s.slot x).cq.toNat := h.acceptable.good x h.lt_cl

theorem State.ValidSlot.one_le_cn : 1 ≤ s.cn.toNat := h.inv.one_le_cn h.configured

theorem State.ValidSlot.montContract : MontContract s.cfg (s.slot x).cq.toNat (s.slot x).mc.toNat :=
  h.acceptable.montContract h.lt_cl

theorem State.ValidSlot.twf : IsTwiddleTable s.cfg (s.slot x).cq.toNat ((s.slot x).root s.cn.toNat) s.clogn.toNat
    (fun i => (s.twfWord x i).toNat) :=
  fun i hi => (h.context.tables h.validated x h.lt_cl i (h.cn_eq ▸ hi)).1

theorem State.ValidSlot.twi : IsTwiddleTable s.cfg (s.slot x).cq.toNat ((s.slot x).rootInv s.cn.toNat) s.clogn.toNat
    (fun i => (s.twiWord x i).toNat) :=
  fun i hi => (h.context.tables h.validated x h.lt_cl i (h.cn_eq ▸ hi)).2

/-- The roots of rule R175, in the field of the modulus. -/
theorem State.ValidSlot.negacyclicRoot [Fact (s.slot x).cq.toNat.Prime] :
    NegacyclicRoot (2 ^ s.clogn.toNat) ((s.slot x).root s.cn.toNat : ZMod (s.slot x).cq.toNat)
      ((s.slot x).rootInv s.cn.toNat : ZMod (s.slot x).cq.toNat) := by
  obtain ⟨hmul, hpow, hord⟩ := rootOfUnityOrder s.cfg s.cn.toNat (s.slot x) h.one_le_cn h.rootsOk
  have hq := h.rootsOk.prime
  rw [← h.cn_eq]
  refine ⟨h.one_le_cn, IsPrimitiveRoot.iff_orderOf.2 hord, ?_, ?_⟩
  · have hcast : (((s.slot x).root s.cn.toNat ^ s.cn.toNat : Nat) : ZMod (s.slot x).cq.toNat)
        = ((s.slot x).cq.toNat - 1 : Nat) := by
      rw [← hpow, ZMod.natCast_mod]
    rw [Nat.cast_pow, Nat.cast_sub hq.one_le] at hcast
    simpa using hcast
  · rw [← Nat.cast_mul, ← ZMod.natCast_mod, hmul, Nat.cast_one]

/-- The degree is invertible for the modulus (rule R177). -/
theorem State.ValidSlot.cn_cast_ne_zero : ((2 ^ s.clogn.toNat : Nat) : ZMod (s.slot x).cq.toNat) ≠ 0 := by
  have hlt := h.goodModulus.two_mul_lt
  have hpos := h.one_le_cn
  rw [← h.cn_eq, ne_eq, ZMod.natCast_eq_zero_iff]
  exact fun hdvd => absurd (Nat.le_of_dvd hpos hdvd) (by omega)

theorem State.ValidSlot.ninv : (s.slot x).ninv.toNat < (s.slot x).cq.toNat
    ∧ (s.slot x).ninv.toNat * 2 ^ s.clogn.toNat % (s.slot x).cq.toNat = s.cfg.R % (s.slot x).cq.toNat :=
  h.cn_eq ▸ h.rootsOk.ninv

end ValidSlot

/-! ### The transforms of the slot -/

/-- `a` is an array of `CN` coefficients in range for slot `x` (rule R206). -/
structure State.InRange (s : State) (x : Nat) (a : List Nat) : Prop where
  length : a.length = s.cn.toNat
  lt : ∀ y ∈ a, y < (s.slot x).cq.toNat

theorem State.CoeffsBelow.inRange {s : State} {buf : BitVec 4} {x : Nat} (h : s.CoeffsBelow buf.toNat x) :
    s.InRange x (s.coeffs buf x) := ⟨s.coeffs_length buf x, h.forall_mem⟩

/-- The entries of an array, in the field of the modulus of the slot. -/
def State.residues (s : State) (x : Nat) (a : List Nat) (i : Nat) : ZMod (s.slot x).cq.toNat := (a.getD i 0 : Nat)

theorem State.ValidSlot.forwardSlot_eq {s : State} {x : Nat} (h : s.ValidSlot x) (a : List Nat) :
    s.forwardSlot x a = forwardNtt s.cfg (s.slot x).cq.toNat (s.slot x).mc.toNat (fun i => (s.twfWord x i).toNat)
      s.clogn.toNat (2 ^ s.clogn.toNat) a := h.cn_eq ▸ rfl

theorem State.ValidSlot.inverseSlot_eq {s : State} {x : Nat} (h : s.ValidSlot x) (a : List Nat) :
    s.inverseSlot x a = inverseNtt s.cfg (s.slot x).cq.toNat (s.slot x).mc.toNat (s.slot x).ninv.toNat
      (fun i => (s.twiWord x i).toNat) s.clogn.toNat (2 ^ s.clogn.toNat) a := h.cn_eq ▸ rfl

section Transforms

variable {s : State} {x : Nat} (h : s.ValidSlot x) {a : List Nat} (ha : s.InRange x a)
include h ha

theorem State.ValidSlot.forwardSlot_inRange : s.InRange x (s.forwardSlot x a) := by
  have := h.fact_prime
  refine ⟨(s.forwardSlot_length x a).trans ha.length, ?_⟩
  rw [h.forwardSlot_eq]
  exact forwardNtt_lt h.montContract h.twf h.negacyclicRoot.pow (h.cn_eq ▸ ha.length) ha.lt

theorem State.ValidSlot.inverseSlot_inRange : s.InRange x (s.inverseSlot x a) := by
  have := h.fact_prime
  refine ⟨(s.inverseSlot_length x a).trans ha.length, ?_⟩
  rw [h.inverseSlot_eq]
  exact inverseNtt_lt h.montContract h.twi h.negacyclicRoot.pow_inv (h.cn_eq ▸ ha.length) ha.lt h.ninv

variable [Fact (s.slot x).cq.toNat.Prime]

theorem State.ValidSlot.forwardSlot_residues {j : Nat} (hj : j < 2 ^ s.clogn.toNat) :
    s.residues x (s.forwardSlot x a) j
      = forwardSum ((s.slot x).root s.cn.toNat : ZMod (s.slot x).cq.toNat) s.clogn.toNat (s.residues x a) j := by
  rw [State.residues, h.forwardSlot_eq]
  exact forwardNtt_getD h.montContract h.twf h.negacyclicRoot.pow (h.cn_eq ▸ ha.length) ha.lt hj

theorem State.ValidSlot.inverseSlot_residues {i : Nat} (hi : i < 2 ^ s.clogn.toNat) :
    ((2 ^ s.clogn.toNat : Nat) : ZMod (s.slot x).cq.toNat) * s.residues x (s.inverseSlot x a) i
      = inverseSum ((s.slot x).rootInv s.cn.toNat : ZMod (s.slot x).cq.toNat) s.clogn.toNat (s.residues x a) i := by
  rw [State.residues, h.inverseSlot_eq]
  exact inverseNtt_getD h.montContract h.twi h.negacyclicRoot.pow_inv (h.cn_eq ▸ ha.length) ha.lt h.ninv hi

end Transforms

/-! ### The transforms undo each other, and turn the pointwise product into the negacyclic one (rules R204, R207) -/

theorem State.InRange.eq_of_residues {s : State} {x : Nat} {a b : List Nat} (ha : s.InRange x a) (hb : s.InRange x b)
    (h : ∀ i, i < s.cn.toNat → s.residues x a i = s.residues x b i) : a = b :=
  list_eq_of_cast_eq ha.length hb.length ha.lt hb.lt h

section RoundTrip

variable {s : State} {x : Nat} (h : s.ValidSlot x) {a : List Nat} (ha : s.InRange x a)
include h ha

theorem State.ValidSlot.inverseSlot_forwardSlot : s.inverseSlot x (s.forwardSlot x a) = a := by
  have := h.fact_prime
  have hforward := h.forwardSlot_inRange ha
  refine (h.inverseSlot_inRange hforward).eq_of_residues ha fun i hi => mul_left_cancel₀ h.cn_cast_ne_zero ?_
  rw [h.cn_eq] at hi
  rw [h.inverseSlot_residues hforward hi, inverseSum_congr _ fun j hj => h.forwardSlot_residues ha hj,
    h.negacyclicRoot.inverseSum_forwardSum _ hi]

theorem State.ValidSlot.forwardSlot_inverseSlot : s.forwardSlot x (s.inverseSlot x a) = a := by
  have := h.fact_prime
  have hinverse := h.inverseSlot_inRange ha
  refine (h.forwardSlot_inRange hinverse).eq_of_residues ha fun j hj => mul_left_cancel₀ h.cn_cast_ne_zero ?_
  rw [h.cn_eq] at hj
  rw [h.forwardSlot_residues hinverse hj, mul_forwardSum,
    forwardSum_congr _ fun i hi => h.inverseSlot_residues ha hi, h.negacyclicRoot.forwardSum_inverseSum _ hj]

end RoundTrip

/-- The pointwise product of two arrays, as `BRED` computes it (rules R127, R207). -/
def pointwiseProduct (q : Nat) (a b : List Nat) : List Nat := List.zipWith (fun u v => u * v % q) a b

section Product

variable {s : State} {x : Nat} {a b : List Nat} (ha : s.InRange x a) (hb : s.InRange x b)
include ha hb

theorem State.InRange.pointwise : s.InRange x (pointwiseProduct (s.slot x).cq.toNat a b) where
  length := by simp [pointwiseProduct, ha.length, hb.length]
  lt y hy := by
    obtain ⟨i, hi, rfl⟩ := List.getElem_of_mem hy
    have hia : i < a.length := List.lt_length_left_of_zipWith hi
    simp only [pointwiseProduct, List.getElem_zipWith]
    exact Nat.mod_lt _ (Nat.zero_lt_of_lt (ha.lt _ (List.getElem_mem hia)))

theorem State.residues_pointwiseProduct {j : Nat} (hj : j < s.cn.toNat) :
    s.residues x (pointwiseProduct (s.slot x).cq.toNat a b) j = s.residues x a j * s.residues x b j := by
  have hja : j < a.length := ha.length.symm ▸ hj
  have hjb : j < b.length := hb.length.symm ▸ hj
  simp [State.residues, pointwiseProduct, List.getD_eq_getElem?_getD, hja, hjb]

/-- The inverse transform of the pointwise product of two forward transforms (rule R207). -/
theorem State.ValidSlot.negacyclic_residues (h : s.ValidSlot x) {i : Nat} (hi : i < s.cn.toNat) :
    s.residues x (s.inverseSlot x
        (pointwiseProduct (s.slot x).cq.toNat (s.forwardSlot x a) (s.forwardSlot x b))) i
      = ∑ u ∈ Finset.range s.cn.toNat, ∑ v ∈ Finset.range s.cn.toNat,
          (if u + v = i then s.residues x a u * s.residues x b v else 0)
        - ∑ u ∈ Finset.range s.cn.toNat, ∑ v ∈ Finset.range s.cn.toNat,
            if u + v = i + s.cn.toNat then s.residues x a u * s.residues x b v else 0 := by
  have := h.fact_prime
  have hA := h.forwardSlot_inRange ha
  have hB := h.forwardSlot_inRange hb
  have hsize := h.cn_eq
  refine mul_left_cancel₀ h.cn_cast_ne_zero ?_
  rw [h.inverseSlot_residues (hA.pointwise hB) (hsize ▸ hi), inverseSum_congr _ fun j hj => by
      rw [State.residues_pointwiseProduct hA hB (hsize ▸ hj), h.forwardSlot_residues ha hj,
        h.forwardSlot_residues hb hj],
    h.negacyclicRoot.inverseSum_mul _ _ (hsize ▸ hi), ← hsize]

end Product

/-- Settles O55: the residue of the result is that of the sums, which fixes it below the modulus. -/
theorem negacyclicConvolution : Obligations.NegacyclicConvolution := by
  intro s x a b hinv hctx hv hx halen hblen ha hb i hi
  have h : s.ValidSlot x := ⟨hinv, hctx, hv, hx⟩
  have hresidue := State.ValidSlot.negacyclic_residues ⟨halen, ha⟩ ⟨hblen, hb⟩ h hi
  have hrange := h.inverseSlot_inRange
    ((h.forwardSlot_inRange ⟨halen, ha⟩).pointwise (h.forwardSlot_inRange ⟨hblen, hb⟩))
  have hlt := getD_lt h.rootsOk.prime.pos hrange.lt i
  refine (Int.emod_eq_of_lt (Int.natCast_nonneg _) (Int.ofNat_lt.2 hlt)).symm.trans ?_
  refine (ZMod.intCast_eq_intCast_iff' _ _ _).1 ?_
  push_cast
  exact hresidue

/-! ### The commands -/

theorem State.TransformReady.validSlot {s : State} {buf : BitVec 4} {all : Bool} {slot : BitVec 6}
    (h : s.TransformReady buf all slot) (hinv : s.Inv) (hctx : s.ContextOk) {x : Nat} (hx : x ∈ s.selected all slot) :
    s.ValidSlot x := ⟨hinv, hctx, h.1, h.selected_lt x hx⟩

/-- A result in range is written whole. -/
theorem State.ValidSlot.mkWord_toNat {s : State} {x : Nat} (h : s.ValidSlot x) {a : List Nat} (ha : s.InRange x a)
    (i : Nat) : (mkWord s.cfg (a.getD i 0)).toNat = a.getD i 0 :=
  mkWord_toNat_of_lt (h.goodModulus.modContract.lt_R (getD_lt h.rootsOk.prime.pos ha.lt i))

/-- The residue of coefficient `i` of a slot. -/
theorem State.residues_coeffs (s : State) (buf : BitVec 4) (x : Nat) {i : Nat} (hi : i < s.cn.toNat) :
    s.residues x (s.coeffs buf x) i = (s.polyWord buf.toNat x i).toNat := by
  rw [State.residues, s.coeffs_getD buf x hi]

/-- Settles O52. -/
theorem forwardClosedForm : Obligations.ForwardClosedForm := by
  intro s buf all slot hinv hctx hready
  obtain ⟨p, n, hruns, -, hword⟩ := (nttf_transforms buf all slot).result hready
  refine ⟨p, n, hruns, fun x hx hbelow j hj => ?_⟩
  have h := hready.validSlot hinv hctx hx
  have := h.fact_prime
  have hrange := h.forwardSlot_inRange hbelow.inRange
  have hsize := h.cn_eq
  rw [hword (hready.cn_le hinv) x hx hbelow j hj, h.mkWord_toNat hrange]
  refine eq_mod_of_cast_eq (getD_lt h.rootsOk.prime.pos hrange.lt j) ?_
  refine (h.forwardSlot_residues hbelow.inRange (hsize ▸ hj)).trans ?_
  rw [forwardSum, ← hsize]
  push_cast
  exact Finset.sum_congr rfl fun i hi => by rw [s.residues_coeffs buf x (Finset.mem_range.1 hi)]

/-- Settles O53. -/
theorem inverseClosedForm : Obligations.InverseClosedForm := by
  intro s buf all slot hinv hctx hready
  obtain ⟨p, n, hruns, -, hword⟩ := (ntti_transforms buf all slot).result hready
  refine ⟨p, n, hruns, fun x hx hbelow i hi => ?_⟩
  have h := hready.validSlot hinv hctx hx
  have := h.fact_prime
  have hrange := h.inverseSlot_inRange hbelow.inRange
  have hsize := h.cn_eq
  rw [hword (hready.cn_le hinv) x hx hbelow i hi, h.mkWord_toNat hrange]
  refine ⟨getD_lt h.rootsOk.prime.pos hrange.lt i, (ZMod.natCast_eq_natCast_iff' _ _ _).1 ?_⟩
  have hvalue := h.inverseSlot_residues hbelow.inRange (hsize ▸ hi)
  rw [← hsize] at hvalue
  rw [Nat.cast_mul]
  refine hvalue.trans ?_
  rw [inverseSum, ← hsize]
  push_cast
  exact Finset.sum_congr rfl fun j hj => by rw [s.residues_coeffs buf x (Finset.mem_range.1 hj)]

/-- A transform command followed by one whose slot transform undoes the first leaves the coefficients as they were. -/
theorem Transforms.roundTrip {i i' : Instr} {tr tr' : State → Nat → List Nat → List Nat} {buf : BitVec 4}
    {slot : BitVec 6} (htr : Transforms i tr buf false slot) (htr' : Transforms i' tr' buf false slot) {s : State}
    (hready : s.TransformReady buf false slot) (h : s.ValidSlot slot.toNat)
    (hbelow : s.CoeffsBelow buf.toNat slot.toNat)
    (hrange : s.InRange slot.toNat (tr s slot.toNat (s.coeffs buf slot.toNat)))
    (hback : tr' s slot.toNat (tr s slot.toNat (s.coeffs buf slot.toNat)) = s.coeffs buf slot.toNat) :
    ∃ t u, exec i s = .next t ∧ exec i' t = .next u
      ∧ ∀ j, j < s.cn.toNat → u.polyWord buf.toNat slot.toNat j = s.polyWord buf.toNat slot.toNat j := by
  have hn := hready.cn_le h.inv
  have hx : slot.toNat ∈ s.selected false slot := List.mem_singleton_self _
  obtain ⟨p, n, hruns, -, hword⟩ := htr.result hready
  set t := State.finished .ok { s with poly := p, draws := n } with ht
  have htword : ∀ j, j < s.cn.toNat →
      t.polyWord buf.toNat slot.toNat j = mkWord s.cfg ((tr s slot.toNat (s.coeffs buf slot.toNat)).getD j 0) :=
    fun j hj => hword hn _ hx hbelow j hj
  have htbelow : t.CoeffsBelow buf.toNat slot.toNat := fun j hj => by
    rw [htword j hj, h.mkWord_toNat hrange]
    exact getD_lt h.rootsOk.prime.pos hrange.lt j
  have htcoeffs : t.coeffs buf slot.toNat = tr s slot.toNat (s.coeffs buf slot.toNat) := by
    have htrange : s.InRange slot.toNat (t.coeffs buf slot.toNat) := ⟨t.coeffs_length buf _, htbelow.forall_mem⟩
    refine htrange.eq_of_residues hrange fun j hj => ?_
    rw [State.residues, t.coeffs_getD buf _ hj, htword j hj, h.mkWord_toNat hrange]
    rfl
  obtain ⟨p', n', hruns', -, hword'⟩ := htr'.result (s := t) hready
  refine ⟨t, _, hruns, hruns', fun j hj => ?_⟩
  refine (hword' hn _ hx htbelow j hj).trans ?_
  rw [htcoeffs, ht, htr'.slotTransform.finished, htr'.slotTransform.reads, hback, s.coeffs_getD buf _ hj]
  exact mkWord_self (h.goodModulus.modContract.lt_R (hbelow j hj))

/-- Settles O54. -/
theorem transformRoundTrip : Obligations.TransformRoundTrip := by
  intro s buf slot hinv hctx hready hbelow
  have h := hready.validSlot hinv hctx (List.mem_singleton_self slot.toNat)
  have hrange := hbelow.inRange
  exact ⟨(nttf_transforms buf false slot).roundTrip (ntti_transforms buf false slot) hready h hbelow
      (h.forwardSlot_inRange hrange) (h.inverseSlot_forwardSlot hrange),
    (ntti_transforms buf false slot).roundTrip (nttf_transforms buf false slot) hready h hbelow
      (h.inverseSlot_inRange hrange) (h.forwardSlot_inverseSlot hrange)⟩

end Sys2Proof.Machine
end

section
/-! Completion and the status bits: an idle unit waits (O7), every command completes (O16) with a code listed for it
(O17), and what clears the bits and codes of `STATUS` (O13). -/

namespace Sys2Proof.Machine

/-! ### The idle unit (rule R236) -/

theorem unitStep_of_idle {s : State} (hb : s.busy = false) : unitStep s = .next s := by
  rcases unitStep_cases s with ⟨-, e⟩ | ⟨hbusy, -⟩ | ⟨hbusy, -⟩
  · exact e
  all_goals exact nomatch hb.symm.trans hbusy

/-- Settles O7. -/
theorem idleUnitWaits : Obligations.IdleUnitWaits := by
  intro s hb hturn
  rw [step_of_unitTurn hturn]
  exact unitStep_of_idle hb

/-! ### Completion (rules R220, R226, R237) -/

/-- No write of a command reaches the port errors, the interrupt enable or the command word. -/
theorem Writes.port {s u : State} {i : Instr} (h : Writes s i u) :
    u.hazard = s.hazard ∧ u.addrerr = s.addrerr ∧ u.ie = s.ie ∧ u.lastcmd = s.lastcmd := by
  cases h <;> exact ⟨rfl, rfl, rfl, rfl⟩

/-- Settles O16: the completion raises `DONE`, so the interrupt output is the enable. -/
theorem everyCommandCompletes : Obligations.EveryCommandCompletes := by
  intro i s
  obtain ⟨u, e, hwrites, he⟩ := exec_writes i s
  obtain ⟨hhazard, haddrerr, hie, hlast⟩ := hwrites.port
  have hirq : (u.finished e).irq = u.ie := rfl
  exact ⟨u.finished e, he, rfl, rfl, hirq.trans hie, hhazard, haddrerr, hie, hlast⟩

/-! ### The errors of each command (rules R221, R222) -/

/-- The outcome is a completion (rule R220) with `ERRCODE = 0` or an error that the command `i` may raise (rule
R222). -/
def CompletesAsListed (i : Instr) (o : Host.Outcome State Fault Refusal) : Prop :=
  ∃ u e, (e = .ok ∨ e ∈ errorsOf i) ∧ o = .next (State.finished e u)

theorem finishR0_asListed (i : Instr) (s : State) (ok : Bool) (v : Nat) :
    CompletesAsListed i (.next (s.finishR0 ok v)) := by
  obtain ⟨w, n, -, e⟩ := State.finishR0_cases s ok v
  exact ⟨_, .ok, .inl rfl, congrArg _ e⟩

theorem finishR0R1_asListed (i : Instr) (s : State) (ok : Bool) (v : Nat × Nat) :
    CompletesAsListed i (.next (s.finishR0R1 ok v)) := by
  obtain ⟨w, x, n, -, -, e⟩ := State.finishR0R1_cases s ok v
  exact ⟨_, .ok, .inl rfl, congrArg _ e⟩

theorem execCtxset_asListed (s : State) : CompletesAsListed .ctxset (execCtxset s) := by
  rcases execCtxset_cases s with ⟨-, e⟩ | ⟨-, -, e⟩ | ⟨-, -, e⟩ <;> exact ⟨_, _, by decide, e⟩

theorem execValidate_asListed (s : State) : CompletesAsListed .validate (execValidate s) := by
  rcases execValidate_cases s with ⟨-, e⟩ | ⟨-, -, e⟩ | ⟨-, -, j, -, e⟩ | ⟨-, -, -, e⟩ <;> exact ⟨_, _, by decide, e⟩

theorem execCtxld_asListed (slot : BitVec 6) (s : State) : CompletesAsListed (.ctxld slot) (execCtxld slot s) := by
  rcases execCtxld_cases slot s with ⟨-, e⟩ | ⟨-, e⟩
  · exact ⟨s, _, .inr (List.mem_singleton_self _), e⟩
  · exact ⟨_, _, .inl rfl, e⟩

/-- With `ALL = 1` the slot field is not checked (rule R200). -/
theorem State.transformError_all_ne_badSlot (s : State) (buf : BitVec 4) (slot : BitVec 6) :
    s.transformError buf true slot ≠ some .badSlot := by
  unfold State.transformError
  split
  · decide
  split
  · decide
  · simp

theorem State.transformError_mem_errorsOf {s : State} {buf : BitVec 4} {all : Bool} {slot : BitVec 6} {e : ErrCode}
    (h : s.transformError buf all slot = some e) : e ∈ errorsOf (.nttf buf all slot) := by
  rcases State.transformError_mem h with rfl | rfl | rfl
  · cases all <;> simp [errorsOf]
  · cases all <;> simp [errorsOf]
  · cases all with
    | true => exact absurd h (s.transformError_all_ne_badSlot buf slot)
    | false => simp [errorsOf]

theorem transform_asListed {i : Instr} {buf : BitVec 4} {all : Bool} {slot : BitVec 6}
    (hi : errorsOf i = errorsOf (.nttf buf all slot)) (tr : State → Nat → List Nat → List Nat) (s : State) :
    CompletesAsListed i (.next (s.transform tr buf all slot)) := by
  rcases State.transform_cases tr buf all slot s with ⟨c, hc, e⟩ | ⟨-, e⟩
  · exact ⟨s, c, .inr (hi ▸ State.transformError_mem_errorsOf hc), congrArg _ e⟩
  · exact ⟨_, .ok, .inl rfl, congrArg _ e⟩

/-- Every command completes with `ERRCODE = 0` or an error of its own (rule R222). -/
theorem exec_asListed (i : Instr) (s : State) : CompletesAsListed i (exec i s) := by
  cases i with
  | nop => exact ⟨s, .ok, .inl rfl, rfl⟩
  | mform | mtos | mred | mredLazy | bred | cred | madd | msub | modpow | fred | mconst =>
    exact finishR0_asListed _ s _ _
  | bconst | bfct | bfgs => exact finishR0R1_asListed _ s _ _
  | ctxset => exact execCtxset_asListed s
  | validate => exact execValidate_asListed s
  | ctxld slot => exact execCtxld_asListed slot s
  | nttf buf all slot => exact transform_asListed rfl _ s
  | ntti buf all slot => exact transform_asListed rfl _ s

/-- Settles O17. -/
theorem errorsPerCommand : Obligations.ErrorsPerCommand := by
  intro i s t ht
  obtain ⟨u, e, hlisted, he⟩ := exec_asListed i s
  obtain rfl := Host.Outcome.next.inj (ht.symm.trans he)
  exact hlisted

/-! ### The host's writes to `STATUS` and `CMD` (rules R31, R64, R227) -/

/-- The port carries the low 32 bits of a word at either width (rule R3). -/
theorem mkWord_getLsbD (k : Config) (v : Word) {j : Nat} (hj : j < 32) :
    (mkWord k v.toNat).getLsbD j = v.getLsbD j := by
  have hW : j < k.W := by rcases Config.W_eq k with h | h <;> omega
  rw [BitVec.getLsbD, mkWord_toNat, Nat.testBit_mod_two_pow, decide_eq_true hW, Bool.true_and, BitVec.getLsbD]

/-- A write to `STATUS` acts by bits 1, 3 and 4, busy or not. -/
theorem State.hostWrite_status (s : State) (v : Word) : s.hostWrite 3 v = s.writeStatus v := by
  simp (disch := decide) only [State.hostWrite, State.hostWriteWord_status, State.writeStatus, mkWord_getLsbD]

theorem step_write_status {s : State} {v : Word} {es : List PortEvent} (hev : s.events = .write 3 v :: es) :
    step s = .next ((s.setEvents es).writeStatus v) :=
  (step_of_write hev).trans (congrArg _ (State.hostWrite_status _ v))

theorem step_write_cmd {s : State} {v : Word} {es : List PortEvent} (hb : s.busy = false)
    (hev : s.events = .write 4 v :: es) : step s = .next ((s.setEvents es).accept (mkWord s.cfg v.toNat)) :=
  (step_of_write hev).trans (congrArg _ (State.hostWriteWord_cmd (s := s.setEvents es) hb _))

/-! ### The error code and its record (rules R31, R33, R227) -/

/-- `t` has the error code and the record of the failing modulus of `s`. -/
def State.SameErrors (s t : State) : Prop := t.errcode = s.errcode ∧ t.errslot = s.errslot ∧ t.errval = s.errval

theorem State.SameErrors.refl (s : State) : s.SameErrors s := ⟨rfl, rfl, rfl⟩

theorem State.hostRead_sameErrors (s : State) (addr : Nat) : s.SameErrors (s.hostRead addr) := by
  rcases State.hostRead_cases addr s with ⟨-, -, e⟩ | ⟨-, l, -, e⟩ | ⟨-, -, e⟩ <;> rw [e] <;> exact .refl s

theorem State.writeLoc_sameErrors (s : State) (l : Loc) (v : Word) : s.SameErrors (s.writeLoc l v) := by
  cases l <;> exact .refl s

/-- No host write touches the errors: a write to `STATUS` clears `DONE`, `HAZARD` and `ADDRERR` only. -/
theorem State.hostWrite_sameErrors (s : State) (addr : Nat) (v : Word) : s.SameErrors (s.hostWrite addr v) := by
  rw [State.hostWrite]
  rcases State.hostWriteWord_cases addr (mkWord s.cfg v.toNat) s with
    ⟨-, e⟩ | ⟨-, e⟩ | ⟨-, -, -, e⟩ | ⟨-, -, e⟩ | ⟨-, l, -, -, e⟩ | ⟨-, e⟩ <;> rw [e]
  case inr.inr.inr.inr.inl => exact s.writeLoc_sameErrors l _
  all_goals exact .refl s

/-- `t` has another `ERRSLOT` or `ERRVAL` than `s`. -/
def State.NewReport (s t : State) : Prop := t.errslot ≠ s.errslot ∨ t.errval ≠ s.errval

theorem State.not_newReport {s t : State} (hslot : t.errslot = s.errslot) (hval : t.errval = s.errval) :
    ¬ s.NewReport t := fun h => h.elim (absurd hslot) (absurd hval)

theorem State.SameErrors.not_newReport {s t : State} (h : s.SameErrors t) : ¬ s.NewReport t := by
  obtain ⟨-, hslot, hval⟩ := h
  exact State.not_newReport hslot hval

/-- `VALIDATE` records a slot when its check fails, and then only (rule R173). -/
theorem execValidate_newReport {s t : State} (h : execValidate s = .next t) (hnew : s.NewReport t) :
    t.errcode = .nonNttCompatibleModulus := by
  rcases execValidate_cases s with ⟨-, e⟩ | ⟨-, -, e⟩ | ⟨-, -, j, -, e⟩ | ⟨-, -, -, e⟩ <;>
    obtain rfl := Host.Outcome.next.inj (h.symm.trans e)
  · exact absurd hnew (State.not_newReport rfl rfl)
  · exact absurd hnew (State.not_newReport rfl rfl)
  · rfl
  · obtain ⟨v, f, g, hall⟩ := s.precomputeAll_cases
    rw [hall] at hnew
    exact absurd hnew (State.not_newReport rfl rfl)

/-- No command but a failing `VALIDATE` records a slot (rule R33). -/
theorem exec_newReport {i : Instr} {s t : State} (h : exec i s = .next t) (hnew : s.NewReport t) :
    i = .validate ∧ t.errcode = .nonNttCompatibleModulus := by
  by_cases hval : i = .validate
  · subst hval
    exact ⟨rfl, execValidate_newReport h hnew⟩
  · obtain ⟨u, e, hwrites, he⟩ := exec_writes i s
    obtain rfl := Host.Outcome.next.inj (h.symm.trans he)
    cases hwrites with
    | report => exact absurd rfl hval
    | nothing | r0 | r0r1 | context | tables | modulus | coeffs => exact absurd hnew (State.not_newReport rfl rfl)

/-- The unit's turn leaves the errors alone, or completes a command, which records a slot when it is a failing
`VALIDATE`. -/
theorem unitStep_errors {s t : State} (h : unitStep s = .next t) :
    s.SameErrors t ∨ (s.busy = true
      ∧ (s.NewReport t → decode s.lastcmd = .ok .validate ∧ t.errcode = .nonNttCompatibleModulus)) := by
  rcases unitStep_cases s with ⟨-, e⟩ | ⟨hb, i, hd, e⟩ | ⟨hb, -, -, e⟩ <;> rw [e] at h
  · cases h
    exact .inl (.refl s)
  · refine .inr ⟨hb, fun hnew => ?_⟩
    obtain ⟨rfl, hcode⟩ := exec_newReport h hnew
    exact ⟨hd, hcode⟩
  · cases h
    exact .inr ⟨hb, fun hnew => absurd hnew (State.not_newReport rfl rfl)⟩

/-- What a step can do to the errors (rule R227): nothing, a reset, or a completion, which records a slot when it is
that of a failing `VALIDATE`. -/
theorem step_errors {s t : State} (h : step s = .next t) :
    s.SameErrors t ∨ s.ResetNext ∨ ((s.UnitTurn ∧ s.busy = true)
      ∧ (s.NewReport t → s.Runs .validate ∧ t.errcode = .nonNttCompatibleModulus)) := by
  rcases step_cases s with ⟨hturn, e⟩ | ⟨addr, es, -, e⟩ | ⟨addr, v, es, -, e⟩ | ⟨es, hev, -⟩
  · rcases unitStep_errors (s := s.setEvents s.events.tail) (e.symm.trans h) with hsame | ⟨hb, hreport⟩
    · exact .inl hsame
    · refine .inr (.inr ⟨⟨hturn, hb⟩, fun hnew => ?_⟩)
      obtain ⟨hd, hcode⟩ := hreport hnew
      exact ⟨⟨hturn, hb, hd⟩, hcode⟩
  · obtain rfl := Host.Outcome.next.inj (h.symm.trans e)
    exact .inl ((s.setEvents es).hostRead_sameErrors addr.toNat)
  · obtain rfl := Host.Outcome.next.inj (h.symm.trans e)
    exact .inl ((s.setEvents es).hostWrite_sameErrors addr.toNat v)
  · exact .inr (.inl ⟨es, hev⟩)

theorem step_errcode_changes {s t : State} (h : step s = .next t) (hne : t.errcode ≠ s.errcode) :
    (s.UnitTurn ∧ s.busy = true) ∨ s.ResetNext := by
  rcases step_errors h with ⟨hsame, -⟩ | hreset | ⟨hcompletes, -⟩
  · exact absurd hsame hne
  · exact .inr hreset
  · exact .inl hcompletes

theorem step_newReport {s t : State} (h : step s = .next t) (hnew : s.NewReport t) :
    (s.Runs .validate ∧ t.errcode = .nonNttCompatibleModulus) ∨ s.ResetNext := by
  rcases step_errors h with hsame | hreset | ⟨-, hreport⟩
  · exact absurd hnew hsame.not_newReport
  · exact .inr hreset
  · exact .inl (hreport hnew)

/-- On its turn the unit completes the command it runs. -/
theorem step_of_runs {s : State} {i : Instr} (h : s.Runs i) : step s = exec i { s with events := s.events.tail } := by
  obtain ⟨hturn, hb, hd⟩ := h
  rw [step_of_unitTurn hturn]
  exact unitStep_of_decode hb hd

/-- Settles O13: the writes to `STATUS` and `CMD`, and what a step can do to the errors. -/
theorem statusClearing : Obligations.StatusClearing := by
  intro s t h
  refine ⟨fun v es hev => ?status, step_errcode_changes h, step_newReport h, fun v es hb hev => ?accept,
    fun hruns => ?nop⟩
  case status =>
    obtain rfl := Host.Outcome.next.inj (h.symm.trans (step_write_status hev))
    exact ⟨rfl, rfl, rfl, rfl⟩
  case accept =>
    obtain rfl := Host.Outcome.next.inj (h.symm.trans (step_write_cmd hb hev))
    exact ⟨rfl, rfl⟩
  case nop =>
    obtain rfl := Host.Outcome.next.inj (h.symm.trans (step_of_runs hruns))
    rfl

end Sys2Proof.Machine
end

section
/-! Reset: what the reset input clears (O18), and what the commands do right after it (O19). -/

namespace Sys2Proof.Machine

/-! ### The words after the reset input (rules R250, R251) -/

theorem step_of_reset {s : State} {es : List PortEvent} (h : s.events = .reset :: es) :
    step s = .next (s.setEvents es).assertReset := by
  unfold step
  rw [h]

@[simp] theorem Slot.zero_field (f : SlotField) : Slot.zero.field f = 0 := by cases f <;> rfl

@[simp] theorem State.assertReset_slot (s : State) (i : Nat) : s.assertReset.slot i = Slot.zero :=
  s.assertReset_inv.unused i (Nat.zero_le i)

@[simp] theorem State.assertReset_qinAt (s : State) (i : Nat) : s.assertReset.qinAt i = 0 := by
  rw [State.qinAt, State.assertReset_qin, List.getD_eq_getElem?_getD, List.getElem?_replicate]
  split <;> rfl

/-- After the reset input the registers read 0: the arrays by the lemmas above, each other one by its own field. -/
theorem State.assertReset_readLoc (s : State) {l : Loc} (hram : l.isRam = false) (hid : l ≠ .id) (hcfg : l ≠ .cfg) :
    s.assertReset.readLoc l = 0 := by
  cases l with
  | id => exact absurd rfl hid
  | cfg => exact absurd rfl hcfg
  | qin i => exact s.assertReset_qinAt i
  | slot i f => rw [State.readLoc, State.assertReset_slot, Slot.zero_field]
  | twf | twi | poly => exact nomatch hram
  | _ => rfl

/-- Settles O18: the reset input does not look at `BUSY`, so it acts the same on a running unit. -/
theorem resetClearsRegisters : Obligations.ResetClearsRegisters := by
  intro s ⟨es, hev⟩
  have hstep := step_of_reset hev
  obtain ⟨-, -, hkept⟩ := identificationConstants
  obtain ⟨hid, hcfg⟩ := hkept _ _ hstep
  exact ⟨_, hstep, fun _ _ => State.assertReset_readLoc _, hid, hcfg, rfl, rfl, rfl, rfl⟩

/-! ### No contract of rule R120 holds right after reset (rule R252) -/

/-- `Q = 0` is no modulus. -/
theorem State.resetWith_not_modContract (k : Config) :
    ¬ ModContract (State.resetWith k).cfg (State.resetWith k).q.toNat :=
  fun ⟨h2, _⟩ => absurd h2 (by simp)

theorem State.resetWith_not_barContract (k : Config) :
    ¬ BarContract (State.resetWith k).cfg (State.resetWith k).q.toNat (State.resetWith k).kbl.toNat
      (State.resetWith k).kbh.toNat :=
  fun ⟨hmod, _⟩ => State.resetWith_not_modContract k hmod

theorem State.resetWith_not_montContract (k : Config) :
    ¬ MontContract (State.resetWith k).cfg (State.resetWith k).q.toNat (State.resetWith k).km.toNat :=
  fun h => State.resetWith_not_modContract k h.modContract

theorem State.resetWith_drawsR0 (k : Config) :
    ∀ i ∈ [Instr.mform, .mtos, .mred, .mredLazy, .bred, .cred, .madd, .msub, .modpow, .mconst],
      DrawsR0 i (State.resetWith k) := by
  have hmod := State.resetWith_not_modContract k
  have hbar := State.resetWith_not_barContract k
  have hmont := State.resetWith_not_montContract k
  have heven : ¬ (State.resetWith k).q.toNat % 2 = 1 := by simp
  simp only [List.forall_mem_cons]
  exact ⟨(mform_writesR0 _).drawsR0 (hbar ·.1), (mtos_writesR0 _).drawsR0 (hmont ·.1),
    (mred_writesR0 _).drawsR0 (hmont ·.1), (mredLazy_writesR0 _).drawsR0 (hmont ·.1), (bred_writesR0 _).drawsR0 hbar,
    (cred_writesR0 _).drawsR0 (hmod ·.1), (madd_writesR0 _).drawsR0 (hmod ·.1), (msub_writesR0 _).drawsR0 (hmod ·.1),
    (modpow_writesR0 _).drawsR0 hmod, (mconst_writesR0 _).drawsR0 heven, List.forall_mem_nil _⟩

theorem State.resetWith_drawsR0R1 (k : Config) :
    ∀ i ∈ [Instr.bconst, .bfct, .bfgs], DrawsR0R1 i (State.resetWith k) := by
  have hmont := State.resetWith_not_montContract k
  obtain ⟨-, hbconst⟩ := bconstResult
  obtain ⟨-, hdraws⟩ := hbconst (State.resetWith k)
  simp only [List.forall_mem_cons]
  exact ⟨hdraws (by simp), (bfct_writesR0R1 _).drawsR0R1 (hmont ·.1), (bfgs_writesR0R1 _).drawsR0R1 (hmont ·.1),
    List.forall_mem_nil _⟩

/-- Settles O19: the first check of `NTTF`, `NTTI`, `VALIDATE` and `CTXLD` fails on the Empty context, and
every contract on `Q = 0`. -/
theorem postResetCommands : Obligations.PostResetCommands := by
  intro k
  have htransform : ∀ buf all slot (i : Instr), i = .nttf buf all slot ∨ i = .ntti buf all slot →
      Raises i (State.resetWith k) .notValidated := by
    intro buf all slot i hi
    obtain ⟨hnotValidated, -⟩ := transformChecks (State.resetWith k) buf all slot i hi
    exact hnotValidated rfl
  obtain ⟨-, hguards⟩ := validateGuards
  obtain ⟨hnotConfigured, -⟩ := hguards (State.resetWith k)
  refine ⟨fun buf all slot => ⟨htransform buf all slot _ (.inl rfl), htransform buf all slot _ (.inr rfl)⟩,
    hnotConfigured rfl, fun slot => ?_, State.resetWith_drawsR0 k, State.resetWith_drawsR0R1 k⟩
  obtain ⟨-, hbadSlot, -⟩ := ctxldResult (State.resetWith k) slot
  exact hbadSlot (Nat.zero_le _)

end Sys2Proof.Machine
end
